-- ==== Sys2Proof/Word.lean ====
section
/-! DEFINITION. The word types of CORE: bytes, 32-bit words, 16-byte blocks (as the `be128` integer of
their bytes, R44), and the four-word registers `X` and `K` (R14, R15). -/

namespace Sys2Proof

/-- An 8-bit byte. -/
abbrev Byte := BitVec 8

/-- A 32-bit word, bit 0 the least significant (00_scope.md section 4). -/
abbrev Word := BitVec 32

/-- A 16-byte block in the `be128` reading: byte 0 is the most significant (R41, R44). -/
abbrev Block := BitVec 128

/-- Four 32-bit words: the cipher's working register `X[0..3]` (R14), the key-schedule register
`K[0..3]` (R15), or the system parameter `FK[0..3]` (R89). -/
structure Quad where
  w0 : Word
  w1 : Word
  w2 : Word
  w3 : Word
deriving DecidableEq, Repr

end Sys2Proof
end

