-- ==== Sys2Proof/Syntax.lean ====
section
/-! DEFINITION. The commands of CORE (one constructor of `Instr` per row of the opcode table), the fields of
a command word, and the host's vocabulary: buffers, registers, port accesses (R23, R24, R60 to R72). -/

namespace Sys2Proof

/-- The strategy that evaluates the cipher, field `STRAT` (R62). -/
inductive Strategy where
  | direct
  | table
  | batch
deriving DecidableEq, Repr

/-- The padding mode, field `PAD` (R63). -/
inductive Padding where
  | none
  | pkcs7
deriving DecidableEq, Repr

/-- The direction of a block evaluation (R110). -/
inductive Direction where
  | enc
  | dec
deriving DecidableEq, Repr

/-- The operations named by field `OP` (R61). -/
inductive Op where
  | keyexp
  | tblgen
  | encblk
  | decblk
  | enc
  | dec
  | gcmenc
  | gcmdec
deriving DecidableEq, Repr

/-- The legal commands (R66), one constructor per row of the opcode table. `kx` is the key-schedule
prefix (R64), `pad` the padding mode (R63); a field a row does not leave free is not an argument. -/
inductive Instr where
  | keyexpD
  | keyexpT
  | tblgen
  | encblkD (kx : Bool)
  | encblkT (kx : Bool)
  | encblkB (kx : Bool)
  | decblkD (kx : Bool)
  | decblkT (kx : Bool)
  | decblkB (kx : Bool)
  | encD (pad : Padding) (kx : Bool)
  | encT (pad : Padding) (kx : Bool)
  | encB (pad : Padding) (kx : Bool)
  | decD (pad : Padding) (kx : Bool)
  | decT (pad : Padding) (kx : Bool)
  | decB (pad : Padding) (kx : Bool)
  | gcmencD (kx : Bool)
  | gcmencT (kx : Bool)
  | gcmencB (kx : Bool)
  | gcmdecD (kx : Bool)
  | gcmdecT (kx : Bool)
  | gcmdecB (kx : Bool)
deriving DecidableEq, Repr

/-- The five fields of a command word (R60), as bits. -/
structure CommandFields where
  op : BitVec 8
  strat : BitVec 2
  pad : BitVec 1
  kx : BitVec 1
  rsv : BitVec 20
deriving DecidableEq, Repr

/-- Why a word is no legal command, by the step of R68 that fails. The machine records none of this
(R68): every one of them becomes `IllegalCommand`. -/
inductive DecodeError where
  /-- `RSV` is not 0 (R65). -/
  | reservedBits
  /-- `OP` is not in the table of R61. -/
  | unknownOp
  /-- `STRAT`, `PAD` or `KX` holds a value the operation does not allow (R66). -/
  | illegalCombination
deriving DecidableEq, Repr

/-- The five byte buffers (R24). -/
inductive Buffer where
  | keyBuf
  | ivBuf
  | aadBuf
  | inBuf
  | outBuf
deriving DecidableEq, Repr

/-- The registers of the register block, by name (R23). -/
inductive Reg where
  | cmd
  | status
  | keyLen
  | ivLen
  | aadLen
  | inLen
  | outLen
  | tagIn (j : Fin 4)
  | tagOut (j : Fin 4)
  | rk (i : Fin 32)
  /-- A reserved offset: reads 0, writes dropped (R23, U16). -/
  | reserved
deriving DecidableEq, Repr

/-- One access at the host port. `width` is in bytes, so that the accesses R45 leaves undefined can be
written down (and are refused). -/
inductive Access where
  | readReg (width offset : Nat)
  | writeReg (width offset : Nat) (value : Word)
  | readBuf (buffer : Buffer) (width index : Nat)
  | writeBuf (buffer : Buffer) (width index : Nat) (value : Byte)
deriving DecidableEq, Repr

/-- What arrives from outside the block: a host access, the host's polling loop `wait` (R69), or the
reset input (R230). -/
inductive Input where
  | access (a : Access)
  | wait
  | reset
deriving DecidableEq, Repr

/-- A value returned at the host port: a register word or a buffer byte (R45). -/
inductive PortData where
  | word (w : Word)
  | byte (b : Byte)
deriving DecidableEq, Repr

end Sys2Proof
end

