-- ==== Sys2Proof/Config.lean ====
section
/-! DEFINITION. The configuration record of R7, and the free values: constants without a body that stand for
what the spec leaves unspecified (R26, R27, R240; 93_implementation_defined.md U8 to U11, U13, U19). -/

namespace Sys2Proof

/-- Bus addresses of the register block and of the five buffer windows, parameter `buf_base` (R7, R53).
The model addresses by name and never reads it (U21). -/
structure BusBases where
  registers : Nat
  keyBuf : Nat
  ivBuf : Nat
  aadBuf : Nat
  inBuf : Nat
  outBuf : Nat
deriving DecidableEq, Repr

/-- The implementation parameters (R7). -/
structure Config where
  keyCap : Nat
  ivCap : Nat
  aadCap : Nat
  inCap : Nat
  outCap : Nat
  lanes : Nat
  bufBase : Option BusBases
deriving DecidableEq, Repr

/-- The defaults of R7, which the spec's vectors assume. -/
def Config.standard : Config where
  keyCap := 32
  ivCap := 128
  aadCap := 4096
  inCap := 4096
  outCap := 4112
  lanes := 4
  bufBase := none

/-- FREE VALUE: the byte that storage `buffer`, index `index`, holds after the `epoch`-th reset and until
something is written there (R27, R233; U8, U9, U13). -/
opaque Config.resetByte (epoch : Nat) (buffer : Buffer) (index : Nat) : Byte

/-- FREE VALUE: the word `RK[i]` reads as while `RK_VALID = 0` (R27; U8). -/
opaque Config.resetRk (epoch : Nat) (i : Fin 32) : Word

/-- FREE VALUE: the word `TAG_OUT[j]` reads as before the first success of `GCMENC` (R27; U8, U13). -/
opaque Config.resetTagOut (epoch : Nat) (j : Fin 4) : Word

/-- FREE VALUE: the `n`-th unspecified word returned at the host port (R26; U10). -/
opaque Config.freeWord (n : Nat) : Word

/-- FREE VALUE: the `n`-th unspecified byte returned at the host port (R24, R26; U10, U11). -/
opaque Config.freeByte (n : Nat) : Byte

/-- FREE VALUE: how many host steps fall into a busy window (R240, R243; U19). -/
opaque Config.freeDelay (n : Nat) : Nat

end Sys2Proof
end

