-- ==== Sys2Proof/WellFormed.lean ====
section
/-! DEFINITION. What makes a command word's fields legal (R61 to R66), written as the table of R66 and apart
from the decoder, and what makes a configuration record admissible (R7). `Instr` itself has no ill-formed term:
its constructors carry only the fields a row leaves free. -/

namespace Sys2Proof

/-- One row of the table of R66: an `OP` value and what it allows in the other fields. -/
structure LegalRow where
  op : BitVec 8
  maxStrat : Nat
  allowsPad : Bool
  allowsKx : Bool
deriving DecidableEq, Repr

/-- The table of R66. -/
def legalRows : List LegalRow :=
  [⟨0x01, 1, false, false⟩, ⟨0x02, 0, false, false⟩, ⟨0x10, 2, false, true⟩, ⟨0x11, 2, false, true⟩,
    ⟨0x20, 2, true, true⟩, ⟨0x21, 2, true, true⟩, ⟨0x30, 2, false, true⟩, ⟨0x31, 2, false, true⟩]

/-- Do the fields fall under this row? -/
def CommandFields.fits (f : CommandFields) (r : LegalRow) : Bool :=
  f.op = r.op && f.strat.toNat ≤ r.maxStrat && (f.pad = 0 || r.allowsPad) && (f.kx = 0 || r.allowsKx)

/-- A legal command word's fields (R66): `RSV = 0` and one of the rows. -/
def CommandFields.wellFormed (f : CommandFields) : Bool :=
  f.rsv = 0 && legalRows.any f.fits

/-- The constraints of R7 on the configuration record. -/
def Config.wellFormed (c : Config) : Bool :=
  16 ≤ c.keyCap && 12 ≤ c.ivCap && c.aadCap < 2 ^ 32 && 16 ≤ c.inCap && c.inCap < 2 ^ 32 - 16 &&
    c.inCap + 16 ≤ c.outCap && 1 ≤ c.lanes

end Sys2Proof
end

