-- ==== Sys2Proof/Decode.lean ====
section
/-! DEFINITION. Decoding a command word (R60, R68) and encoding a command (R69). Decoding is total: every
32-bit word is a command or is rejected by name (R67). -/

namespace Sys2Proof

/-- The fields of a command word (R60). -/
def fieldsOf (w : Word) : CommandFields where
  op := w.extractLsb' 0 8
  strat := w.extractLsb' 8 2
  pad := w.extractLsb' 10 1
  kx := w.extractLsb' 11 1
  rsv := w.extractLsb' 12 20

/-- The operation an `OP` value names (R61); every value not in the table is reserved. -/
def opOf (b : BitVec 8) : Option Op :=
  if b = 0x01 then some .keyexp
  else if b = 0x02 then some .tblgen
  else if b = 0x10 then some .encblk
  else if b = 0x11 then some .decblk
  else if b = 0x20 then some .enc
  else if b = 0x21 then some .dec
  else if b = 0x30 then some .gcmenc
  else if b = 0x31 then some .gcmdec
  else none

/-- The strategy a `STRAT` value names; 3 is reserved (R62). -/
def stratOf (b : BitVec 2) : Option Strategy :=
  if b = 0 then some .direct
  else if b = 1 then some .table
  else if b = 2 then some .batch
  else none

/-- The padding mode a `PAD` value names (R63). -/
def padOf (b : BitVec 1) : Padding :=
  if b = 0 then .none else .pkcs7

/-- The key-schedule prefix bit (R64). -/
def kxOf (b : BitVec 1) : Bool :=
  b = 1

/-- The combinations R66 lists, row by row; any other combination is illegal. -/
def combine : Op → Strategy → Padding → Bool → Option Instr
  | .keyexp, .direct, .none, false => some .keyexpD
  | .keyexp, .table, .none, false => some .keyexpT
  | .tblgen, .direct, .none, false => some .tblgen
  | .encblk, .direct, .none, kx => some (.encblkD kx)
  | .encblk, .table, .none, kx => some (.encblkT kx)
  | .encblk, .batch, .none, kx => some (.encblkB kx)
  | .decblk, .direct, .none, kx => some (.decblkD kx)
  | .decblk, .table, .none, kx => some (.decblkT kx)
  | .decblk, .batch, .none, kx => some (.decblkB kx)
  | .enc, .direct, pad, kx => some (.encD pad kx)
  | .enc, .table, pad, kx => some (.encT pad kx)
  | .enc, .batch, pad, kx => some (.encB pad kx)
  | .dec, .direct, pad, kx => some (.decD pad kx)
  | .dec, .table, pad, kx => some (.decT pad kx)
  | .dec, .batch, pad, kx => some (.decB pad kx)
  | .gcmenc, .direct, .none, kx => some (.gcmencD kx)
  | .gcmenc, .table, .none, kx => some (.gcmencT kx)
  | .gcmenc, .batch, .none, kx => some (.gcmencB kx)
  | .gcmdec, .direct, .none, kx => some (.gcmdecD kx)
  | .gcmdec, .table, .none, kx => some (.gcmdecT kx)
  | .gcmdec, .batch, .none, kx => some (.gcmdecB kx)
  | _, _, _, _ => none

/-- Decode a command word in the order of R68: `RSV`, then `OP`, then the combination. -/
def decode (w : Word) : Except DecodeError Instr :=
  let f := fieldsOf w
  if f.rsv ≠ 0 then .error .reservedBits
  else
    match opOf f.op with
    | none => .error .unknownOp
    | some op =>
      match stratOf f.strat with
      | none => .error .illegalCombination
      | some st =>
        match combine op st (padOf f.pad) (kxOf f.kx) with
        | none => .error .illegalCombination
        | some i => .ok i

/-- The instruction the decoder reads from the low `nbits` bits of `w` (the table gives 32). A command
word is a 32-bit register value: it has no byte order (R42). -/
def decodeTableWord (nbits w : Nat) : Option Instr :=
  match decode (BitVec.ofNat 32 (w % 2 ^ nbits)) with
  | .ok i => some i
  | .error _ => none

/-- The strategy of a command (R62); `TBLGEN` has `STRAT` 0. -/
def Instr.strategy : Instr → Strategy
  | .keyexpD | .tblgen | .encblkD _ | .decblkD _ | .encD _ _ | .decD _ _ | .gcmencD _ | .gcmdecD _ => .direct
  | .keyexpT | .encblkT _ | .decblkT _ | .encT _ _ | .decT _ _ | .gcmencT _ | .gcmdecT _ => .table
  | .encblkB _ | .decblkB _ | .encB _ _ | .decB _ _ | .gcmencB _ | .gcmdecB _ => .batch

/-- The operation of a command (R61). -/
def Instr.op : Instr → Op
  | .keyexpD | .keyexpT => .keyexp
  | .tblgen => .tblgen
  | .encblkD _ | .encblkT _ | .encblkB _ => .encblk
  | .decblkD _ | .decblkT _ | .decblkB _ => .decblk
  | .encD _ _ | .encT _ _ | .encB _ _ => .enc
  | .decD _ _ | .decT _ _ | .decB _ _ => .dec
  | .gcmencD _ | .gcmencT _ | .gcmencB _ => .gcmenc
  | .gcmdecD _ | .gcmdecT _ | .gcmdecB _ => .gcmdec

/-- The padding mode of a command; `none` where the row fixes `PAD` at 0 (R63). -/
def Instr.pad : Instr → Padding
  | .encD p _ | .encT p _ | .encB p _ | .decD p _ | .decT p _ | .decB p _ => p
  | .keyexpD | .keyexpT | .tblgen | .encblkD _ | .encblkT _ | .encblkB _ | .decblkD _ | .decblkT _ | .decblkB _
  | .gcmencD _ | .gcmencT _ | .gcmencB _ | .gcmdecD _ | .gcmdecT _ | .gcmdecB _ => .none

/-- The key-schedule prefix bit of a command; `false` where the row fixes `KX` at 0 (R64). -/
def Instr.kx : Instr → Bool
  | .keyexpD | .keyexpT | .tblgen => false
  | .encblkD k | .encblkT k | .encblkB k | .decblkD k | .decblkT k | .decblkB k
  | .encD _ k | .encT _ k | .encB _ k | .decD _ k | .decT _ k | .decB _ k
  | .gcmencD k | .gcmencT k | .gcmencB k | .gcmdecD k | .gcmdecT k | .gcmdecB k => k

/-- The `OP` value of an operation (R61). -/
def opcode : Op → BitVec 8
  | .keyexp => 0x01
  | .tblgen => 0x02
  | .encblk => 0x10
  | .decblk => 0x11
  | .enc => 0x20
  | .dec => 0x21
  | .gcmenc => 0x30
  | .gcmdec => 0x31

/-- The `STRAT` value of a strategy (R62). -/
def stratBits : Strategy → BitVec 2
  | .direct => 0
  | .table => 1
  | .batch => 2

/-- The `PAD` value of a padding mode (R63). -/
def padBit : Padding → BitVec 1
  | .none => 0
  | .pkcs7 => 1

/-- The word of a command: `OP | STRAT << 8 | PAD << 10 | KX << 11`, `RSV` 0 (R69). -/
def encode (i : Instr) : Word :=
  (opcode i.op).setWidth 32 ||| ((stratBits i.strategy).setWidth 32 <<< 8) |||
    ((padBit i.pad).setWidth 32 <<< 10) ||| ((BitVec.ofBool i.kx).setWidth 32 <<< 11)

end Sys2Proof
end

