-- ==== Sys2Proof/Machine/Bytes.lean ====
section
/-! DEFINITION. The notation of 00_scope.md section 4: rotations, bytes of a word, big-endian assembly, byte
strings and blocks (R41 to R44, R48). -/

namespace Sys2Proof.Machine

/-- `rotl32(x, n)` for `n < 32`. -/
def rotl32 (x : Word) (n : Nat) : Word :=
  (x <<< n) ||| (x >>> (32 - n))

/-- `rotr32(x, n) = rotl32(x, (32 - n) mod 32)`. -/
def rotr32 (x : Word) (n : Nat) : Word :=
  rotl32 x ((32 - n) % 32)

/-- `byte(w, j)`, counted from the most significant end, `j` in 0..3. -/
def byteOf (w : Word) (j : Nat) : Byte :=
  w.extractLsb' (24 - 8 * j) 8

/-- `be32(b0, b1, b2, b3)`. -/
def be32 (b0 b1 b2 b3 : Byte) : Word :=
  b0 ++ b1 ++ b2 ++ b3

/-- `be64(v)`: the 8-byte string of a 64-bit value, most significant byte first. -/
def be64 (v : BitVec 64) : List Byte :=
  (List.range 8).map fun i => v.extractLsb' (56 - 8 * i) 8

/-- `be128(s)`: the integer whose most significant byte is `s[0]`. -/
def be128 (s : List Byte) : Block :=
  s.foldl (fun acc b => (acc <<< 8) ||| b.setWidth 128) 0

/-- `bytes128(v)`: the 16 bytes of a block, most significant first. -/
def bytes128 (v : Block) : List Byte :=
  (List.range 16).map fun i => v.extractLsb' (120 - 8 * i) 8

/-- `zeros(n)`. -/
def zeros (n : Nat) : List Byte :=
  List.replicate n 0

/-- The four big-endian words of a block, in order (R41). -/
def wordsOfBlock (b : Block) : Quad :=
  ⟨b.extractLsb' 96 32, b.extractLsb' 64 32, b.extractLsb' 32 32, b.extractLsb' 0 32⟩

/-- The block whose four big-endian words are these, in order (R41). -/
def blockOfWords (q : Quad) : Block :=
  q.w0 ++ q.w1 ++ q.w2 ++ q.w3

/-- The first `n` blocks of a byte string: block `i` is `s[16i .. 16i+16)` (R48, R150). -/
def blocksOf : Nat → List Byte → List Block
  | 0, _ => []
  | n + 1, s => be128 (s.take 16) :: blocksOf n (s.drop 16)

/-- The concatenation of the bytes of blocks (R150). -/
def bytesOf (bs : List Block) : List Byte :=
  bs.flatMap bytes128

/-- The four register words of a 16-byte value such as a tag, word `j` from bytes `4j .. 4j+3` (R19, R42). -/
def tagWords (t : Block) : Vector Word 4 :=
  #v[t.extractLsb' 96 32, t.extractLsb' 64 32, t.extractLsb' 32 32, t.extractLsb' 0 32]

/-- The 16-byte value held by four register words (R19, R42). -/
def tagOfWords (v : Vector Word 4) : Block :=
  v[0] ++ v[1] ++ v[2] ++ v[3]

end Sys2Proof.Machine
end

