-- ==== Sys2Proof/Machine/Cipher.lean ====
section
/-! DEFINITION. The functions every command is built from: S-box, linear transforms, round, key schedule, one
block, the table form and the lock-step form (40_round_function.md to 44_batched.md). -/

namespace Sys2Proof.Machine

/-! ## Constants (R80, R89, R90) -/

/-- `SBOX`, one 16-byte row per high nibble, the row's first entry most significant (R80). -/
def sboxRows : Vector (BitVec 128) 16 :=
  #v[0xd690e9fecce13db716b614c228fb2c05, 0x2b679a762abe04c3aa44132649860699,
    0x9c4250f491ef987a33540b43edcfac62, 0xe4b31ca9c908e89580df94fa758f3fa6,
    0x4707a7fcf37317ba83593c19e6854fa8, 0x686b81b27164da8bf8eb0f4b70569d35,
    0x1e240e5e6358d1a225227c3b01217887, 0xd40046579fd327524c3602e7a0c4c89e,
    0xeabf8ad240c738b5a3f7f2cef96115a1, 0xe0ae5da49b341a55ad933230f58cb1e3,
    0x1df6e22e8266ca60c02923ab0d534e6f, 0xd5db3745defd8e2f03ff6a726d6c5b51,
    0x8d1baf92bbddbc7f11d95c411f105ad8, 0x0ac13188a5cd7bbd2d74d012b8e5b4b0,
    0x8969974a0c96777e65b9f109c56ec684, 0x18f07dec3adc4d2079ee5f3ed7cb3948]

/-- `FK[0..3]` (R89). -/
def fk : Quad :=
  ⟨0xA3B1BAC6, 0x56AA3350, 0x677D9197, 0xB27022DC⟩

/-- `CK[i]`: byte `j` is `((4i + j) * 7) mod 256` (R90). -/
def ck (i : Nat) : Word :=
  be32 (BitVec.ofNat 8 (28 * i)) (BitVec.ofNat 8 (28 * i + 7)) (BitVec.ofNat 8 (28 * i + 14))
    (BitVec.ofNat 8 (28 * i + 21))

/-! ## Substitution and transforms (R81 to R87) -/

/-- `Sbox(b) = SBOX[b]`: row the high nibble, column the low nibble (R80, R81). -/
def sbox (b : Byte) : Byte :=
  (sboxRows.get (b.extractLsb' 4 4).toFin).extractLsb' (120 - 8 * (b.extractLsb' 0 4).toNat) 8

/-- `tau(a)`: the S-box on each byte (R82). -/
def tau (a : Word) : Word :=
  be32 (sbox (byteOf a 0)) (sbox (byteOf a 1)) (sbox (byteOf a 2)) (sbox (byteOf a 3))

/-- `L(b)`, the data-path linear transform (R83). -/
def linL (b : Word) : Word :=
  b ^^^ rotl32 b 2 ^^^ rotl32 b 10 ^^^ rotl32 b 18 ^^^ rotl32 b 24

/-- `Lk(b)`, the key-schedule linear transform, the source's `L'` (R84). -/
def linLk (b : Word) : Word :=
  b ^^^ rotl32 b 13 ^^^ rotl32 b 23

/-- `T(a) = L(tau(a))` (R85). -/
def transT (a : Word) : Word :=
  linL (tau a)

/-- `Tk(a) = Lk(tau(a))` (R86). -/
def transTk (a : Word) : Word :=
  linLk (tau a)

/-- `F(X0, X1, X2, X3, rk) = X0 ^ T(X1 ^ X2 ^ X3 ^ rk)`, with `T` as the strategy computes it (R87). -/
def roundF (t : Word → Word) (x : Quad) (rk : Word) : Word :=
  x.w0 ^^^ t (x.w1 ^^^ x.w2 ^^^ x.w3 ^^^ rk)

/-- Discard the oldest word, append the new one (R14, R112). -/
def shiftIn (x : Quad) (new : Word) : Quad :=
  ⟨x.w1, x.w2, x.w3, new⟩

/-! ## Key schedule (R101, R102, R107) -/

/-- `K[j] <- MK[j] ^ FK[j]` (R101). -/
def keyInit (key : Block) : Quad :=
  let mk := wordsOfBlock key
  ⟨mk.w0 ^^^ fk.w0, mk.w1 ^^^ fk.w1, mk.w2 ^^^ fk.w2, mk.w3 ^^^ fk.w3⟩

/-- `n` iterations of R102 from iteration `i` on the sliding register, with `Tk` as the strategy computes it. -/
def keyRounds (tk : Word → Word) : Nat → Nat → Quad → List Word
  | 0, _, _ => []
  | n + 1, i, k =>
    let new := roundF tk k (ck i)
    new :: keyRounds tk n (i + 1) (shiftIn k new)

theorem keyRounds_length (tk : Word → Word) (n i : Nat) (k : Quad) : (keyRounds tk n i k).length = n := by
  induction n generalizing i k with
  | zero => rfl
  | succ n ih => simp [keyRounds, ih]

/-- `KeySchedule(key)`: the 32 subkeys (R102). -/
def keySchedule (tk : Word → Word) (key : Block) : Vector Word 32 :=
  ⟨(keyRounds tk 32 0 (keyInit key)).toArray, by simp [keyRounds_length]⟩

/-! ## One block (R110 to R113) -/

/-- The subkeys in the order the direction consumes them (R112). -/
def subkeys (rk : Vector Word 32) : Direction → List Word
  | .enc => rk.toList
  | .dec => rk.toList.reverse

/-- One round: the new word is `F`, the register shifts (R110, R112). -/
def cryptRound (t : Word → Word) (x : Quad) (k : Word) : Quad :=
  shiftIn x (roundF t x k)

/-- The output block: the final words in reverse order (R113). -/
def outputBlock (x : Quad) : Block :=
  blockOfWords ⟨x.w3, x.w2, x.w1, x.w0⟩

/-- `Crypt(rk, B, dir)` with `T` as the strategy computes it (R110). -/
def crypt (t : Word → Word) (rk : Vector Word 32) (dir : Direction) (b : Block) : Block :=
  outputBlock ((subkeys rk dir).foldl (cryptRound t) (wordsOfBlock b))

/-! ## The acceleration tables (R125 to R130) -/

/-- The contents of `TBL_D`: entry `b` is `L(zext_32(Sbox(b)) << 24)` (R125). -/
def tableD : Vector Word 256 :=
  Vector.ofFn fun b => linL ((sbox (BitVec.ofFin b)).setWidth 32 <<< 24)

/-- The contents of `TBL_K`: entry `b` is `Lk(zext_32(Sbox(b)) << 24)` (R126). -/
def tableK : Vector Word 256 :=
  Vector.ofFn fun b => linLk ((sbox (BitVec.ofFin b)).setWidth 32 <<< 24)

/-- `T_tab(a)` (R129) and, from the other table, `Tk_tab(a)` (R130). -/
def tabLookup (tbl : Vector Word 256) (a : Word) : Word :=
  tbl.get (byteOf a 0).toFin ^^^ rotr32 (tbl.get (byteOf a 1).toFin) 8 ^^^
    rotr32 (tbl.get (byteOf a 2).toFin) 16 ^^^ rotr32 (tbl.get (byteOf a 3).toFin) 24

/-! ## Lock-step evaluation (R140 to R144) -/

/-- One group of lanes through all the rounds: every round applies one subkey to every lane (R141). -/
def lockStep (t : Word → Word) (keys : List Word) (lanes : List Quad) : List Quad :=
  keys.foldl (fun xs k => xs.map fun x => cryptRound t x k) lanes

/-- Groups of at most `lanes` blocks, each through all the rounds, in ascending order (R144). DESIGN CHOICE
(log 15): the order of groups, which nothing can observe. `fuel` bounds the number of groups. -/
def cryptGroups (t : Word → Word) (keys : List Word) (lanes : Nat) : Nat → List Block → List Block
  | 0, _ => []
  | _ + 1, [] => []
  | fuel + 1, b :: bs =>
    (lockStep t keys (((b :: bs).take lanes).map wordsOfBlock)).map outputBlock ++
      cryptGroups t keys lanes fuel ((b :: bs).drop lanes)

/-- `CryptBatch(rk, [B_0 .. B_{N-1}], dir)` (R141) on `lanes` physical lanes, at least one (R7, R144). -/
def cryptBatch (t : Word → Word) (rk : Vector Word 32) (dir : Direction) (lanes : Nat) (bs : List Block) :
    List Block :=
  cryptGroups t (subkeys rk dir) (max 1 lanes) bs.length bs

end Sys2Proof.Machine
end

