-- ==== Sys2Proof/Machine/State.lean ====
section
/-! DEFINITION. The state of CORE as plain data (R10 to R27), the reasons a step can stop, and the state after
reset (R27, R231). -/

namespace Sys2Proof.Machine

/-- The error code of a command, field `STATUS.ERR` (R201). The values 8 to 15 are never produced (U15). -/
inductive Err where
  | noError
  | invalidKeyLength
  | invalidCiphertextLength
  | invalidPadding
  | authenticationFailed
  | illegalCommand
  | keyNotLoaded
  | lengthRange
deriving DecidableEq, Repr

/-- The phase of a multi-phase command, named by the phases 0 to 5 of R180. -/
inductive Phase where
  | keyPrefix
  | hashSubkey
  | initialCounter
  | ghash
  | compare
  | ctr
deriving DecidableEq, Repr

/-- The working state (R10 (c), R14, R15, R17, R18, R25), alive only while a command runs. -/
structure Work where
  /-- `X[lane][0..3]`, one four-word register per lane (R14, R140). -/
  x : List Quad
  /-- `K[0..3]` (R15). -/
  k : Quad
  /-- `RND`, the rounds already applied (R17). -/
  rnd : Nat
  /-- `BLK`, the block being processed (R17). -/
  blk : Nat
  /-- The phase (R17, R180). -/
  phase : Phase
  /-- `H`, the hash subkey (R18). -/
  h : Block
  /-- `J0`, the initial counter block (R18). -/
  j0 : Block
  /-- `CB`, the running counter block (R18). -/
  cb : Block
  /-- `Y`, the GHASH accumulator (R18). -/
  y : Block
  /-- The recomputed tag of `GCMDEC` (R25). -/
  tag : Block
deriving DecidableEq, Repr

/-- The working state at reset and after every completion: all 0 (R25, R27). `X` is then the one register
that exists in every strategy. DESIGN CHOICE (log 14): phase 0 and a zero tag, which the spec does not state. -/
def Work.zero : Work where
  x := [⟨0, 0, 0, 0⟩]
  k := ⟨0, 0, 0, 0⟩
  rnd := 0
  blk := 0
  phase := .keyPrefix
  h := 0
  j0 := 0
  cb := 0
  y := 0
  tag := 0

/-- The bytes of one buffer that have been written since reset: (index, byte) pairs, indexes strictly
rising (R24). -/
abbrev Memory := List Host.Cell

/-- The state of CORE and of its host port. -/
structure State where
  /-- The configuration record (R7), constant. The model's own field (log 1). -/
  cfg : Config
  /-- `STATUS.BUSY` (R21). -/
  busy : Bool
  /-- `STATUS.DONE` (R21). -/
  done : Bool
  /-- `STATUS.ERR` (R21, R201). -/
  err : Err
  /-- `RK_VALID` (R13). -/
  rkValid : Bool
  /-- `TBL_VALID` (R16). -/
  tblValid : Bool
  /-- `CMDW`, the latched command word (R17, R20). -/
  cmdw : Word
  /-- `KEY_LEN` (R22). -/
  keyLen : Word
  /-- `IV_LEN` (R22). -/
  ivLen : Word
  /-- `AAD_LEN` (R22). -/
  aadLen : Word
  /-- `IN_LEN` (R22). -/
  inLen : Word
  /-- `OUT_LEN` (R22). -/
  outLen : Word
  /-- `TAG_IN[0..3]` (R19). -/
  tagIn : Vector Word 4
  /-- `TAG_OUT[0..3]` (R19). -/
  tagOut : Vector Word 4
  /-- Has `GCMENC` succeeded since reset? Until then `TAG_OUT` reads as a free value (R27). The model's own
  field (log 8). -/
  tagOutWritten : Bool
  /-- `RK[0..31]` (R12). -/
  rk : Vector Word 32
  /-- `TBL_D[0..255]` (R16). -/
  tblD : Vector Word 256
  /-- `TBL_K[0..255]` (R16). -/
  tblK : Vector Word 256
  /-- `KEYBUF` (R24). -/
  keyBuf : Memory
  /-- `IVBUF` (R24). -/
  ivBuf : Memory
  /-- `AADBUF` (R24). -/
  aadBuf : Memory
  /-- `INBUF` (R24). -/
  inBuf : Memory
  /-- `OUTBUF` (R24). -/
  outBuf : Memory
  /-- The working state (R10 (c)). -/
  work : Work
  /-- What the host and the reset input will do, in arrival order (R49). The model's own field (log 2). -/
  inputs : List Input
  /-- What the host port has returned, newest first. The model's own field (log 2). -/
  responses : List PortData
  /-- Host steps still to come before the running command completes (R243, U19). The model's own field
  (log 3). -/
  delay : Nat
  /-- How many fresh free values have been drawn. The model's own field (log 10). -/
  fresh : Nat
  /-- How many resets there have been since the first; the free reset contents depend on it. The model's own
  field (log 6). -/
  epoch : Nat
deriving DecidableEq, Repr

/-- The machine never faults: the spec has no trap, and an error is a completed command with a non-zero `ERR`
(R200); no behaviour is stuck (93_implementation_defined.md). Nobody raises a fault, so the type is empty: safe. -/
inductive Fault
deriving DecidableEq, Repr

/-- What the spec calls undefined and gives no effect (R45, U17: "a model refuses it"). -/
inductive Refusal where
  /-- Raised by an arm of `exec` for an instruction without a meaning; no arm raises it now. Safe: the run stops. -/
  | notModelled (mnemonic : String)
  /-- Raised by a host access to the register block that is not an aligned 32-bit word at an offset up to 0x0FC
  (R45, U17). Safe: the run stops where the spec defines nothing. -/
  | undefinedRegisterAccess (width offset : Nat)
  /-- Raised by a host access to a buffer that is wider than a byte or beyond its capacity (R45, U17). Safe: the
  run stops where the spec defines nothing. -/
  | undefinedBufferAccess (buffer : Buffer) (width index : Nat)
deriving DecidableEq, Repr

/-- The state after reset (R27, R231). The spec leaves `RK`, the tables, `TAG_OUT` and all buffers unspecified:
DESIGN CHOICE (logs 6 to 9): the registers store 0 and are not read as such, the buffers list nothing. -/
def State.reset : State where
  cfg := Config.standard
  busy := false
  done := false
  err := .noError
  rkValid := false
  tblValid := false
  cmdw := 0
  keyLen := 0
  ivLen := 0
  aadLen := 0
  inLen := 0
  outLen := 0
  tagIn := Vector.replicate 4 0
  tagOut := Vector.replicate 4 0
  tagOutWritten := false
  rk := Vector.replicate 32 0
  tblD := Vector.replicate 256 0
  tblK := Vector.replicate 256 0
  keyBuf := []
  ivBuf := []
  aadBuf := []
  inBuf := []
  outBuf := []
  work := Work.zero
  inputs := []
  responses := []
  delay := 0
  fresh := 0
  epoch := 0

end Sys2Proof.Machine
end

