-- ==== Sys2Proof/Machine/Ops.lean ====
section
/-! DEFINITION. The named operations over the state: buffer memory, buffers, register updates, starting a
command, and the one shared end of every command, the abort procedure among them (R210, R211). -/

namespace Sys2Proof.Machine

/-! ## Buffer memory -/

/-- What an unlisted index holds: no value of its own. A byte nothing has written reads as the free value
`Config.resetByte` (`State.byteAt`; R27, log 6). -/
def Memory.unlisted : Option Byte :=
  none

/-- The byte listed at an index. -/
def Memory.read : Memory → Nat → Option Byte
  | [], _ => Memory.unlisted
  | (b, v) :: rest, a => if a = b then some v else Memory.read rest a

/-- Store a byte, keeping the list in index order. -/
def Memory.write : Memory → Nat → Byte → Memory
  | [], a, v => [(a, v)]
  | (b, w) :: rest, a, v =>
    if a < b then (a, v) :: (b, w) :: rest
    else if a = b then (a, v) :: rest
    else (b, w) :: Memory.write rest a v

/-- `MemWrite(buf, i, n, v)`: store a byte string from index `i` on. -/
def Memory.writeBytes : Memory → Nat → List Byte → Memory
  | m, _, [] => m
  | m, i, v :: vs => Memory.writeBytes (Memory.write m i v) (i + 1) vs

/-- The canonical form: indexes strictly rising, and no entry equal to what an unlisted index holds. -/
abbrev Memory.wf (m : Memory) : Prop :=
  m.Pairwise (fun c d => c.1 < d.1) ∧ ∀ c ∈ m, some c.2 ≠ Memory.unlisted

/-! ## Buffers and their bytes (R24) -/

/-- The contents of a buffer. -/
def State.buffer (s : State) : Buffer → Memory
  | .keyBuf => s.keyBuf
  | .ivBuf => s.ivBuf
  | .aadBuf => s.aadBuf
  | .inBuf => s.inBuf
  | .outBuf => s.outBuf

/-- Replace the contents of a buffer. -/
def State.setBuffer (s : State) (b : Buffer) (m : Memory) : State :=
  match b with
  | .keyBuf => { s with keyBuf := m }
  | .ivBuf => { s with ivBuf := m }
  | .aadBuf => { s with aadBuf := m }
  | .inBuf => { s with inBuf := m }
  | .outBuf => { s with outBuf := m }

/-- The byte a buffer holds at an index; a free value where nothing has been written since reset (R27, R233). -/
def State.byteAt (s : State) (b : Buffer) (i : Nat) : Byte :=
  match Memory.read (s.buffer b) i with
  | some v => v
  | none => Config.resetByte s.epoch b i

/-- `MemRead(buf, 0, n)`. -/
def State.readBytes (s : State) (b : Buffer) (n : Nat) : List Byte :=
  (List.range n).map (s.byteAt b)

/-- `MemWrite(OUTBUF, 0, len(v), v)`: the engine writes no other buffer (R24, R48). -/
def State.writeOut (s : State) (v : List Byte) : State :=
  { s with outBuf := Memory.writeBytes s.outBuf 0 v }

/-! ## Register and table updates -/

/-- Commit all 32 subkeys and `RK_VALID` in one step (R103). -/
def State.loadRk (s : State) (rk : Vector Word 32) : State :=
  { s with rk := rk, rkValid := true }

/-- The table build: both tables and `TBL_VALID` (R127). -/
def State.buildTables (s : State) : State :=
  { s with tblD := tableD, tblK := tableK, tblValid := true }

/-- Write `TAG_OUT[0..3]` (R19, R179). -/
def State.setTagOut (s : State) (t : Vector Word 4) : State :=
  { s with tagOut := t, tagOutWritten := true }

/-- Record what the host port returned. -/
def State.respond (s : State) (d : PortData) : State :=
  { s with responses := d :: s.responses }

/-! ## Starting and ending a command -/

/-- The engine's `start` (R211, R243): latch `CMDW`, `BUSY <- 1`, `DONE <- 0`, `ERR <- 0`. `delay` is the number
of host steps that will fall into the busy window. -/
def State.latch (s : State) (w : Word) (delay : Nat) : State :=
  { s with cmdw := w, busy := true, done := false, err := .noError, delay := delay }

/-- An accepted `CMD` write (R20). How long the command takes is a free value (R240, U19; log 3). -/
def State.accept (s : State) (w : Word) : State :=
  { s.latch w (Config.freeDelay s.fresh) with fresh := s.fresh + 1 }

/-- The end of every command (R21, R25, R210): `OUT_LEN`, `ERR`, `DONE <- 1`, `BUSY <- 0`, and the working state
with `CMDW` cleared to 0 (log 13). -/
def State.settle (s : State) (e : Err) (outLen : Word) : State :=
  { s with outLen := outLen, err := e, done := true, busy := false, cmdw := 0, work := Work.zero, delay := 0 }

/-- The abort procedure, `raise e` (R210): CORE's one way to report a failure, in place of an exception (R200).
It is left by the next accepted `CMD` write, `State.accept` (R211). -/
def State.abort (s : State) (e : Err) : State :=
  s.settle e 0

/-! ## Reset (R230 to R232) -/

/-- The reset input: the state of R231, whatever was running (R232). What lies outside the block stays: the
configuration, the host's further inputs, what it has read, the count of free values drawn; the count of resets
rises, so that the unspecified contents are drawn anew (log 23). -/
def State.resetInput (s : State) : State :=
  { State.reset with
    cfg := s.cfg, inputs := s.inputs, responses := s.responses, fresh := s.fresh, epoch := s.epoch + 1 }

end Sys2Proof.Machine
end

