-- ==== Sys2Proof/Machine/Operands.lean ====
section
/-! DEFINITION. The fixed operands of the commands (R72): byte strings with their lengths, the key block, the
supplied tag, the subkeys and transforms a strategy uses, and the length checks (R54, R208). -/

namespace Sys2Proof.Machine

/-- The capacity of a buffer in bytes (R7, R24). -/
def capacity (c : Config) : Buffer → Nat
  | .keyBuf => c.keyCap
  | .ivBuf => c.ivCap
  | .aadBuf => c.aadCap
  | .inBuf => c.inCap
  | .outBuf => c.outCap

/-- The length register of a buffer (R22). -/
def State.lengthReg (s : State) : Buffer → Word
  | .keyBuf => s.keyLen
  | .ivBuf => s.ivLen
  | .aadBuf => s.aadLen
  | .inBuf => s.inLen
  | .outBuf => s.outLen

/-- The byte string a buffer and its length register pass: `buf[0 .. LEN)` (R22, R72). -/
def State.operand (s : State) (b : Buffer) : List Byte :=
  s.readBytes b (s.lengthReg b).toNat

/-- Is the length register at most the buffer's capacity (R54, R208)? -/
def State.fits (s : State) (b : Buffer) : Bool :=
  (s.lengthReg b).toNat ≤ capacity s.cfg b

/-- Would `n` output bytes fit `OUTBUF` (R54)? Never false once the inputs fit, by R7. -/
def State.outFits (s : State) (n : Nat) : Bool :=
  n ≤ s.cfg.outCap

/-- The key: `MemRead(KEYBUF, 0, 16)` as a block (R101). -/
def State.keyBlock (s : State) : Block :=
  be128 (s.readBytes .keyBuf 16)

/-- The supplied tag `T_in`: the bytes of `TAG_IN[0..3]` in order (R180). -/
def State.tagInBlock (s : State) : Block :=
  tagOfWords s.tagIn

/-- `T` as a strategy computes it: from `TBL_D` under TABLE, directly otherwise (R87, R132, R141). -/
def State.roundT (s : State) : Strategy → Word → Word
  | .direct, a => transT a
  | .table, a => tabLookup s.tblD a
  | .batch, a => transT a

/-- `Tk` as a strategy computes it: from `TBL_K` under TABLE, directly otherwise (R106). -/
def State.keyT (s : State) : Strategy → Word → Word
  | .direct, a => transTk a
  | .table, a => tabLookup s.tblK a
  | .batch, a => transTk a

/-- The blocks of a command through the cipher under a strategy: one after another, or in lock-step lanes
(R118, R146, R150). -/
def State.cryptBlocks (s : State) (st : Strategy) (dir : Direction) (bs : List Block) : List Block :=
  match st with
  | .direct => bs.map (crypt (s.roundT .direct) s.rk dir)
  | .table => bs.map (crypt (s.roundT .table) s.rk dir)
  | .batch => cryptBatch (s.roundT .batch) s.rk dir s.cfg.lanes bs

/-- `E(B)`: one block encrypted under a strategy, a batch of one under BATCH (R146, R170). -/
def State.encryptOne (s : State) (st : Strategy) (b : Block) : Block :=
  (s.cryptBlocks st .enc [b]).headD 0

end Sys2Proof.Machine
end

