-- ==== Sys2Proof/Machine/Command.lean ====
section
/-! DEFINITION. The frame every command runs in (R209): lazy table build, key prefix, the command's own checks
and computation, then commit or abort. -/

namespace Sys2Proof.Machine

/-- What a successful command outputs: the bytes for `OUTBUF` and, for `GCMENC`, the tag (R72). -/
structure Result where
  out : List Byte
  tag : Option Block
deriving DecidableEq, Repr

/-- Step 2 of R209: a TABLE command that finds `TBL_VALID = 0` builds the tables first (R128). -/
def lazyTables (st : Strategy) (s : State) : State :=
  match st with
  | .table => if s.tblValid then s else s.buildTables
  | .direct => s
  | .batch => s

/-- The key schedule on `KEYBUF`: `KEY_LEN` must be 16, then all of `RK` is committed (R100, R103, R104). -/
def loadKey (st : Strategy) (s : State) : Except Err State :=
  if s.keyLen ≠ 16 then .error .invalidKeyLength
  else .ok (s.loadRk (keySchedule (s.keyT st) s.keyBlock))

/-- `KeyPrefix()` (R105). -/
def keyPrefix (st : Strategy) (kx : Bool) (s : State) : Except Err State :=
  if kx then loadKey st s
  else if s.rkValid then .ok s
  else .error .keyNotLoaded

/-- Commit a result (R47): `OUTBUF`, `TAG_OUT` if there is a tag, `OUT_LEN`, and the end of the command. -/
def commit (r : Result) (s : State) : State :=
  let s1 := s.writeOut r.out
  let s2 := match r.tag with
    | none => s1
    | some t => s1.setTagOut (tagWords t)
  s2.settle .noError (BitVec.ofNat 32 r.out.length)

/-- A data command in the order of R209. `body` makes the checks of steps 4 to 6 and computes the result from
the state after the prefix; what the prefix committed is kept whatever follows (R105, R210). -/
def runData (st : Strategy) (kx : Bool) (body : State → Except Err Result) (s : State) : State :=
  let s1 := lazyTables st s
  match keyPrefix st kx s1 with
  | .error e => s1.abort e
  | .ok s2 =>
    match body s2 with
    | .error e => s2.abort e
    | .ok r => commit r s2

end Sys2Proof.Machine
end

