-- ==== Sys2Proof/Machine/BlockCommands.lean ====
section
/-! DEFINITION. `ENCBLK` and `DECBLK` under the three strategies (42_cipher_core.md, 43_table_accel.md,
44_batched.md). -/

namespace Sys2Proof.Machine

/-- The length check of the block commands (R116, R142, R208): exactly one block under DIRECT and TABLE, a
multiple of 16 under BATCH, and within capacity. -/
def blockLengthOk (st : Strategy) (s : State) : Bool :=
  s.fits .inBuf && s.outFits s.inLen.toNat &&
    match st with
    | .direct => s.inLen = 16
    | .table => s.inLen = 16
    | .batch => s.inLen.toNat % 16 = 0

/-- The body of `ENCBLK` and `DECBLK`: every block of `INBUF[0..IN_LEN)` (R114, R115, R132, R142). -/
def blockBody (st : Strategy) (dir : Direction) (s : State) : Except Err Result :=
  if blockLengthOk st s then
    .ok ⟨bytesOf (s.cryptBlocks st dir (blocksOf (s.inLen.toNat / 16) (s.operand .inBuf))), none⟩
  else .error .lengthRange

/-- `ENCBLK.D` (R114). -/
def execEncblkD (kx : Bool) (s : State) : Host.Outcome State Fault Refusal :=
  .next (runData .direct kx (blockBody .direct .enc) s)

/-- `ENCBLK.T` (R132). -/
def execEncblkT (kx : Bool) (s : State) : Host.Outcome State Fault Refusal :=
  .next (runData .table kx (blockBody .table .enc) s)

/-- `ENCBLK.B` (R142). -/
def execEncblkB (kx : Bool) (s : State) : Host.Outcome State Fault Refusal :=
  .next (runData .batch kx (blockBody .batch .enc) s)

/-- `DECBLK.D` (R115). -/
def execDecblkD (kx : Bool) (s : State) : Host.Outcome State Fault Refusal :=
  .next (runData .direct kx (blockBody .direct .dec) s)

/-- `DECBLK.T` (R132). -/
def execDecblkT (kx : Bool) (s : State) : Host.Outcome State Fault Refusal :=
  .next (runData .table kx (blockBody .table .dec) s)

/-- `DECBLK.B` (R142). -/
def execDecblkB (kx : Bool) (s : State) : Host.Outcome State Fault Refusal :=
  .next (runData .batch kx (blockBody .batch .dec) s)

end Sys2Proof.Machine
end

