-- ==== Sys2Proof/Machine/Ghash.lean ====
section
/-! DEFINITION. The GHASH multiplier and accumulator, the initial counter block and the counter (46_gcm.md
sections 1 and 2). -/

namespace Sys2Proof.Machine

/-- The reduction constant `R` (R165). -/
def reduction : Block :=
  0xE1000000000000000000000000000000

/-- Multiplication of a field element by x: shift right, reduce when the coefficient of x^127 was set (R166). -/
def mulX (v : Block) : Block :=
  if v.getLsbD 0 then (v >>> 1) ^^^ reduction else v >>> 1

/-- The iterations of R166 that still look at bits `n - 1 .. 0` of `x`. -/
def gfLoop : Nat → Block → Block → Block → Block
  | 0, _, _, z => z
  | n + 1, x, v, z => gfLoop n x (mulX v) (if x.getLsbD n then z ^^^ v else z)

/-- `gf_mul(x, y)` (R166). -/
def gfMul (x y : Block) : Block :=
  gfLoop 128 x y 0

/-- `GHASH(h, s)` (R167). -/
def ghash (h : Block) (s : List Byte) : Block :=
  (blocksOf (s.length / 16) s).foldl (fun y b => gfMul (y ^^^ b) h) 0

/-- `zpad(s)` (R168). -/
def zpad (s : List Byte) : List Byte :=
  s ++ zeros ((16 - s.length % 16) % 16)

/-- `be64(8 * n)`, the bit length of an `n`-byte string (R169). -/
def bitLength (n : Nat) : List Byte :=
  be64 (BitVec.ofNat 64 (8 * n))

/-- `J0` from the nonce (R171, R172, R187). -/
def initialCounter (h : Block) (iv : List Byte) : Block :=
  if iv.length = 12 then be128 (iv ++ [0x00, 0x00, 0x00, 0x01])
  else ghash h (zpad iv ++ zeros 8 ++ bitLength iv.length)

/-- `inc32(cb)` (R173). -/
def inc32 (cb : Block) : Block :=
  (cb &&& ~~~0xFFFFFFFF#128) ||| ((cb + 1) &&& 0xFFFFFFFF#128)

/-- `CB_1 .. CB_n`, given `CB_0` (R174). -/
def counterBlocks : Nat → Block → List Block
  | 0, _ => []
  | n + 1, cb => inc32 cb :: counterBlocks n (inc32 cb)

/-- `S`, the GHASH of the authenticated string (R177). -/
def authHash (h : Block) (aad ct : List Byte) : Block :=
  ghash h (zpad aad ++ zpad ct ++ bitLength aad.length ++ bitLength ct.length)

end Sys2Proof.Machine
end

