-- ==== Sys2Proof/Machine/Gcm.lean ====
section
/-! DEFINITION. `GCMENC` and `GCMDEC` under the three strategies (46_gcm.md). -/

namespace Sys2Proof.Machine

/-- The capacity checks of the GCM commands (R179, R180, R208). -/
def gcmLengthsOk (s : State) : Bool :=
  s.fits .ivBuf && s.fits .aadBuf && s.fits .inBuf && s.outFits s.inLen.toNat

/-- `H = E(0)` (R170), computed afresh by every command (R183). -/
def State.hashSubkey (s : State) (st : Strategy) : Block :=
  s.encryptOne st 0

/-- `J0` of the nonce operand (R171, R172). -/
def State.counter0 (s : State) (st : Strategy) : Block :=
  initialCounter (s.hashSubkey st) (s.operand .ivBuf)

/-- `GCTR(J0, D)` (R175, R176): the keystream blocks of the pre-assigned counters (R185), XORed bytewise; of the
last keystream block the leading bytes are used. -/
def State.gctr (s : State) (st : Strategy) (d : List Byte) : List Byte :=
  List.zipWith (· ^^^ ·) d
    (bytesOf (s.cryptBlocks st .enc (counterBlocks ((d.length + 15) / 16) (s.counter0 st))))

/-- `TAG = S ^ E(J0)` over the AAD operand and a ciphertext (R177, R178). -/
def State.gcmTag (s : State) (st : Strategy) (ct : List Byte) : Block :=
  authHash (s.hashSubkey st) (s.operand .aadBuf) ct ^^^ s.encryptOne st (s.counter0 st)

/-- The body of `GCMENC` (R179). -/
def gcmencBody (st : Strategy) (s : State) : Except Err Result :=
  if gcmLengthsOk s then
    let c := s.gctr st (s.operand .inBuf)
    .ok ⟨c, some (s.gcmTag st c)⟩
  else .error .lengthRange

/-- The body of `GCMDEC` (R180): the tag is recomputed from the ciphertext and compared before anything is
decrypted (R181, R182). -/
def gcmdecBody (st : Strategy) (s : State) : Except Err Result :=
  if gcmLengthsOk s then
    if s.gcmTag st (s.operand .inBuf) = s.tagInBlock then .ok ⟨s.gctr st (s.operand .inBuf), none⟩
    else .error .authenticationFailed
  else .error .lengthRange

/-- `GCMENC.D` (R179). -/
def execGcmencD (kx : Bool) (s : State) : Host.Outcome State Fault Refusal :=
  .next (runData .direct kx (gcmencBody .direct) s)

/-- `GCMENC.T` (R133, R179). -/
def execGcmencT (kx : Bool) (s : State) : Host.Outcome State Fault Refusal :=
  .next (runData .table kx (gcmencBody .table) s)

/-- `GCMENC.B` (R179, R185). -/
def execGcmencB (kx : Bool) (s : State) : Host.Outcome State Fault Refusal :=
  .next (runData .batch kx (gcmencBody .batch) s)

/-- `GCMDEC.D` (R180). -/
def execGcmdecD (kx : Bool) (s : State) : Host.Outcome State Fault Refusal :=
  .next (runData .direct kx (gcmdecBody .direct) s)

/-- `GCMDEC.T` (R133, R180). -/
def execGcmdecT (kx : Bool) (s : State) : Host.Outcome State Fault Refusal :=
  .next (runData .table kx (gcmdecBody .table) s)

/-- `GCMDEC.B` (R180, R185). -/
def execGcmdecB (kx : Bool) (s : State) : Host.Outcome State Fault Refusal :=
  .next (runData .batch kx (gcmdecBody .batch) s)

end Sys2Proof.Machine
end

