-- ==== Sys2Proof/Machine/KeyExp.lean ====
section
/-! DEFINITION. `KEYEXP.D` and `KEYEXP.T` (41_key_schedule.md). -/

namespace Sys2Proof.Machine

/-- `KEYEXP` under a strategy: steps 1 to 3 of R209, no data output (R100, R104). -/
def keyexp (st : Strategy) (s : State) : State :=
  let s1 := lazyTables st s
  match loadKey st s1 with
  | .error e => s1.abort e
  | .ok s2 => s2.settle .noError 0

/-- `KEYEXP.D` (R100). -/
def execKeyexpD (s : State) : Host.Outcome State Fault Refusal :=
  .next (keyexp .direct s)

/-- `KEYEXP.T`: `Tk` from `TBL_K`, the tables built first if need be (R100, R106, R128). -/
def execKeyexpT (s : State) : Host.Outcome State Fault Refusal :=
  .next (keyexp .table s)

end Sys2Proof.Machine
end

