-- ==== Sys2Proof/Machine/Padding.lean ====
section
/-! DEFINITION. Byte padding (45_padding_chunking.md section 1). -/

namespace Sys2Proof.Machine

/-- `Pad(M)` (R151). -/
def pad (m : List Byte) : List Byte :=
  let lp := 16 - m.length % 16
  m ++ List.replicate lp (BitVec.ofNat 8 lp)

/-- `Unpad(P)`, `none` for `raise InvalidPadding` (R152; the empty string has no last byte, R157). -/
def unpad (p : List Byte) : Option (List Byte) :=
  match p.getLast? with
  | none => none
  | some last =>
    let lp := last.toNat
    if lp = 0 ∨ 16 < lp then none
    else if p.drop (p.length - lp) = List.replicate lp last then some (p.take (p.length - lp))
    else none

end Sys2Proof.Machine
end

