-- ==== Sys2Proof/Machine/Message.lean ====
section
/-! DEFINITION. `ENC` and `DEC` under the three strategies (45_padding_chunking.md). -/

namespace Sys2Proof.Machine

/-- The message `ENC` chunks: padded, or as it is when its length is aligned (R153, R156). -/
def encMessage (p : Padding) (m : List Byte) : Except Err (List Byte) :=
  match p with
  | .pkcs7 => .ok (pad m)
  | .none => if m.length % 16 = 0 then .ok m else .error .lengthRange

/-- The body of `ENC` (R153). -/
def encBody (st : Strategy) (p : Padding) (s : State) : Except Err Result :=
  if s.fits .inBuf then
    match encMessage p (s.operand .inBuf) with
    | .error e => .error e
    | .ok m =>
      if s.outFits m.length then .ok ⟨bytesOf (s.cryptBlocks st .enc (blocksOf (m.length / 16) m)), none⟩
      else .error .lengthRange
  else .error .lengthRange

/-- What `DEC` makes of the decrypted blocks: the message without its pad, or all of it (R154). -/
def decMessage (p : Padding) (m : List Byte) : Except Err (List Byte) :=
  match p with
  | .none => .ok m
  | .pkcs7 =>
    match unpad m with
    | none => .error .invalidPadding
    | some v => .ok v

/-- The body of `DEC` (R154): capacity, then alignment in both padding modes (R155), then the pad. -/
def decBody (st : Strategy) (p : Padding) (s : State) : Except Err Result :=
  if s.fits .inBuf && s.outFits s.inLen.toNat then
    if s.inLen.toNat % 16 = 0 then
      match decMessage p (bytesOf (s.cryptBlocks st .dec (blocksOf (s.inLen.toNat / 16) (s.operand .inBuf)))) with
      | .error e => .error e
      | .ok m => .ok ⟨m, none⟩
    else .error .invalidCiphertextLength
  else .error .lengthRange

/-- `ENC.D` (R153). -/
def execEncD (p : Padding) (kx : Bool) (s : State) : Host.Outcome State Fault Refusal :=
  .next (runData .direct kx (encBody .direct p) s)

/-- `ENC.T` (R133, R153). -/
def execEncT (p : Padding) (kx : Bool) (s : State) : Host.Outcome State Fault Refusal :=
  .next (runData .table kx (encBody .table p) s)

/-- `ENC.B` (R146, R153). -/
def execEncB (p : Padding) (kx : Bool) (s : State) : Host.Outcome State Fault Refusal :=
  .next (runData .batch kx (encBody .batch p) s)

/-- `DEC.D` (R154). -/
def execDecD (p : Padding) (kx : Bool) (s : State) : Host.Outcome State Fault Refusal :=
  .next (runData .direct kx (decBody .direct p) s)

/-- `DEC.T` (R133, R154). -/
def execDecT (p : Padding) (kx : Bool) (s : State) : Host.Outcome State Fault Refusal :=
  .next (runData .table kx (decBody .table p) s)

/-- `DEC.B` (R146, R154). -/
def execDecB (p : Padding) (kx : Bool) (s : State) : Host.Outcome State Fault Refusal :=
  .next (runData .batch kx (decBody .batch p) s)

end Sys2Proof.Machine
end

