-- ==== Sys2Proof/Machine/TableGen.lean ====
section
/-! DEFINITION. `TBLGEN` (43_table_accel.md). -/

namespace Sys2Proof.Machine

/-- `TBLGEN`: build both tables, whatever `TBL_VALID` was (R127). -/
def execTblgen (s : State) : Host.Outcome State Fault Refusal :=
  .next (s.buildTables.settle .noError 0)

end Sys2Proof.Machine
end

