-- ==== Sys2Proof/Machine/Dispatch.lean ====
section
/-! DEFINITION. `exec`: one arm per command, each a call of that command's meaning. -/

namespace Sys2Proof.Machine

/-- The engine's `complete` step for a legal command (R243). -/
def exec (i : Instr) (s : State) : Host.Outcome State Fault Refusal :=
  match i with
  | .keyexpD => Sys2Proof.Machine.execKeyexpD s
  | .keyexpT => Sys2Proof.Machine.execKeyexpT s
  | .tblgen => Sys2Proof.Machine.execTblgen s
  | .encblkD kx => Sys2Proof.Machine.execEncblkD kx s
  | .encblkT kx => Sys2Proof.Machine.execEncblkT kx s
  | .encblkB kx => Sys2Proof.Machine.execEncblkB kx s
  | .decblkD kx => Sys2Proof.Machine.execDecblkD kx s
  | .decblkT kx => Sys2Proof.Machine.execDecblkT kx s
  | .decblkB kx => Sys2Proof.Machine.execDecblkB kx s
  | .encD pad kx => Sys2Proof.Machine.execEncD pad kx s
  | .encT pad kx => Sys2Proof.Machine.execEncT pad kx s
  | .encB pad kx => Sys2Proof.Machine.execEncB pad kx s
  | .decD pad kx => Sys2Proof.Machine.execDecD pad kx s
  | .decT pad kx => Sys2Proof.Machine.execDecT pad kx s
  | .decB pad kx => Sys2Proof.Machine.execDecB pad kx s
  | .gcmencD kx => Sys2Proof.Machine.execGcmencD kx s
  | .gcmencT kx => Sys2Proof.Machine.execGcmencT kx s
  | .gcmencB kx => Sys2Proof.Machine.execGcmencB kx s
  | .gcmdecD kx => Sys2Proof.Machine.execGcmdecD kx s
  | .gcmdecT kx => Sys2Proof.Machine.execGcmdecT kx s
  | .gcmdecB kx => Sys2Proof.Machine.execGcmdecB kx s

end Sys2Proof.Machine
end

