-- ==== Sys2Proof/Machine/Engine.lean ====
section
/-! DEFINITION. The engine's `complete` step on the latched command word (R67, R243). -/

namespace Sys2Proof.Machine

/-- The engine's `complete` step (R243): decode the latched word and run the command, or abort with
`IllegalCommand` (R67, R206). -/
def engineComplete (s : State) : Host.Outcome State Fault Refusal :=
  match decode s.cmdw with
  | .ok i => exec i s
  | .error _ => .next (s.abort .illegalCommand)

end Sys2Proof.Machine
end

