-- ==== Sys2Proof/Machine/Flags.lean ====
section
/-! DEFINITION. The one flag register, `STATUS` (R21), and the error codes (R201). -/

namespace Sys2Proof.Machine

/-- The value of `STATUS.ERR` for an error (R201). -/
def Err.code : Err → BitVec 4
  | .noError => 0
  | .invalidKeyLength => 1
  | .invalidCiphertextLength => 2
  | .invalidPadding => 3
  | .authenticationFailed => 4
  | .illegalCommand => 5
  | .keyNotLoaded => 6
  | .lengthRange => 7

/-- `STATUS` as the host reads it: bit 0 `BUSY`, 1 `DONE`, 2 `RK_VALID`, 3 `TBL_VALID`, 11:8 `ERR`, the
reserved bits 0 (R21). -/
def State.status (s : State) : Word :=
  (0 : BitVec 20) ++ s.err.code ++ (0 : BitVec 4) ++ BitVec.ofBool s.tblValid ++ BitVec.ofBool s.rkValid ++
    BitVec.ofBool s.done ++ BitVec.ofBool s.busy

end Sys2Proof.Machine
end

