-- ==== Sys2Proof/Machine/HostPort.lean ====
section
/-! DEFINITION. What one host access does (R20 to R26, R45, R46), and the host's polling loop (R69). -/

namespace Sys2Proof.Machine

/-! ## Register space (R23) -/

/-- The register at an offset of the register block; `none` where the spec defines no access (R45, U17). -/
def regAt (offset : Nat) : Option Reg :=
  if offset % 4 ≠ 0 then none
  else if offset = 0x000 then some .cmd
  else if offset = 0x004 then some .status
  else if offset = 0x008 then some .keyLen
  else if offset = 0x00C then some .ivLen
  else if offset = 0x010 then some .aadLen
  else if offset = 0x014 then some .inLen
  else if offset = 0x018 then some .outLen
  else if offset = 0x01C then some .reserved
  else if offset < 0x030 then some (.tagIn (Fin.ofNat 4 ((offset - 0x020) / 4)))
  else if offset < 0x040 then some (.tagOut (Fin.ofNat 4 ((offset - 0x030) / 4)))
  else if offset < 0x0C0 then some (.rk (Fin.ofNat 32 ((offset - 0x040) / 4)))
  else if offset ≤ 0x0FC then some .reserved
  else none

/-- The value of a register read while the block is idle (R19 to R23). `RK` before the first key schedule and
`TAG_OUT` before the first tag are free values (R27). -/
def State.regValue (s : State) : Reg → Word
  | .cmd => 0
  | .status => s.status
  | .keyLen => s.keyLen
  | .ivLen => s.ivLen
  | .aadLen => s.aadLen
  | .inLen => s.inLen
  | .outLen => s.outLen
  | .tagIn j => s.tagIn.get j
  | .tagOut j => if s.tagOutWritten then s.tagOut.get j else Config.resetTagOut s.epoch j
  | .rk i => if s.rkValid then s.rk.get i else Config.resetRk s.epoch i
  | .reserved => 0

/-- A register write while the block is idle (R20 to R23, R46): `CMD` starts a command, the length registers and
`TAG_IN` store, a write to a read-only register or a reserved offset is dropped. -/
def State.regWrite (s : State) (r : Reg) (v : Word) : State :=
  match r with
  | .cmd => s.accept v
  | .keyLen => { s with keyLen := v }
  | .ivLen => { s with ivLen := v }
  | .aadLen => { s with aadLen := v }
  | .inLen => { s with inLen := v }
  | .tagIn j => { s with tagIn := s.tagIn.set j v }
  | .status => s
  | .outLen => s
  | .tagOut _ => s
  | .rk _ => s
  | .reserved => s

/-! ## One access -/

/-- Return an unspecified word, a fresh free value (R26, U10; log 10). -/
def State.respondFreeWord (s : State) : State :=
  { s.respond (.word (Config.freeWord s.fresh)) with fresh := s.fresh + 1 }

/-- Return an unspecified byte, a fresh free value (R24, R26, U10, U11; logs 10, 11). -/
def State.respondFreeByte (s : State) : State :=
  { s.respond (.byte (Config.freeByte s.fresh)) with fresh := s.fresh + 1 }

/-- A defined register read (R26): while busy only `STATUS` returns its true value. -/
def hostReadReg (r : Reg) (s : State) : State :=
  if s.busy && r != .status then s.respondFreeWord else s.respond (.word (s.regValue r))

/-- A defined register write (R26, R235): dropped while busy. -/
def hostWriteReg (r : Reg) (v : Word) (s : State) : State :=
  if s.busy then s else s.regWrite r v

/-- A defined buffer read (R24, R26): `KEYBUF` and, while busy, every buffer return an unspecified byte. -/
def hostReadBuf (b : Buffer) (i : Nat) (s : State) : State :=
  if s.busy || b == .keyBuf then s.respondFreeByte else s.respond (.byte (s.byteAt b i))

/-- A defined buffer write (R24, R26, R46): dropped while busy, and into `OUTBUF`, which is read-only. -/
def hostWriteBuf (b : Buffer) (i : Nat) (v : Byte) (s : State) : State :=
  if s.busy || b == .outBuf then s else s.setBuffer b (Memory.write (s.buffer b) i v)

/-- Does the spec define an access of this width at this index of a buffer (R45, U17)? -/
def bufferAccessOk (s : State) (b : Buffer) (width i : Nat) : Bool :=
  width = 1 && i < capacity s.cfg b

/-- One host access (R45, R46, R49). -/
def hostAccess (a : Access) (s : State) : Host.Outcome State Fault Refusal :=
  match a with
  | .readReg width offset =>
    match width, regAt offset with
    | 4, some r => .next (hostReadReg r s)
    | _, _ => .refused (.undefinedRegisterAccess width offset)
  | .writeReg width offset v =>
    match width, regAt offset with
    | 4, some r => .next (hostWriteReg r v s)
    | _, _ => .refused (.undefinedRegisterAccess width offset)
  | .readBuf b width i =>
    if bufferAccessOk s b width i then .next (hostReadBuf b i s)
    else .refused (.undefinedBufferAccess b width i)
  | .writeBuf b width i v =>
    if bufferAccessOk s b width i then .next (hostWriteBuf b i v s)
    else .refused (.undefinedBufferAccess b width i)

/-! ## One input -/

/-- May the engine complete now (R243)? While busy it may at any time; it does when the host steps of the busy
window are used up, when the host has no further step, or when the host is polling for `DONE` (log 3). -/
def State.engineReady (s : State) : Bool :=
  s.busy &&
    match s.inputs with
    | [] => true
    | .wait :: _ => true
    | .access _ :: _ => s.delay = 0
    | .reset :: _ => s.delay = 0

/-- The step taken by the outside world when the engine does not complete: the next input in arrival order
(R49). With nothing to come the block stays as it is (R27). `wait` reads `STATUS` until `DONE = 1` (R69). -/
def hostTurn (s : State) : Host.Outcome State Fault Refusal :=
  match s.inputs with
  | [] => .next s
  | .access a :: rest => hostAccess a { s with inputs := rest, delay := s.delay - 1 }
  | .wait :: rest =>
    if s.done then .next { s.respond (.word s.status) with inputs := rest } else .next s
  | .reset :: rest => .next ({ s with inputs := rest }.resetInput)

end Sys2Proof.Machine
end

