-- ==== Sys2Proof/Machine/Step.lean ====
section
/-! DEFINITION. One step of CORE and its host port (R241, R243), and placing a command word where the next step
finds it. -/

namespace Sys2Proof.Machine

/-- One step: the engine completes the running command, or the outside world takes its next step. -/
def step (s : State) : Host.Outcome State Fault Refusal :=
  if s.engineReady then engineComplete s else hostTurn s

/-- The state in which the word has just been accepted as a command and no host step falls into its busy window,
so that the next step runs it (log 4). -/
def State.withFetchWord (s : State) (nbits w : Nat) : State :=
  s.latch (BitVec.ofNat 32 (w % 2 ^ nbits)) 0

end Sys2Proof.Machine
end

