-- ==== Sys2Proof/Machine/HostProgram.lean ====
section
/-! DEFINITION. The host's side: the host steps of R69 as inputs, the text of a command (R69), and the calls of the
source's API as the host sequences that perform them, up to what each call returns or fails with (R70). -/

namespace Sys2Proof.Machine

/-! ## Host steps (R69) -/

/-- The offset of a register in the register block (R23); the first reserved one for `reserved`. -/
def offsetOf : Reg → Nat
  | .cmd => 0x000
  | .status => 0x004
  | .keyLen => 0x008
  | .ivLen => 0x00C
  | .aadLen => 0x010
  | .inLen => 0x014
  | .outLen => 0x018
  | .reserved => 0x01C
  | .tagIn j => 0x020 + 4 * j.val
  | .tagOut j => 0x030 + 4 * j.val
  | .rk i => 0x040 + 4 * i.val

/-- `wb <BUF>, <index>, <bytes>`: byte writes, ascending index (R69). -/
def wb (b : Buffer) : Nat → List Byte → List Input
  | _, [] => []
  | i, v :: vs => .access (.writeBuf b 1 i v) :: wb b (i + 1) vs

/-- `wr <REG>, <value>` (R69). -/
def wr (r : Reg) (v : Word) : List Input :=
  [.access (.writeReg 4 (offsetOf r) v)]

/-- `rr <REG>` (R69). -/
def rr (r : Reg) : List Input :=
  [.access (.readReg 4 (offsetOf r))]

/-- `rb <BUF>, <index>, <n>` (R69). -/
def rb (b : Buffer) (i n : Nat) : List Input :=
  (List.range n).map fun k => .access (.readBuf b 1 (i + k))

/-- `cmd <command>` (R69). -/
def cmd (i : Instr) : List Input :=
  wr .cmd (encode i)

/-- `wait`: read `STATUS` until `DONE = 1` (R69). -/
def wait : List Input :=
  [.wait]

/-! ## Text (R69) -/

/-- The mnemonic of an operation (R61). -/
def opText : Op → String
  | .keyexp => "KEYEXP"
  | .tblgen => "TBLGEN"
  | .encblk => "ENCBLK"
  | .decblk => "DECBLK"
  | .enc => "ENC"
  | .dec => "DEC"
  | .gcmenc => "GCMENC"
  | .gcmdec => "GCMDEC"

/-- The suffix of a strategy (R69). -/
def strategyText : Strategy → String
  | .direct => ".D"
  | .table => ".T"
  | .batch => ".B"

/-- `<MNEMONIC>.<S> [pkcs7] [kx]`, the suffix left out for `TBLGEN` (R69). -/
def commandText (i : Instr) : String :=
  opText i.op ++ (if i.op = .tblgen then "" else strategyText i.strategy) ++
    (if i.pad = .pkcs7 then " pkcs7" else "") ++ (if i.kx then " kx" else "")

/-! ## The source's calls (R70) -/

/-- The `ENCBLK` or `DECBLK` command of a strategy. -/
def blockCommand (dir : Direction) (st : Strategy) (kx : Bool) : Instr :=
  match dir, st with
  | .enc, .direct => .encblkD kx
  | .enc, .table => .encblkT kx
  | .enc, .batch => .encblkB kx
  | .dec, .direct => .decblkD kx
  | .dec, .table => .decblkT kx
  | .dec, .batch => .decblkB kx

/-- The `ENC` or `DEC` command of a strategy. -/
def messageCommand (dir : Direction) (st : Strategy) (p : Padding) (kx : Bool) : Instr :=
  match dir, st with
  | .enc, .direct => .encD p kx
  | .enc, .table => .encT p kx
  | .enc, .batch => .encB p kx
  | .dec, .direct => .decD p kx
  | .dec, .table => .decT p kx
  | .dec, .batch => .decB p kx

/-- The `GCMENC` or `GCMDEC` command of a strategy. -/
def gcmCommand (dir : Direction) (st : Strategy) (kx : Bool) : Instr :=
  match dir, st with
  | .enc, .direct => .gcmencD kx
  | .enc, .table => .gcmencT kx
  | .enc, .batch => .gcmencB kx
  | .dec, .direct => .gcmdecD kx
  | .dec, .table => .gcmdecT kx
  | .dec, .batch => .gcmdecB kx

/-- The calls of R70 with their arguments. A strategy is named where the row leaves `<S>` open. -/
inductive Call where
  /-- `derive_subkeys(key)`, with `KEYEXP.T` or `KEYEXP.D`. -/
  | deriveSubkeys (tables : Bool) (key : List Byte)
  /-- `encrypt_block(subkeys, P)` and its decryption, with the subkeys a `KEYEXP` has left in `RK`. -/
  | block (dir : Direction) (st : Strategy) (b : Block)
  /-- `encrypt_block(key, P)` and its decryption. -/
  | keyedBlock (dir : Direction) (st : Strategy) (key : List Byte) (b : Block)
  /-- `batched.encrypt_block([P0 .. PN-1])` and its decryption. -/
  | batch (dir : Direction) (bs : List Block)
  /-- `encrypt(key, M, padding)` and `decrypt(key, C, padding)`. -/
  | message (dir : Direction) (st : Strategy) (p : Padding) (key m : List Byte)
  /-- `gcm_encrypt(key, nonce, P, aad)`. -/
  | gcmEncrypt (st : Strategy) (key nonce m aad : List Byte)
  /-- `gcm_decrypt(key, nonce, C, tag, aad)`. -/
  | gcmDecrypt (st : Strategy) (key nonce c : List Byte) (tag : Block) (aad : List Byte)
deriving DecidableEq, Repr

/-- The length register of each buffer (R22). -/
def lengthRegOf : Buffer → Reg
  | .keyBuf => .keyLen
  | .ivBuf => .ivLen
  | .aadBuf => .aadLen
  | .inBuf => .inLen
  | .outBuf => .outLen

/-- Load a byte string and its length: `wb <BUF>,0,v; wr <LEN>,len(v)`. -/
def loadSteps (b : Buffer) (v : List Byte) : List Input :=
  wb b 0 v ++ wr (lengthRegOf b) (BitVec.ofNat 32 v.length)

/-- `wr TAG_IN[j], be32(tag[4j..4j+4))` for `j` = 0..3. -/
def loadTagSteps (tag : Block) : List Input :=
  (List.finRange 4).flatMap fun j => wr (.tagIn j) ((tagWords tag).get j)

/-- The loads of a call, in the order of its row. -/
def Call.loads : Call → List Input
  | .deriveSubkeys _ key => loadSteps .keyBuf key
  | .block _ _ b => loadSteps .inBuf (bytes128 b)
  | .keyedBlock _ _ key b => loadSteps .keyBuf key ++ loadSteps .inBuf (bytes128 b)
  | .batch _ bs => loadSteps .inBuf (bytesOf bs)
  | .message _ _ _ key m => loadSteps .keyBuf key ++ loadSteps .inBuf m
  | .gcmEncrypt _ key nonce m aad =>
    loadSteps .keyBuf key ++ loadSteps .ivBuf nonce ++ loadSteps .aadBuf aad ++
      loadSteps .inBuf m
  | .gcmDecrypt _ key nonce c tag aad =>
    loadSteps .keyBuf key ++ loadSteps .ivBuf nonce ++ loadSteps .aadBuf aad ++
      loadSteps .inBuf c ++ loadTagSteps tag

/-- The command of a call. -/
def Call.command : Call → Instr
  | .deriveSubkeys tables _ => if tables then .keyexpT else .keyexpD
  | .block dir st _ => blockCommand dir st false
  | .keyedBlock dir st _ _ => blockCommand dir st true
  | .batch dir _ => blockCommand dir .batch false
  | .message dir st p _ _ => messageCommand dir st p true
  | .gcmEncrypt st _ _ _ _ => gcmCommand .enc st true
  | .gcmDecrypt st _ _ _ _ _ => gcmCommand .dec st true

/-- A call up to its `wait`, which returns the `STATUS` the rest of the call depends on. -/
def Call.request (c : Call) : List Input :=
  c.loads ++ cmd c.command ++ wait

/-- The error code in a `STATUS` word, bits 11:8 (R21). -/
def statusErr (status : Word) : BitVec 4 :=
  status.extractLsb' 8 4

/-- Where the row says `rb OUTBUF,0,OUT_LEN`, the host reads `OUT_LEN` to know how many bytes to read (DEDUCED,
log 27). A `gcm_decrypt` that has failed reads no output. -/
def Call.lengthSteps (c : Call) (status : Word) : List Input :=
  match c with
  | .deriveSubkeys _ _ => []
  | .block _ _ _ => []
  | .keyedBlock _ _ _ _ => []
  | .batch _ _ => []
  | .message _ _ _ _ _ => rr .outLen
  | .gcmEncrypt _ _ _ _ _ => rr .outLen
  | .gcmDecrypt _ _ _ _ _ _ => if statusErr status = 0 then rr .outLen else []

/-- The result steps of a call, after its `wait` has returned `status` and `OUT_LEN` has been read as `n`:
`rr RK[0..31]`, `rb OUTBUF,..`, `rr TAG_OUT[0..3]` as the row has them. -/
def Call.resultSteps (c : Call) (status : Word) (n : Nat) : List Input :=
  match c with
  | .deriveSubkeys _ _ => (List.finRange 32).flatMap fun i => rr (.rk i)
  | .block _ _ _ => rb .outBuf 0 16
  | .keyedBlock _ _ _ _ => rb .outBuf 0 16
  | .batch _ bs => rb .outBuf 0 (16 * bs.length)
  | .message _ _ _ _ _ => rb .outBuf 0 n
  | .gcmEncrypt _ _ _ _ _ => rb .outBuf 0 n ++ (List.finRange 4).flatMap fun j => rr (.tagOut j)
  | .gcmDecrypt _ _ _ _ _ _ => if statusErr status = 0 then rb .outBuf 0 n else []

/-- What a call returns: the bytes of `OUTBUF`, and the words of `RK` (the subkeys) or of `TAG_OUT` (the tag). -/
structure CallOutput where
  bytes : List Byte
  words : List Word
deriving DecidableEq, Repr

/-- The words among what the host port has returned. -/
def wordsIn (l : List PortData) : List Word :=
  l.filterMap fun d =>
    match d with
    | .word w => some w
    | .byte _ => none

/-- The bytes among what the host port has returned. -/
def bytesIn (l : List PortData) : List Byte :=
  l.filterMap fun d =>
    match d with
    | .word _ => none
    | .byte b => some b

/-- How a call ends, from the `STATUS` its `wait` returned and from what its result steps returned: a non-zero `ERR`
is the source's failure with the error of that code (R70, R201). -/
def callAnswer (status : Word) (got : List PortData) : Except (BitVec 4) CallOutput :=
  if statusErr status = 0 then .ok ⟨bytesIn got, wordsIn got⟩ else .error (statusErr status)

/-- What the host port has returned from state `s` to state `t`, oldest first. -/
def readBetween (s t : State) : List PortData :=
  (t.responses.take (t.responses.length - s.responses.length)).reverse

/-- What the host will do from here on. -/
def State.withInputs (s : State) (l : List Input) : State :=
  { s with inputs := l }

/-- The host takes these steps next, and the machine runs until they are taken: one step for each, and one for the
engine's completion of a command among them. The final state, with what the host has read on the way. -/
def drive (l : List Input) (s : State) : Host.Outcome (State × List PortData) Fault Refusal :=
  match core.run (l.length + 1) (s.withInputs l) with
  | .next t => .next (t, readBetween s t)
  | .fault f => .fault f
  | .refused r => .refused r

/-- A call, performed from an idle state with nothing else to come (R70): the request, the length of the output, the
result steps. The final state and how the call ends. -/
def Call.perform (c : Call) (s : State) : Host.Outcome (State × Except (BitVec 4) CallOutput) Fault Refusal :=
  match drive c.request s with
  | .fault f => .fault f
  | .refused r => .refused r
  | .next (s1, read1) =>
    let status := (wordsIn read1).headD 0
    match drive (c.lengthSteps status) s1 with
    | .fault f => .fault f
    | .refused r => .refused r
    | .next (s2, read2) =>
      match drive (c.resultSteps status ((wordsIn read2).headD 0).toNat) s2 with
      | .fault f => .fault f
      | .refused r => .refused r
      | .next (s3, read3) => .next (s3, callAnswer status read3)

end Sys2Proof.Machine
end

