-- ==== Sys2Proof/Safety.lean ====
section
/-! DEFINITION. The vocabulary of the claims: the invariants of the machine, what a completed and a failed
command leave, which check fails first, the values the rules give, written with the direct transforms, and what the
source's calls return. -/

namespace Sys2Proof.Machine

/-! ## Invariants -/

/-- Every buffer's memory is in canonical form. -/
def State.memoryCanonical (s : State) : Prop :=
  ∀ b, Memory.wf (s.buffer b)

/-- No byte is listed beyond a buffer's capacity: no access was out of range (R24, R54). -/
def State.memoryInBounds (s : State) : Prop :=
  ∀ b, ∀ c ∈ s.buffer b, c.1 < capacity s.cfg b

/-- `TBL_VALID = 1` means both tables hold the values of R125 and R126 (R16). -/
def State.tablesSound (s : State) : Prop :=
  s.tblValid = true → s.tblD = tableD ∧ s.tblK = tableK

/-- `RK_VALID = 1` means `RK` holds the subkeys of some key (R13). -/
def State.keySound (s : State) : Prop :=
  s.rkValid = true → ∃ key, s.rk = keySchedule transTk key

/-- `BUSY` and `DONE` are never both 1 (R21). -/
def State.busyDoneExclusive (s : State) : Prop :=
  ¬(s.busy = true ∧ s.done = true)

/-- A non-zero `ERR` belongs to a completed command without output (R21, R22, R210). -/
def State.errorSound (s : State) : Prop :=
  s.err ≠ .noError → s.done = true ∧ s.outLen = 0

/-- `OUT_LEN` counts bytes of `OUTBUF` (R22). -/
def State.outLenSound (s : State) : Prop :=
  s.outLen.toNat ≤ s.cfg.outCap

/-- The working state is 0 between the engine's steps (R25). -/
def State.workClear (s : State) : Prop :=
  s.work = Work.zero

/-- The invariant of CORE. -/
def State.Inv (s : State) : Prop :=
  s.memoryCanonical ∧ s.memoryInBounds ∧ s.tablesSound ∧ s.keySound ∧ s.busyDoneExclusive ∧ s.errorSound ∧
    s.outLenSound ∧ s.workClear

/-! ## What stays the same -/

/-- The host-visible registers other than `STATUS`, with the flags that guard them. -/
def SameRegisters (s t : State) : Prop :=
  t.keyLen = s.keyLen ∧ t.ivLen = s.ivLen ∧ t.aadLen = s.aadLen ∧ t.inLen = s.inLen ∧ t.outLen = s.outLen ∧
    t.tagIn = s.tagIn ∧ t.tagOut = s.tagOut ∧ t.tagOutWritten = s.tagOutWritten ∧ t.rk = s.rk ∧
    t.rkValid = s.rkValid

/-- The acceleration tables and their flag. -/
def SameTables (s t : State) : Prop :=
  t.tblD = s.tblD ∧ t.tblK = s.tblK ∧ t.tblValid = s.tblValid

/-- Every byte of every buffer. -/
def SameBuffers (s t : State) : Prop :=
  ∀ b a, t.byteAt b a = s.byteAt b a

/-- The configuration and the reset epoch, which no step but a reset changes. -/
def SameSetting (s t : State) : Prop :=
  t.cfg = s.cfg ∧ t.epoch = s.epoch

/-- `STATUS`, the latched command and the working state. -/
def SameEngine (s t : State) : Prop :=
  t.busy = s.busy ∧ t.done = s.done ∧ t.err = s.err ∧ t.cmdw = s.cmdw ∧ t.work = s.work

/-- All of the block: nothing but the host port's own bookkeeping may differ. -/
def SameBlockState (s t : State) : Prop :=
  SameRegisters s t ∧ SameTables s t ∧ SameBuffers s t ∧ SameSetting s t ∧ SameEngine s t

/-- What no command writes (R22, R24, R72): the input lengths, `TAG_IN`, the input buffers; and the host port. -/
def SameInputs (s t : State) : Prop :=
  t.keyLen = s.keyLen ∧ t.ivLen = s.ivLen ∧ t.aadLen = s.aadLen ∧ t.inLen = s.inLen ∧ t.tagIn = s.tagIn ∧
    (∀ b a, b ≠ .outBuf → t.byteAt b a = s.byteAt b a) ∧ SameSetting s t ∧ t.inputs = s.inputs ∧
    t.responses = s.responses ∧ t.fresh = s.fresh

/-! ## What a command leaves -/

/-- Does the command run the key schedule with a key of the right length (R100, R105)? -/
def loadsKey (i : Instr) (s : State) : Bool :=
  (i.kx || i.op == .keyexp) && s.keyLen == 16

/-- `RK` after the command: the schedule of the key in `KEYBUF` if it is run, else as before (R103, R105). -/
def subkeysAfter (i : Instr) (s : State) : Vector Word 32 :=
  if loadsKey i s then keySchedule transTk s.keyBlock else s.rk

/-- Does the command build the tables (R127, R128)? -/
def buildsTables (i : Instr) (s : State) : Bool :=
  i.op == .tblgen || (i.strategy == .table && !s.tblValid)

/-- The tables after the command (R127, R128, R134). -/
def TablesAfter (i : Instr) (s t : State) : Prop :=
  if buildsTables i s then t.tblD = tableD ∧ t.tblK = tableK ∧ t.tblValid = true else SameTables s t

/-- The command has ended with error code `e` and `n` bytes of output (R21, R25, R103, R210), and has written
nothing it does not write. -/
def Ended (i : Instr) (s t : State) (e : Err) (n : Nat) : Prop :=
  t.busy = false ∧ t.done = true ∧ t.err = e ∧ t.outLen = BitVec.ofNat 32 n ∧ t.cmdw = 0 ∧ t.work = Work.zero ∧
    t.delay = 0 ∧ t.rk = subkeysAfter i s ∧ t.rkValid = (loadsKey i s || s.rkValid) ∧ TablesAfter i s t ∧
    SameInputs s t

/-- `TAG_OUT` as before. -/
def SameTagOut (s t : State) : Prop :=
  t.tagOut = s.tagOut ∧ t.tagOutWritten = s.tagOutWritten

/-- `TAG_OUT` after a success: the tag if there is one, else as before (R19). -/
def TagOutAfter (s t : State) : Option Block → Prop
  | none => SameTagOut s t
  | some x => t.tagOut = tagWords x ∧ t.tagOutWritten = true

/-- The command succeeds: `exec` answers the next state in which `OUTBUF[0..len(out))` holds `out`, the bytes
above are the old ones (R237), `OUT_LEN` is `len(out)`, and `TAG_OUT` holds the tag if there is one. -/
def Completes (i : Instr) (s : State) (out : List Byte) (tag : Option Block) : Prop :=
  ∃ t, exec i s = .next t ∧ Ended i s t .noError out.length ∧
    (∀ a, t.byteAt .outBuf a = out.getD a (s.byteAt .outBuf a)) ∧ TagOutAfter s t tag

/-- The command fails by the abort procedure (R210): `OUT_LEN` is 0, and `OUTBUF` and `TAG_OUT` are as before. -/
def Aborts (i : Instr) (s : State) (e : Err) : Prop :=
  ∃ t, exec i s = .next t ∧ Ended i s t e 0 ∧ (∀ a, t.byteAt .outBuf a = s.byteAt .outBuf a) ∧ SameTagOut s t

/-- The prefix of a data command succeeds (R105). -/
def keyReady (kx : Bool) (s : State) : Prop :=
  if kx then s.keyLen = 16 else s.rkValid = true

/-! ## The values the rules give, with the direct transforms -/

/-- A string of whole blocks through the cipher, block by block (R150). -/
def ecbBytes (rk : Vector Word 32) (dir : Direction) (m : List Byte) : List Byte :=
  bytesOf ((blocksOf (m.length / 16) m).map (crypt transT rk dir))

/-- `E(B)` (R170). -/
def encE (rk : Vector Word 32) (b : Block) : Block :=
  crypt transT rk .enc b

/-- `J0` of a nonce under a key (R170 to R172). -/
def gcmJ0 (rk : Vector Word 32) (iv : List Byte) : Block :=
  initialCounter (encE rk 0) iv

/-- `GCTR(J0, D)` (R175). -/
def gcmStream (rk : Vector Word 32) (iv d : List Byte) : List Byte :=
  List.zipWith (· ^^^ ·) d (bytesOf ((counterBlocks ((d.length + 15) / 16) (gcmJ0 rk iv)).map (encE rk)))

/-- The tag of a ciphertext (R177, R178). -/
def gcmTagOf (rk : Vector Word 32) (iv aad ct : List Byte) : Block :=
  authHash (encE rk 0) aad ct ^^^ encE rk (gcmJ0 rk iv)

/-! ## The order of checks (R209) -/

/-- Is the operation one of the six data commands (R207, R208)? -/
def isData (i : Instr) : Bool :=
  i.op != .keyexp && i.op != .tblgen

/-- The conditions (a) to (d) of R208. -/
def lengthOutOfRange (i : Instr) (s : State) : Bool :=
  let n := s.inLen.toNat
  let isBlock := i.op == .encblk || i.op == .decblk
  let isGcm := i.op == .gcmenc || i.op == .gcmdec
  (isData i && s.cfg.inCap < n) || (isGcm && (s.cfg.ivCap < s.ivLen.toNat || s.cfg.aadCap < s.aadLen.toNat)) ||
    (isBlock && i.strategy != .batch && n != 16) || (isBlock && i.strategy == .batch && n % 16 != 0) ||
    (i.op == .enc && i.pad == .none && n % 16 != 0)

/-- The error a command must report: the first failing check of R209. -/
def expectedErr (i : Instr) (s : State) : Err :=
  if (i.kx || i.op == .keyexp) && s.keyLen != 16 then .invalidKeyLength
  else if isData i && !i.kx && !s.rkValid then .keyNotLoaded
  else if lengthOutOfRange i s then .lengthRange
  else if i.op == .dec && s.inLen.toNat % 16 != 0 then .invalidCiphertextLength
  else if i.op == .dec && i.pad == .pkcs7 &&
      (unpad (ecbBytes (subkeysAfter i s) .dec (s.operand .inBuf))).isNone then .invalidPadding
  else if i.op == .gcmdec &&
      gcmTagOf (subkeysAfter i s) (s.operand .ivBuf) (s.operand .aadBuf) (s.operand .inBuf) != s.tagInBlock then
    .authenticationFailed
  else .noError

/-! ## The host port -/

/-- The accesses R45 defines: aligned 32-bit register words up to offset 0x0FC, single bytes of a buffer. -/
def accessDefined (c : Config) : Access → Bool
  | .readReg width offset => width == 4 && offset % 4 == 0 && offset ≤ 0x0FC
  | .writeReg width offset _ => width == 4 && offset % 4 == 0 && offset ≤ 0x0FC
  | .readBuf b width i => width == 1 && i < capacity c b
  | .writeBuf b width i _ => width == 1 && i < capacity c b

/-- Is the access a write? -/
def isWrite : Access → Bool
  | .readReg _ _ => false
  | .writeReg _ _ _ => true
  | .readBuf _ _ _ => false
  | .writeBuf _ _ _ _ => true

/-- The engine may complete: a command is running, and the host has no step left in its busy window, or waits
for `DONE` (R243). -/
def MayComplete (s : State) : Prop :=
  s.busy = true ∧ (s.inputs = [] ∨ s.delay = 0 ∨ ∃ rest, s.inputs = .wait :: rest)

/-- The values of R231: `STATUS`, the lengths, `TAG_IN` and the working state are 0; `RK`, `TAG_OUT` and every
byte of every buffer read as free values. -/
def IsResetState (t : State) : Prop :=
  t.status = 0 ∧ t.cmdw = 0 ∧ t.keyLen = 0 ∧ t.ivLen = 0 ∧ t.aadLen = 0 ∧ t.inLen = 0 ∧ t.outLen = 0 ∧
    (∀ j, t.tagIn.get j = 0) ∧ t.work = Work.zero ∧ (∀ b i, t.byteAt b i = Config.resetByte t.epoch b i) ∧
    (∀ i, t.regValue (.rk i) = Config.resetRk t.epoch i) ∧ (∀ j, t.regValue (.tagOut j) = Config.resetTagOut t.epoch j)

/-- Two states give a command the same inputs (R47): the configuration, `RK`, the flags, the length registers,
`TAG_IN`, the key bytes, and the first `LEN` bytes of the other input buffers. -/
def SameCommandInputs (s t : State) : Prop :=
  t.cfg = s.cfg ∧ t.rk = s.rk ∧ t.rkValid = s.rkValid ∧ t.tblValid = s.tblValid ∧ t.keyLen = s.keyLen ∧
    t.ivLen = s.ivLen ∧ t.aadLen = s.aadLen ∧ t.inLen = s.inLen ∧ t.tagIn = s.tagIn ∧
    (∀ a < 16, t.byteAt .keyBuf a = s.byteAt .keyBuf a) ∧
    (∀ a < s.ivLen.toNat, t.byteAt .ivBuf a = s.byteAt .ivBuf a) ∧
    (∀ a < s.aadLen.toNat, t.byteAt .aadBuf a = s.byteAt .aadBuf a) ∧
    (∀ a < s.inLen.toNat, t.byteAt .inBuf a = s.byteAt .inBuf a)

/-- The results a host can collect agree (R242): `ERR`, `OUT_LEN`, every byte of `OUTBUF`, `TAG_OUT`, `RK`. -/
def SameResults (t u : State) : Prop :=
  t.err = u.err ∧ t.outLen = u.outLen ∧ (∀ a, t.byteAt .outBuf a = u.byteAt .outBuf a) ∧ SameTagOut t u ∧
    t.rk = u.rk ∧ t.rkValid = u.rkValid

/-- Two commands answer next states with the same results. -/
def SameEffect (i j : Instr) (s : State) : Prop :=
  ∃ t u, exec i s = .next t ∧ exec j s = .next u ∧ SameResults t u

/-- Two ways to compute `T` and `Tk` make the same cipher, as R136 lists it: per word, `Crypt` per block in both
directions under any subkeys, `KeySchedule` of any key. -/
def SameCipher (t tk t' tk' : Word → Word) : Prop :=
  (∀ a, t a = t' a ∧ tk a = tk' a) ∧ (∀ rk dir b, crypt t rk dir b = crypt t' rk dir b) ∧
    ∀ key, keySchedule tk key = keySchedule tk' key

/-! ## The source's calls (R70) -/

/-- A call may begin: the block is idle, and the host has nothing else to do. -/
def CallReady (s : State) : Prop :=
  s.cfg.wellFormed = true ∧ s.tablesSound ∧ s.busy = false ∧ s.inputs = []

/-- A byte string fits a buffer, and its length the length register (R22, R24). -/
def Fits (c : Config) (b : Buffer) (v : List Byte) : Prop :=
  v.length ≤ capacity c b ∧ v.length < 2 ^ 32

/-- A call that is given a key: the key must have 16 bytes (R104), and the call goes on with its subkeys. -/
def withKey (key : List Byte) (f : Vector Word 32 → Except Err CallOutput) : Except Err CallOutput :=
  if key.length = 16 then f (keySchedule transTk (be128 key)) else .error .invalidKeyLength

/-- A call that is given subkeys: a key schedule must have left them in `RK` (R207). -/
def withSubkeys (s : State) (f : Vector Word 32 → Except Err CallOutput) : Except Err CallOutput :=
  if s.rkValid then f s.rk else .error .keyNotLoaded

/-- `encrypt(key, M, padding)` and `decrypt(key, C, padding)` under the key's subkeys (R153, R154). -/
def messageResult (dir : Direction) (p : Padding) (rk : Vector Word 32) (m : List Byte) : Except Err CallOutput :=
  match dir, p with
  | .enc, .none => if m.length % 16 = 0 then .ok ⟨ecbBytes rk .enc m, []⟩ else .error .lengthRange
  | .enc, .pkcs7 => .ok ⟨ecbBytes rk .enc (pad m), []⟩
  | .dec, .none => if m.length % 16 = 0 then .ok ⟨ecbBytes rk .dec m, []⟩ else .error .invalidCiphertextLength
  | .dec, .pkcs7 =>
    if m.length % 16 = 0 then
      match unpad (ecbBytes rk .dec m) with
      | some v => .ok ⟨v, []⟩
      | none => .error .invalidPadding
    else .error .invalidCiphertextLength

/-- What each call of the source's API gives, whatever the strategy: its result or its failure (R70). -/
def Call.expected (s : State) : Call → Except Err CallOutput
  | .deriveSubkeys _ key => withKey key fun rk => .ok ⟨[], rk.toList⟩
  | .block dir _ b => withSubkeys s fun rk => .ok ⟨bytes128 (crypt transT rk dir b), []⟩
  | .keyedBlock dir _ key b => withKey key fun rk => .ok ⟨bytes128 (crypt transT rk dir b), []⟩
  | .batch dir bs => withSubkeys s fun rk => .ok ⟨bytesOf (bs.map (crypt transT rk dir)), []⟩
  | .message dir _ p key m => withKey key fun rk => messageResult dir p rk m
  | .gcmEncrypt _ key nonce m aad =>
    withKey key fun rk =>
      .ok ⟨gcmStream rk nonce m, (tagWords (gcmTagOf rk nonce aad (gcmStream rk nonce m))).toList⟩
  | .gcmDecrypt _ key nonce c tag aad =>
    withKey key fun rk =>
      if gcmTagOf rk nonce aad c = tag then .ok ⟨gcmStream rk nonce c, []⟩ else .error .authenticationFailed

/-- The call, performed at the host port, gives what the source's call gives, a failure by its error code, and
leaves the block idle with nothing to come. -/
def CallReturns (c : Call) (s : State) : Prop :=
  ∃ t, c.perform s = .next (t, (c.expected s).mapError Err.code) ∧ t.busy = false ∧ t.inputs = []

end Sys2Proof.Machine
end

