-- ==== Sys2Proof/Certificates/Slice0/Obligations.lean ====
section
/-! DEFINITION. The statements about CORE for the provers, from the numbered rules of the spec. -/

open Sys2Proof Sys2Proof.Machine

/-! ## Encoding (R60 to R69) -/

/-- The example words of R69 decode to the commands they are written for (encoding of R60, R61). -/
def Obligations.ExampleWordsDecode : Prop :=
  decode 0x00000001 = .ok .keyexpD ∧ decode 0x00000101 = .ok .keyexpT ∧ decode 0x00000002 = .ok .tblgen ∧
    decode 0x00000010 = .ok (.encblkD false) ∧ decode 0x00000910 = .ok (.encblkT true) ∧
    decode 0x00000211 = .ok (.decblkB false) ∧ decode 0x00000C20 = .ok (.encD .pkcs7 true) ∧
    decode 0x00000521 = .ok (.decT .pkcs7 false) ∧ decode 0x00000830 = .ok (.gcmencD true) ∧
    decode 0x00000231 = .ok (.gcmdecB false)

/-- Decoding an encoded command gives it back, for every command and every value of its free fields
(30_encoding.md, R60 to R66 and the word of R69). -/
def Obligations.DecodeOfEncodeIsTheCommand : Prop :=
  ∀ i : Instr, decode (encode i) = .ok i

/-- Every word that decodes is the one word of its command: no bit of the word is ignored (R65, R66). -/
def Obligations.EncodeOfDecodeIsTheWord : Prop :=
  ∀ (w : Word) (i : Instr), decode w = .ok i → encode i = w

/-- A word decodes exactly when its fields are legal by the table of R66: `RSV = 0` and an allowed combination. -/
def Obligations.DecodeAcceptsExactlyTheLegalFields : Prop :=
  ∀ w : Word, (∃ i, decode w = .ok i) ↔ (fieldsOf w).wellFormed = true

/-- The words that decode are exactly 51 distinct words (R66). -/
def Obligations.ExactlyFiftyOneLegalWords : Prop :=
  ∃ l : List Word, l.length = 51 ∧ l.Nodup ∧ ∀ w, w ∈ l ↔ ∃ i, decode w = .ok i

/-- A word with a non-zero bit among 31:12 is illegal whatever its other fields hold (R65). -/
def Obligations.ReservedBitsMakeAWordIllegal : Prop :=
  ∀ w : Word, w.extractLsb' 12 20 ≠ 0 → decode w = .error .reservedBits

/-! ## The machine: steps, reset, the host port -/

/-- When the engine may complete and the latched word decodes, the step is `exec` of the decoded command on the
same state, and a word placed by `withFetchWord` runs in the very next step (R243). The model's choices: when
the engine completes (log 3), `withFetchWord` (log 4), a whole command in one step (log 5). -/
def Obligations.StepRunsTheDecodedCommand : Prop :=
  (∀ (s : State) (i : Instr), MayComplete s → decode s.cmdw = .ok i → step s = exec i s) ∧
    ∀ (s : State) (w : Nat) (i : Instr), decodeTableWord 32 w = some i →
      step (s.withFetchWord 32 w) = exec i (s.withFetchWord 32 w)

/-- When the engine may not complete, the step is the next input's: an access acts as `hostAccess` says, a poll ends
once `DONE` is 1 by reading `STATUS` and otherwise changes nothing, and with no input left nothing changes (R49,
R69, R241). The model's choices: the list of inputs (log 2), the count of host steps in the busy window (log 3). -/
def Obligations.HostStepsTakeTheNextInput : Prop :=
  ∀ (s : State) (rest : List Input), ¬MayComplete s →
    (s.inputs = [] → step s = .next s) ∧
    (∀ a, s.inputs = .access a :: rest →
      step s = hostAccess a { s with inputs := rest, delay := s.delay - 1 }) ∧
    (s.inputs = .wait :: rest → s.done = true →
      ∃ t, step s = .next t ∧ SameBlockState s t ∧ t.inputs = rest ∧ t.responses = .word s.status :: s.responses) ∧
    (s.inputs = .wait :: rest → s.done = false → step s = .next s)

/-- An illegal word does nothing but complete with `IllegalCommand`: `DONE` 1, `BUSY` 0, `OUT_LEN` 0, no other
state changes (R67, R206). The model's choice: when the engine completes (log 3). -/
def Obligations.IllegalWordOnlyReportsIllegalCommand : Prop :=
  ∀ s : State, MayComplete s → (fieldsOf s.cmdw).wellFormed = false →
    ∃ t, step s = .next t ∧ t.err = .illegalCommand ∧ t.done = true ∧ t.busy = false ∧ t.outLen = 0 ∧
      t.keyLen = s.keyLen ∧ t.ivLen = s.ivLen ∧ t.aadLen = s.aadLen ∧ t.inLen = s.inLen ∧ t.tagIn = s.tagIn ∧
      SameTagOut s t ∧ t.rk = s.rk ∧ t.rkValid = s.rkValid ∧ SameTables s t ∧ SameBuffers s t ∧ SameSetting s t

/-- The state after reset, and after the reset input in any state, idle or busy, is that of R231; the reset input
abandons a running command (R232). The model's choices: unspecified contents are free values (logs 6, 7, 8), the
phase and the recomputed tag reset to 0 (log 14), what the reset input leaves outside the block (log 23). -/
def Obligations.ResetLeavesTheResetState : Prop :=
  IsResetState State.reset ∧
    ∀ (s : State) (rest : List Input), s.inputs = .reset :: rest → (s.busy = false ∨ s.delay ≠ 0) →
      ∃ t, step s = .next t ∧ IsResetState t ∧ t.cfg = s.cfg ∧ t.inputs = rest ∧ t.responses = s.responses

/-- A write to `CMD` while idle latches the word and starts a command: `BUSY` 1, `DONE` 0, `ERR` 0, and nothing
else of the block changes (R20, R211, R243). -/
def Obligations.AcceptedCmdWriteStartsACommand : Prop :=
  ∀ (s : State) (w : Word), s.busy = false →
    ∃ t, hostAccess (.writeReg 4 0x000 w) s = .next t ∧ t.cmdw = w ∧ t.busy = true ∧ t.done = false ∧
      t.err = .noError ∧ SameRegisters s t ∧ SameTables s t ∧ SameBuffers s t ∧ SameSetting s t ∧ t.work = s.work

/-- While `BUSY = 1` every defined host write is dropped, a read of `STATUS` returns its true value, and every
other register or buffer read returns some word or byte and has no effect on the block (R26). The model's choices:
what a read returns stands in `responses` (log 2), undefined accesses are refused (log 12). -/
def Obligations.BusyWindowAccessesArePowerless : Prop :=
  ∀ (s : State) (a : Access), s.busy = true → accessDefined s.cfg a = true →
    ∃ t, hostAccess a s = .next t ∧ SameBlockState s t ∧ (isWrite a = true → t = s) ∧
      (a = .readReg 4 0x004 → t.responses = .word s.status :: s.responses) ∧
      (∀ offset, a = .readReg 4 offset → ∃ w, t.responses = .word w :: s.responses) ∧
      (∀ b i, a = .readBuf b 1 i → ∃ v, t.responses = .byte v :: s.responses)

/-- A host read changes nothing in the block, whether idle or busy (R46), and leaves the model's `inputs` and `delay`
(logs 2, 3). -/
def Obligations.HostReadsHaveNoSideEffect : Prop :=
  ∀ (s t : State) (a : Access), isWrite a = false → hostAccess a s = .next t →
    SameBlockState s t ∧ t.inputs = s.inputs ∧ t.delay = s.delay

/-- The fields of `STATUS` and the error codes (R21, R201). -/
def Obligations.StatusFieldsAndErrorCodes : Prop :=
  (∀ s : State, s.status.getLsbD 0 = s.busy ∧ s.status.getLsbD 1 = s.done ∧ s.status.getLsbD 2 = s.rkValid ∧
      s.status.getLsbD 3 = s.tblValid ∧ s.status.extractLsb' 4 4 = 0 ∧ s.status.extractLsb' 8 4 = s.err.code ∧
      s.status.extractLsb' 12 20 = 0) ∧
    Err.code .noError = 0 ∧ Err.code .invalidKeyLength = 1 ∧ Err.code .invalidCiphertextLength = 2 ∧
    Err.code .invalidPadding = 3 ∧ Err.code .authenticationFailed = 4 ∧ Err.code .illegalCommand = 5 ∧
    Err.code .keyNotLoaded = 6 ∧ Err.code .lengthRange = 7

/-- What an idle register read returns, offset by offset (R19 to R23). `RK` and `TAG_OUT` once they have been
written since reset (before that they read as free values, logs 7, 8). Reads return through `responses` (log 2). -/
def Obligations.IdleRegisterReadsReturnTheRegister : Prop :=
  ∀ s : State, s.busy = false →
    hostAccess (.readReg 4 0x000) s = .next (s.respond (.word 0)) ∧
    hostAccess (.readReg 4 0x004) s = .next (s.respond (.word s.status)) ∧
    hostAccess (.readReg 4 0x008) s = .next (s.respond (.word s.keyLen)) ∧
    hostAccess (.readReg 4 0x00C) s = .next (s.respond (.word s.ivLen)) ∧
    hostAccess (.readReg 4 0x010) s = .next (s.respond (.word s.aadLen)) ∧
    hostAccess (.readReg 4 0x014) s = .next (s.respond (.word s.inLen)) ∧
    hostAccess (.readReg 4 0x018) s = .next (s.respond (.word s.outLen)) ∧
    hostAccess (.readReg 4 0x01C) s = .next (s.respond (.word 0)) ∧
    (∀ j : Fin 4, hostAccess (.readReg 4 (0x020 + 4 * j.val)) s = .next (s.respond (.word (s.tagIn.get j)))) ∧
    (∀ j : Fin 4, s.tagOutWritten = true →
      hostAccess (.readReg 4 (0x030 + 4 * j.val)) s = .next (s.respond (.word (s.tagOut.get j)))) ∧
    (∀ i : Fin 32, s.rkValid = true →
      hostAccess (.readReg 4 (0x040 + 4 * i.val)) s = .next (s.respond (.word (s.rk.get i)))) ∧
    (∀ k : Fin 16, hostAccess (.readReg 4 (0x0C0 + 4 * k.val)) s = .next (s.respond (.word 0)))

/-- What an idle register write does, offset by offset: the length registers and `TAG_IN` store the value and
nothing else changes; read-only registers and reserved offsets drop it (R19 to R23, R46). -/
def Obligations.IdleRegisterWritesStoreOrAreDropped : Prop :=
  ∀ (s : State) (v : Word), s.busy = false →
    hostAccess (.writeReg 4 0x008 v) s = .next { s with keyLen := v } ∧
    hostAccess (.writeReg 4 0x00C v) s = .next { s with ivLen := v } ∧
    hostAccess (.writeReg 4 0x010 v) s = .next { s with aadLen := v } ∧
    hostAccess (.writeReg 4 0x014 v) s = .next { s with inLen := v } ∧
    (∀ j : Fin 4, ∃ t, hostAccess (.writeReg 4 (0x020 + 4 * j.val) v) s = .next t ∧ t.tagIn.get j = v ∧
      (∀ k, k ≠ j → t.tagIn.get k = s.tagIn.get k) ∧ t = { s with tagIn := t.tagIn }) ∧
    hostAccess (.writeReg 4 0x004 v) s = .next s ∧ hostAccess (.writeReg 4 0x018 v) s = .next s ∧
    hostAccess (.writeReg 4 0x01C v) s = .next s ∧
    (∀ j : Fin 4, hostAccess (.writeReg 4 (0x030 + 4 * j.val) v) s = .next s) ∧
    (∀ i : Fin 32, hostAccess (.writeReg 4 (0x040 + 4 * i.val) v) s = .next s) ∧
    (∀ k : Fin 16, hostAccess (.writeReg 4 (0x0C0 + 4 * k.val) v) s = .next s)

/-- What an idle buffer access does (R24, R46): a write stores its one byte and nothing else, into `OUTBUF` it is
dropped; a read of a readable buffer returns the byte, and of `KEYBUF` some byte (a free value, log 11). Reads
return through `responses` (log 2). -/
def Obligations.IdleBufferAccesses : Prop :=
  ∀ (s : State) (b : Buffer) (i : Nat) (v : Byte), s.busy = false → i < capacity s.cfg b →
    (b ≠ .outBuf → ∃ t, hostAccess (.writeBuf b 1 i v) s = .next t ∧ t.byteAt b i = v ∧
      (∀ c a, c ≠ b ∨ a ≠ i → t.byteAt c a = s.byteAt c a) ∧ SameRegisters s t ∧ SameTables s t ∧
      SameSetting s t ∧ SameEngine s t) ∧
    (b = .outBuf → hostAccess (.writeBuf b 1 i v) s = .next s) ∧
    (b ≠ .keyBuf → hostAccess (.readBuf b 1 i) s = .next (s.respond (.byte (s.byteAt b i)))) ∧
    (b = .keyBuf → ∃ t d, hostAccess (.readBuf b 1 i) s = .next t ∧ SameBlockState s t ∧
      t.responses = .byte d :: s.responses)

/-- A host access is refused exactly when it is none of those R45 defines: an aligned 32-bit register word at an
offset up to 0x0FC, or a single byte below a buffer's capacity. The model's choice: to refuse them, also while busy
(logs 12, 18). -/
def Obligations.ExactlyTheUndefinedAccessesAreRefused : Prop :=
  ∀ (s : State) (a : Access), (∃ r, hostAccess a s = .refused r) ↔ accessDefined s.cfg a = false

/-- Every running command reaches `DONE = 1` after finitely many steps, absent reset and undefined accesses,
whatever the host does meanwhile: at most one step more than fall into its busy window (R240). The model's choice:
the length of the busy window is the free value `delay` (log 3). -/
def Obligations.EveryAcceptedCommandCompletes : Prop :=
  ∀ s : State, s.busy = true →
    (∀ x ∈ s.inputs, x ≠ .reset ∧ ∀ a, x = .access a → accessDefined s.cfg a = true) →
    ∃ k t, k ≤ s.delay + 1 ∧ core.run k s = .next t ∧ t.busy = false ∧ t.done = true

/-- The state after reset meets the invariant, for the default configuration (log 1). -/
def Obligations.ResetMeetsTheInvariant : Prop :=
  State.reset.Inv

/-- Every step keeps the invariant: canonical memories within their capacities, sound tables and subkeys, `BUSY`
and `DONE` exclusive, errors without output, `OUT_LEN` within `OUTBUF`, working state 0 (R13, R16, R21, R24,
R25, R54, R210). The model's choice: the working state is 0 between steps (logs 5, 14). -/
def Obligations.EveryStepKeepsTheInvariant : Prop :=
  ∀ s t : State, s.Inv → step s = .next t → t.Inv

/-! ## The functions -/

/-- The S-box is a permutation (R80). -/
def Obligations.SboxIsAPermutation : Prop :=
  ∀ a b : Byte, sbox a = sbox b → a = b

/-- Both linear transforms are linear over XOR and commute with rotation (R88). -/
def Obligations.TransformsAreLinearAndCommuteWithRotation : Prop :=
  (∀ a b : Word, linL (a ^^^ b) = linL a ^^^ linL b ∧ linLk (a ^^^ b) = linLk a ^^^ linLk b) ∧
    ∀ (a : Word) (n : Nat), n < 32 → linL (rotl32 a n) = rotl32 (linL a) n ∧ linLk (rotl32 a n) = rotl32 (linLk a) n

/-- The table forms equal the direct transforms for every word (R131). -/
def Obligations.TableLookupEqualsTheDirectTransforms : Prop :=
  ∀ a : Word, tabLookup tableD a = transT a ∧ tabLookup tableK a = transTk a

/-- The key schedule with the four-word sliding register is the source's recurrence on the unbounded sequence
`K[0..35]` (R101, R102, R107). -/
def Obligations.KeyScheduleIsTheUnboundedRecurrence : Prop :=
  ∀ key : Block, ∃ k : Nat → Word,
    k 0 = key.extractLsb' 96 32 ^^^ 0xA3B1BAC6 ∧ k 1 = key.extractLsb' 64 32 ^^^ 0x56AA3350 ∧
    k 2 = key.extractLsb' 32 32 ^^^ 0x677D9197 ∧ k 3 = key.extractLsb' 0 32 ^^^ 0xB27022DC ∧
    ∀ i : Fin 32, k (i.val + 4) = k i.val ^^^ linLk (tau (k (i.val + 1) ^^^ k (i.val + 2) ^^^ k (i.val + 3) ^^^ ck i.val)) ∧
      (keySchedule transTk key).get i = k (i.val + 4)

/-- One block through the cipher: the words follow the round recurrence with the subkeys in forward or reverse
order, and the output is the last four in reverse (R110 to R113). -/
def Obligations.CryptIsTheRoundRecurrence : Prop :=
  ∀ (rk : Vector Word 32) (dir : Direction) (b : Block), ∃ x : Nat → Word,
    x 0 = b.extractLsb' 96 32 ∧ x 1 = b.extractLsb' 64 32 ∧ x 2 = b.extractLsb' 32 32 ∧ x 3 = b.extractLsb' 0 32 ∧
    (∀ i : Fin 32, x (i.val + 4) = x i.val ^^^ linL (tau (x (i.val + 1) ^^^ x (i.val + 2) ^^^ x (i.val + 3) ^^^
      (if dir = .enc then rk.get i else rk.get i.rev)))) ∧
    crypt transT rk dir b = x 35 ++ x 34 ++ x 33 ++ x 32

/-- Decryption inverts encryption and encryption decryption, for any 32 words in place of the subkeys (R117). -/
def Obligations.EachDirectionInvertsTheOther : Prop :=
  ∀ (rk : Vector Word 32) (b : Block),
    crypt transT rk .dec (crypt transT rk .enc b) = b ∧ crypt transT rk .enc (crypt transT rk .dec b) = b

/-- The table form of the cipher equals the direct one: per word, `Crypt` per block in both directions under any
subkeys, `KeySchedule` of any key; and so does the cipher a command evaluates under each strategy, once its tables are
built (R136). -/
def Obligations.EveryStrategyComputesTheSameCipher : Prop :=
  SameCipher (tabLookup tableD) (tabLookup tableK) transT transTk ∧
    ∀ (s : State) (st : Strategy), s.tablesSound → (st = .table → s.tblValid = true) →
      SameCipher (s.roundT st) (s.keyT st) transT transTk

/-- Lock-step evaluation on any number of lanes gives, block by block, the scalar result (R143, R144). -/
def Obligations.BatchEqualsScalarForEveryLaneCount : Prop :=
  ∀ (rk : Vector Word 32) (dir : Direction) (lanes : Nat) (bs : List Block),
    cryptBatch transT rk dir lanes bs = bs.map (crypt transT rk dir)

/-- Padding brings any string to the next multiple of 16 above it, and unpadding undoes it (R151, R158). -/
def Obligations.UnpadInvertsPad : Prop :=
  ∀ m : List Byte, (pad m).length = 16 * (m.length / 16 + 1) ∧ unpad (pad m) = some m

/-- Unpadding succeeds exactly on strings that end in `Lp` bytes of value `Lp`, `Lp` in 1..16, and strips those
(R152). -/
def Obligations.UnpadAcceptsExactlyWellFormedPads : Prop :=
  ∀ p m : List Byte, unpad p = some m ↔
    ∃ lp, 1 ≤ lp ∧ lp ≤ 16 ∧ p = m ++ List.replicate lp (BitVec.ofNat 8 lp)

/-- `gf_mul` is commutative, associative, distributes over XOR, has zero and the identity `80 00 .. 00` (R166). -/
def Obligations.GfMulIsCommutativeAssociativeDistributive : Prop :=
  ∀ x y z : Block, gfMul x y = gfMul y x ∧ gfMul (gfMul x y) z = gfMul x (gfMul y z) ∧
    gfMul (x ^^^ y) z = gfMul x z ^^^ gfMul y z ∧ gfMul x 0 = 0 ∧
    gfMul x 0x80000000000000000000000000000000 = x

/-- GHASH is 0 on the empty string, and one more block updates the accumulator by XOR and multiplication (R167). -/
def Obligations.GhashIsTheBlockRecurrence : Prop :=
  ∀ (h b : Block) (s : List Byte), ghash h [] = 0 ∧
    (s.length % 16 = 0 → ghash h (s ++ bytes128 b) = gfMul (ghash h s ^^^ b) h)

/-- The counter increment: the low 32 bits go up by 1 modulo 2^32, the other 96 bits stay (R173). -/
def Obligations.IncrementTouchesOnlyTheLowWord : Prop :=
  ∀ cb : Block, (inc32 cb).extractLsb' 32 96 = cb.extractLsb' 32 96 ∧
    (inc32 cb).extractLsb' 0 32 = cb.extractLsb' 0 32 + 1

/-- A message has at most `ceil(IN_CAP / 16) < 2^28` blocks, and the counter blocks `CB_0 .. CB_n` of one message are
pairwise different (R186). -/
def Obligations.CounterBlocksOfAMessageAreDistinct : Prop :=
  (∀ c : Config, c.wellFormed = true → (c.inCap + 15) / 16 < 2 ^ 28) ∧
    ∀ (j0 : Block) (n : Nat), n < 2 ^ 28 → (j0 :: counterBlocks n j0).Nodup

/-- Byte `k` of the stream result is data byte `k` XOR byte `k mod 16` of the keystream block of the counter
incremented `k / 16 + 1` times from `J0`; the result is as long as the data, and the stream is its own inverse
(R174 to R176). -/
def Obligations.StreamIsBytewiseXorWithTheKeystream : Prop :=
  ∀ (rk : Vector Word 32) (iv d : List Byte),
    (gcmStream rk iv d).length = d.length ∧ gcmStream rk iv (gcmStream rk iv d) = d ∧
    ∀ k, k < d.length → (gcmStream rk iv d).getD k 0 =
      d.getD k 0 ^^^ (bytes128 (encE rk (Nat.iterate inc32 (k / 16 + 1) (gcmJ0 rk iv)))).getD (k % 16) 0

/-- The initial counter block of a 12-byte nonce is the nonce and the 4-byte counter 1, whatever `H` is; of the
empty nonce it is 0 (R171, R187). -/
def Obligations.InitialCounterOfTwelveByteAndEmptyNonces : Prop :=
  (∀ (h : Block) (iv : List Byte), iv.length = 12 →
      bytes128 (initialCounter h iv) = iv ++ [0x00, 0x00, 0x00, 0x01]) ∧
    ∀ h : Block, initialCounter h [] = 0

/-! ## The commands: result, completion and frame

`Completes` and `Aborts` (Safety.lean) also say three things that are the model's choices: `CMDW` is 0 after the
command (log 13), the working state is 0 (logs 5, 14), and `delay` is 0 (log 3). -/

/-- `KEYEXP.D` and `KEYEXP.T` with `KEY_LEN = 16` load the key schedule of `KEYBUF[0..16)` and output nothing
(R100, R103, R106). -/
def Obligations.KeyexpLoadsTheKeySchedule : Prop :=
  ∀ s : State, s.keyLen = 16 →
    Completes .keyexpD s [] none ∧ (s.tablesSound → Completes .keyexpT s [] none)

/-- `TBLGEN` builds both tables in every state and outputs nothing (R127). -/
def Obligations.TblgenBuildsTheTables : Prop :=
  ∀ s : State, Completes .tblgen s [] none

/-- `ENCBLK.D` and `DECBLK.D` with a key in force and `IN_LEN = 16` output the one block (R114, R115). -/
def Obligations.ScalarBlockCommandsOutputTheBlock : Prop :=
  ∀ (kx : Bool) (s : State), s.cfg.wellFormed = true → keyReady kx s → s.inLen = 16 →
    Completes (.encblkD kx) s
      (bytes128 (crypt transT (subkeysAfter (.encblkD kx) s) .enc (be128 (s.readBytes .inBuf 16)))) none ∧
    Completes (.decblkD kx) s
      (bytes128 (crypt transT (subkeysAfter (.decblkD kx) s) .dec (be128 (s.readBytes .inBuf 16)))) none

/-- `ENCBLK.T` and `DECBLK.T` output what the scalar cipher gives, through the tables, built first when
`TBL_VALID = 0` (R128, R132). -/
def Obligations.TableBlockCommandsOutputTheBlock : Prop :=
  ∀ (kx : Bool) (s : State), s.cfg.wellFormed = true → s.tablesSound → keyReady kx s → s.inLen = 16 →
    Completes (.encblkT kx) s
      (bytes128 (crypt transT (subkeysAfter (.encblkT kx) s) .enc (be128 (s.readBytes .inBuf 16)))) none ∧
    Completes (.decblkT kx) s
      (bytes128 (crypt transT (subkeysAfter (.decblkT kx) s) .dec (be128 (s.readBytes .inBuf 16)))) none

/-- `ENCBLK.B` and `DECBLK.B` output every block of an aligned input, any number of them from 0 (R142, R145). -/
def Obligations.BatchBlockCommandsOutputEveryBlock : Prop :=
  ∀ (kx : Bool) (s : State), s.cfg.wellFormed = true → keyReady kx s → s.inLen.toNat ≤ s.cfg.inCap →
    s.inLen.toNat % 16 = 0 →
    Completes (.encblkB kx) s (ecbBytes (subkeysAfter (.encblkB kx) s) .enc (s.operand .inBuf)) none ∧
    Completes (.decblkB kx) s (ecbBytes (subkeysAfter (.decblkB kx) s) .dec (s.operand .inBuf)) none

/-- `ENC` under every strategy outputs the blocks of the padded message, or of the aligned message as it is
(R150, R153). -/
def Obligations.EncOutputsTheEncryptedMessage : Prop :=
  ∀ (p : Padding) (kx : Bool) (s : State) (m : List Byte), s.cfg.wellFormed = true → keyReady kx s →
    s.inLen.toNat ≤ s.cfg.inCap → (p = .none → s.inLen.toNat % 16 = 0) →
    m = (if p = .pkcs7 then pad (s.operand .inBuf) else s.operand .inBuf) →
    Completes (.encD p kx) s (ecbBytes (subkeysAfter (.encD p kx) s) .enc m) none ∧
    (s.tablesSound → Completes (.encT p kx) s (ecbBytes (subkeysAfter (.encT p kx) s) .enc m) none) ∧
    Completes (.encB p kx) s (ecbBytes (subkeysAfter (.encB p kx) s) .enc m) none

/-- `DEC` under every strategy outputs the decrypted blocks, without their pad under `pkcs7` (R150, R154). -/
def Obligations.DecOutputsTheDecryptedMessage : Prop :=
  ∀ (p : Padding) (kx : Bool) (s : State) (m v : List Byte), s.cfg.wellFormed = true → keyReady kx s →
    s.inLen.toNat ≤ s.cfg.inCap → s.inLen.toNat % 16 = 0 →
    m = ecbBytes (if kx = true then keySchedule transTk s.keyBlock else s.rk) .dec (s.operand .inBuf) →
    (if p = .pkcs7 then unpad m = some v else v = m) →
    Completes (.decD p kx) s v none ∧ (s.tablesSound → Completes (.decT p kx) s v none) ∧
    Completes (.decB p kx) s v none

/-- `GCMENC` under every strategy outputs the ciphertext and writes the tag to `TAG_OUT` (R170 to R179). -/
def Obligations.GcmencOutputsCiphertextAndTag : Prop :=
  ∀ (kx : Bool) (s : State) (rk : Vector Word 32) (iv aad c : List Byte), s.cfg.wellFormed = true → keyReady kx s →
    s.ivLen.toNat ≤ s.cfg.ivCap → s.aadLen.toNat ≤ s.cfg.aadCap → s.inLen.toNat ≤ s.cfg.inCap →
    rk = (if kx = true then keySchedule transTk s.keyBlock else s.rk) → iv = s.operand .ivBuf →
    aad = s.operand .aadBuf → c = gcmStream rk iv (s.operand .inBuf) →
    Completes (.gcmencD kx) s c (some (gcmTagOf rk iv aad c)) ∧
    (s.tablesSound → Completes (.gcmencT kx) s c (some (gcmTagOf rk iv aad c))) ∧
    Completes (.gcmencB kx) s c (some (gcmTagOf rk iv aad c))

/-- `GCMDEC` under every strategy, when the supplied tag is the expected one, outputs the plaintext and leaves
`TAG_OUT` alone (R180). -/
def Obligations.GcmdecOutputsThePlaintext : Prop :=
  ∀ (kx : Bool) (s : State) (rk : Vector Word 32) (iv aad c : List Byte), s.cfg.wellFormed = true → keyReady kx s →
    s.ivLen.toNat ≤ s.cfg.ivCap → s.aadLen.toNat ≤ s.cfg.aadCap → s.inLen.toNat ≤ s.cfg.inCap →
    rk = (if kx = true then keySchedule transTk s.keyBlock else s.rk) → iv = s.operand .ivBuf →
    aad = s.operand .aadBuf → c = s.operand .inBuf → s.tagInBlock = gcmTagOf rk iv aad c →
    Completes (.gcmdecD kx) s (gcmStream rk iv c) none ∧
    (s.tablesSound → Completes (.gcmdecT kx) s (gcmStream rk iv c) none) ∧
    Completes (.gcmdecB kx) s (gcmStream rk iv c) none

/-! ## Errors -/

/-- Every command reports exactly the first failing check of R209, and then leaves what the abort procedure
leaves: what steps 2 and 3 committed and nothing else (R201 to R210). The model's choice: a TABLE command that finds
`TBL_VALID` 0 builds the tables before the key check and keeps them when the key length is wrong, as R128 and R209 say,
against the words of R104 (log 17, DEDUCED). -/
def Obligations.CommandsReportTheFirstFailingCheck : Prop :=
  ∀ (i : Instr) (s : State), s.cfg.wellFormed = true → (i.strategy = .table → s.tablesSound) →
    (∃ t, exec i s = .next t ∧ t.err = expectedErr i s) ∧
    (expectedErr i s ≠ .noError → Aborts i s (expectedErr i s))

/-- A key schedule that is asked for with `KEY_LEN != 16` fails before any subkey is computed: the loaded key stays
loaded, nothing is output, no input changes (R104, R202). It says nothing about the tables, where R104 and R128 differ
(log 17). -/
def Obligations.WrongKeyLengthKeepsTheLoadedKey : Prop :=
  ∀ (i : Instr) (s : State), i.kx = true ∨ i.op = .keyexp → s.keyLen ≠ 16 →
    ∃ t, exec i s = .next t ∧ t.err = .invalidKeyLength ∧ t.rk = s.rk ∧ t.rkValid = s.rkValid ∧ t.outLen = 0 ∧
      (∀ a, t.byteAt .outBuf a = s.byteAt .outBuf a) ∧ SameTagOut s t ∧ SameInputs s t

/-- A data command with `KX = 0` before any key schedule has succeeded fails with `KeyNotLoaded` (R207). -/
def Obligations.DataCommandsNeedALoadedKey : Prop :=
  ∀ (i : Instr) (s : State), isData i = true → i.kx = false → s.rkValid = false → Aborts i s .keyNotLoaded

/-- Whatever the error, a failed command leaves no output: `OUT_LEN` 0, `OUTBUF`, `TAG_OUT`, `TAG_IN`, the input
buffers and their lengths as before, idle and done (R200, R210, R237). -/
def Obligations.FailedCommandsLeaveNoOutput : Prop :=
  ∀ (i : Instr) (s t : State), exec i s = .next t → t.err ≠ .noError →
    t.outLen = 0 ∧ t.done = true ∧ t.busy = false ∧ t.work = Work.zero ∧
      (∀ a, t.byteAt .outBuf a = s.byteAt .outBuf a) ∧ SameTagOut s t ∧ SameInputs s t

/-- `GCMDEC` releases nothing on a tag mismatch, and of all supplied tags it accepts at most one (R181, R182,
R188). -/
def Obligations.GcmdecVerifiesBeforeRelease : Prop :=
  ∀ (i : Instr) (s t : State), i.op = .gcmdec → exec i s = .next t →
    (t.err = .authenticationFailed → t.outLen = 0 ∧ ∀ a, t.byteAt .outBuf a = s.byteAt .outBuf a) ∧
    (t.err = .noError → ∀ v, v ≠ s.tagIn →
      ∃ u, exec i { s with tagIn := v } = .next u ∧ u.err = .authenticationFailed)

/-! ## Whole-machine rules -/

/-- No command ever answers anything but a next state that is idle and done (R200). -/
def Obligations.EveryCommandEndsIdleAndDone : Prop :=
  ∀ (i : Instr) (s : State), ∃ t, exec i s = .next t ∧ t.busy = false ∧ t.done = true

/-- No command writes an input buffer, an input length register or `TAG_IN` (R22, R24, R244). -/
def Obligations.CommandsWriteNoInput : Prop :=
  ∀ (i : Instr) (s t : State), exec i s = .next t → SameInputs s t

/-- `RK` changes only by a key schedule, the tables only by a table build, and `TAG_OUT` only by a successful
`GCMENC` (R12, R16, R19, R134, R244). -/
def Obligations.PersistentStateHasOneWriterEach : Prop :=
  ∀ (i : Instr) (s t : State), exec i s = .next t →
    (i.kx = false → i.op ≠ .keyexp → t.rk = s.rk ∧ t.rkValid = s.rkValid) ∧
    (i.op ≠ .tblgen → (i.strategy ≠ .table ∨ s.tblValid = true) → SameTables s t) ∧
    ((i.op ≠ .gcmenc ∨ t.err ≠ .noError) → SameTagOut s t) ∧
    (s.rkValid = true → t.rkValid = true) ∧ (s.tblValid = true → t.tblValid = true)

/-- The three strategies give the same results from the same state; the block commands under BATCH on one block
(R118, R133, R146). -/
def Obligations.StrategiesGiveTheSameResults : Prop :=
  ∀ (p : Padding) (kx : Bool) (s : State), s.tablesSound →
    SameEffect .keyexpT .keyexpD s ∧
    SameEffect (.encblkT kx) (.encblkD kx) s ∧ SameEffect (.decblkT kx) (.decblkD kx) s ∧
    (s.inLen = 16 → SameEffect (.encblkB kx) (.encblkD kx) s ∧ SameEffect (.decblkB kx) (.decblkD kx) s) ∧
    SameEffect (.encT p kx) (.encD p kx) s ∧ SameEffect (.encB p kx) (.encD p kx) s ∧
    SameEffect (.decT p kx) (.decD p kx) s ∧ SameEffect (.decB p kx) (.decD p kx) s ∧
    SameEffect (.gcmencT kx) (.gcmencD kx) s ∧ SameEffect (.gcmencB kx) (.gcmencD kx) s ∧
    SameEffect (.gcmdecT kx) (.gcmdecD kx) s ∧ SameEffect (.gcmdecB kx) (.gcmdecD kx) s

/-- The results of a command depend on nothing but the command, `RK` and the flags, the length registers,
`TAG_IN` and the first `LEN` bytes of the input buffers (R47): two states that agree on these give the same
`ERR`, `OUT_LEN`, output bytes and `RK`, and after a successful `GCMENC` the same tag. -/
def Obligations.ResultsDependOnlyOnTheInputs : Prop :=
  ∀ (i : Instr) (s s' : State), s.tablesSound → s'.tablesSound → SameCommandInputs s s' →
    ∃ t t', exec i s = .next t ∧ exec i s' = .next t' ∧ t'.err = t.err ∧ t'.outLen = t.outLen ∧ t'.rk = t.rk ∧
      t'.rkValid = t.rkValid ∧ t'.tblValid = t.tblValid ∧
      (∀ a < t.outLen.toNat, t'.byteAt .outBuf a = t.byteAt .outBuf a) ∧
      (i.op = .gcmenc → t.err = .noError → t'.tagOut = t.tagOut)

/-- What a successful `GCMENC` outputs, given back to `GCMDEC` under any strategy with the same subkeys, nonce and
associated data and the tag in `TAG_IN`, is accepted and gives the plaintext again (R188). -/
def Obligations.GcmDecryptionRecoversThePlaintext : Prop :=
  ∀ (st st' : Strategy) (kx : Bool) (s t u : State), s.cfg.wellFormed = true → s.tablesSound →
    exec (gcmCommand .enc st kx) s = .next t → t.err = .noError →
    u.cfg = s.cfg → u.tablesSound → u.rk = t.rk → u.rkValid = true →
    u.ivLen = s.ivLen → (∀ a < s.ivLen.toNat, u.byteAt .ivBuf a = s.byteAt .ivBuf a) →
    u.aadLen = s.aadLen → (∀ a < s.aadLen.toNat, u.byteAt .aadBuf a = s.byteAt .aadBuf a) →
    u.inLen = t.outLen → (∀ a < t.outLen.toNat, u.byteAt .inBuf a = t.byteAt .outBuf a) → u.tagIn = t.tagOut →
    ∃ v, exec (gcmCommand .dec st' false) u = .next v ∧ v.err = .noError ∧ v.outLen = s.inLen ∧
      ∀ a < s.inLen.toNat, v.byteAt .outBuf a = s.byteAt .inBuf a

/-- What a successful `ENC` outputs, given back to `DEC` with the same padding and the same subkeys, under any
strategy and within the capacity, gives the message again (R158). -/
def Obligations.MessageDecryptionRecoversTheMessage : Prop :=
  ∀ (st st' : Strategy) (p : Padding) (kx : Bool) (s t u : State), s.cfg.wellFormed = true → s.tablesSound →
    exec (messageCommand .enc st p kx) s = .next t → t.err = .noError → t.outLen.toNat ≤ s.cfg.inCap →
    u.cfg = s.cfg → u.tablesSound → u.rk = t.rk → u.rkValid = true →
    u.inLen = t.outLen → (∀ a < t.outLen.toNat, u.byteAt .inBuf a = t.byteAt .outBuf a) →
    ∃ v, exec (messageCommand .dec st' p false) u = .next v ∧ v.err = .noError ∧ v.outLen = s.inLen ∧
      ∀ a < s.inLen.toNat, v.byteAt .outBuf a = s.byteAt .inBuf a

/-! ## The source's calls (R70)

The model's choices: a call starts with nothing else to come (log 2); the host reads `OUT_LEN` before the bytes it
counts (log 27). -/

/-- `derive_subkeys`, `encrypt_block` and `decrypt_block` in both forms, and the batched calls, performed as the host
sequences of R70 under any strategy, return what the source's calls return, and fail with the error of `ERR`. -/
def Obligations.BlockCallsReturnWhatTheSourceDefines : Prop :=
  ∀ (tables : Bool) (dir : Direction) (st : Strategy) (key : List Byte) (b : Block) (bs : List Block) (s : State),
    CallReady s → Fits s.cfg .keyBuf key → Fits s.cfg .inBuf (bytesOf bs) →
    CallReturns (.deriveSubkeys tables key) s ∧ CallReturns (.block dir st b) s ∧
      CallReturns (.keyedBlock dir st key b) s ∧ CallReturns (.batch dir bs) s

/-- `encrypt`, `decrypt`, `gcm_encrypt` and `gcm_decrypt`, performed as the host sequences of R70 under any strategy,
return what the source's calls return, and fail with the error of `ERR`; a failed `gcm_decrypt` reads no output. -/
def Obligations.MessageCallsReturnWhatTheSourceDefines : Prop :=
  ∀ (dir : Direction) (st : Strategy) (p : Padding) (key nonce m aad : List Byte) (tag : Block) (s : State),
    CallReady s → Fits s.cfg .keyBuf key → Fits s.cfg .ivBuf nonce → Fits s.cfg .aadBuf aad → Fits s.cfg .inBuf m →
    CallReturns (.message dir st p key m) s ∧ CallReturns (.gcmEncrypt st key nonce m aad) s ∧
      CallReturns (.gcmDecrypt st key nonce m tag aad) s
end

