-- ==== Sys2Proof/Laws/Bytes.lean ====
section
/-! SUPPORT. Byte strings and blocks: lengths, and the two readings of 16 bytes are inverse. -/

namespace Sys2Proof.Machine

@[simp] theorem bytes128_length (v : Block) : (bytes128 v).length = 16 := by
  simp [bytes128]

@[simp] theorem be64_length (v : BitVec 64) : (be64 v).length = 8 := by
  simp [be64]

@[simp] theorem bitLength_length (n : Nat) : (bitLength n).length = 8 := be64_length _

@[simp] theorem zeros_length (n : Nat) : (zeros n).length = n := by
  simp [zeros]

@[simp] theorem bytesOf_nil : bytesOf [] = [] := rfl

@[simp] theorem bytesOf_cons (b : Block) (bs : List Block) : bytesOf (b :: bs) = bytes128 b ++ bytesOf bs := rfl

@[simp] theorem bytesOf_append (as bs : List Block) : bytesOf (as ++ bs) = bytesOf as ++ bytesOf bs := by
  simp [bytesOf]

@[simp] theorem bytesOf_length (bs : List Block) : (bytesOf bs).length = 16 * bs.length := by
  induction bs with
  | nil => rfl
  | cons b bs ih =>
    rw [bytesOf_cons, List.length_append, ih, bytes128_length, List.length_cons]
    omega

@[simp] theorem blocksOf_length (n : Nat) (s : List Byte) : (blocksOf n s).length = n := by
  induction n generalizing s with
  | zero => rfl
  | succ n ih => simp [blocksOf, ih]

@[simp] theorem counterBlocks_length (n : Nat) (cb : Block) : (counterBlocks n cb).length = n := by
  induction n generalizing cb with
  | zero => rfl
  | succ n ih => simp [counterBlocks, ih]

theorem zpad_length (s : List Byte) : (zpad s).length % 16 = 0 := by
  simp only [zpad, List.length_append, zeros_length]
  omega

theorem be128_append_one (s : List Byte) (b : Byte) : be128 (s ++ [b]) = (be128 s <<< 8) ||| b.setWidth 128 := by
  simp [be128]

/-- Bit `i` of a byte string read as a block is bit `i mod 8` of its byte `i / 8` counted from the end. -/
theorem be128_getLsbD (s : List Byte) (i : Nat) (hi : i < 128) :
    (be128 s).getLsbD i = (s.reverse.getD (i / 8) 0).getLsbD (i % 8) := by
  generalize hr : s.reverse = r
  obtain rfl : s = r.reverse := by simp [← hr]
  clear hr
  induction r generalizing i with
  | nil => simp [be128]
  | cons b r ih =>
    rw [List.reverse_cons, be128_append_one]
    by_cases h : i < 8
    · have h0 : i / 8 = 0 := by omega
      have h1 : i % 8 = i := by omega
      simp [h, h0, h1, hi]
    · have h0 : i / 8 = (i - 8) / 8 + 1 := by omega
      have h1 : i % 8 = (i - 8) % 8 := by omega
      have hb : b.getLsbD i = false := BitVec.getLsbD_of_ge b i (by omega)
      simp only [BitVec.getLsbD_or, BitVec.getLsbD_shiftLeft, BitVec.getLsbD_setWidth, hb, Bool.and_false, Bool.or_false,
        ih (i - 8) (by omega)]
      simp [h, hi, h0, ← h1]

theorem bytes128_getElem (v : Block) (i : Nat) (h : i < (bytes128 v).length) :
    (bytes128 v)[i] = v.extractLsb' (120 - 8 * i) 8 := by
  simp [bytes128]

/-- The bytes of a block, read as a block, are the block. -/
@[simp] theorem be128_bytes128 (b : Block) : be128 (bytes128 b) = b := by
  apply BitVec.eq_of_getLsbD_eq
  intro i hi
  have h : 15 - i / 8 < (bytes128 b).length := by simp; omega
  have h8 : i / 8 < 16 := by omega
  have e : (bytes128 b).reverse.getD (i / 8) 0 = (bytes128 b)[15 - i / 8] := by
    simp [h8]
  rw [be128_getLsbD _ _ hi, e, bytes128_getElem, BitVec.getLsbD_extractLsb']
  have : 120 - 8 * (15 - i / 8) + i % 8 = i := by omega
  simp [this]
  omega

/-- Sixteen bytes, read as a block and written out again, are the same bytes. -/
theorem bytes128_be128 (s : List Byte) (h : s.length = 16) : bytes128 (be128 s) = s := by
  apply List.ext_getElem (by simp [h])
  intro i h1 h2
  rw [bytes128_getElem]
  apply BitVec.eq_of_getLsbD_eq
  intro j hj
  have hk : (120 - 8 * i + j) / 8 = 15 - i := by omega
  have hm : (120 - 8 * i + j) % 8 = j := by omega
  have hi : 15 - (15 - i) = i := by omega
  have hl : 15 - i < 16 := by omega
  rw [BitVec.getLsbD_extractLsb', be128_getLsbD _ _ (by omega), hk, hm]
  simp [hj, h, hl, hi]

/-- The blocks of the bytes of blocks are those blocks. -/
theorem blocksOf_bytesOf (bs : List Block) : blocksOf bs.length (bytesOf bs) = bs := by
  induction bs with
  | nil => rfl
  | cons b bs ih => simp [blocksOf, ih]

/-- The bytes of the blocks of an aligned string are that string (R150). -/
theorem bytesOf_blocksOf (n : Nat) (s : List Byte) (h : s.length = 16 * n) : bytesOf (blocksOf n s) = s := by
  induction n generalizing s with
  | zero => simp_all [blocksOf]
  | succ n ih =>
    rw [blocksOf, bytesOf_cons, bytes128_be128 _ (by simp; omega), ih _ (by simp; omega), List.take_append_drop]

end Sys2Proof.Machine
end

