-- ==== Sys2Proof/Laws/State.lean ====
section
/-! SUPPORT. One lemma per field per update of the state, so that no later proof unfolds a record update. -/

namespace Sys2Proof.Machine

/-! ## `State.writeOut` -/

@[simp] theorem State.writeOut_cfg (s : State) (v : List Byte) : (s.writeOut v).cfg = s.cfg := rfl
@[simp] theorem State.writeOut_busy (s : State) (v : List Byte) : (s.writeOut v).busy = s.busy := rfl
@[simp] theorem State.writeOut_done (s : State) (v : List Byte) : (s.writeOut v).done = s.done := rfl
@[simp] theorem State.writeOut_err (s : State) (v : List Byte) : (s.writeOut v).err = s.err := rfl
@[simp] theorem State.writeOut_rkValid (s : State) (v : List Byte) : (s.writeOut v).rkValid = s.rkValid := rfl
@[simp] theorem State.writeOut_tblValid (s : State) (v : List Byte) : (s.writeOut v).tblValid = s.tblValid := rfl
@[simp] theorem State.writeOut_cmdw (s : State) (v : List Byte) : (s.writeOut v).cmdw = s.cmdw := rfl
@[simp] theorem State.writeOut_keyLen (s : State) (v : List Byte) : (s.writeOut v).keyLen = s.keyLen := rfl
@[simp] theorem State.writeOut_ivLen (s : State) (v : List Byte) : (s.writeOut v).ivLen = s.ivLen := rfl
@[simp] theorem State.writeOut_aadLen (s : State) (v : List Byte) : (s.writeOut v).aadLen = s.aadLen := rfl
@[simp] theorem State.writeOut_inLen (s : State) (v : List Byte) : (s.writeOut v).inLen = s.inLen := rfl
@[simp] theorem State.writeOut_outLen (s : State) (v : List Byte) : (s.writeOut v).outLen = s.outLen := rfl
@[simp] theorem State.writeOut_tagIn (s : State) (v : List Byte) : (s.writeOut v).tagIn = s.tagIn := rfl
@[simp] theorem State.writeOut_tagOut (s : State) (v : List Byte) : (s.writeOut v).tagOut = s.tagOut := rfl
@[simp] theorem State.writeOut_tagOutWritten (s : State) (v : List Byte) : (s.writeOut v).tagOutWritten = s.tagOutWritten := rfl
@[simp] theorem State.writeOut_rk (s : State) (v : List Byte) : (s.writeOut v).rk = s.rk := rfl
@[simp] theorem State.writeOut_tblD (s : State) (v : List Byte) : (s.writeOut v).tblD = s.tblD := rfl
@[simp] theorem State.writeOut_tblK (s : State) (v : List Byte) : (s.writeOut v).tblK = s.tblK := rfl
@[simp] theorem State.writeOut_keyBuf (s : State) (v : List Byte) : (s.writeOut v).keyBuf = s.keyBuf := rfl
@[simp] theorem State.writeOut_ivBuf (s : State) (v : List Byte) : (s.writeOut v).ivBuf = s.ivBuf := rfl
@[simp] theorem State.writeOut_aadBuf (s : State) (v : List Byte) : (s.writeOut v).aadBuf = s.aadBuf := rfl
@[simp] theorem State.writeOut_inBuf (s : State) (v : List Byte) : (s.writeOut v).inBuf = s.inBuf := rfl
@[simp] theorem State.writeOut_outBuf (s : State) (v : List Byte) : (s.writeOut v).outBuf = Memory.writeBytes s.outBuf 0 v := rfl
@[simp] theorem State.writeOut_work (s : State) (v : List Byte) : (s.writeOut v).work = s.work := rfl
@[simp] theorem State.writeOut_inputs (s : State) (v : List Byte) : (s.writeOut v).inputs = s.inputs := rfl
@[simp] theorem State.writeOut_responses (s : State) (v : List Byte) : (s.writeOut v).responses = s.responses := rfl
@[simp] theorem State.writeOut_delay (s : State) (v : List Byte) : (s.writeOut v).delay = s.delay := rfl
@[simp] theorem State.writeOut_fresh (s : State) (v : List Byte) : (s.writeOut v).fresh = s.fresh := rfl
@[simp] theorem State.writeOut_epoch (s : State) (v : List Byte) : (s.writeOut v).epoch = s.epoch := rfl

/-! ## `State.loadRk` -/

@[simp] theorem State.loadRk_cfg (s : State) (r : Vector Word 32) : (s.loadRk r).cfg = s.cfg := rfl
@[simp] theorem State.loadRk_busy (s : State) (r : Vector Word 32) : (s.loadRk r).busy = s.busy := rfl
@[simp] theorem State.loadRk_done (s : State) (r : Vector Word 32) : (s.loadRk r).done = s.done := rfl
@[simp] theorem State.loadRk_err (s : State) (r : Vector Word 32) : (s.loadRk r).err = s.err := rfl
@[simp] theorem State.loadRk_rkValid (s : State) (r : Vector Word 32) : (s.loadRk r).rkValid = true := rfl
@[simp] theorem State.loadRk_tblValid (s : State) (r : Vector Word 32) : (s.loadRk r).tblValid = s.tblValid := rfl
@[simp] theorem State.loadRk_cmdw (s : State) (r : Vector Word 32) : (s.loadRk r).cmdw = s.cmdw := rfl
@[simp] theorem State.loadRk_keyLen (s : State) (r : Vector Word 32) : (s.loadRk r).keyLen = s.keyLen := rfl
@[simp] theorem State.loadRk_ivLen (s : State) (r : Vector Word 32) : (s.loadRk r).ivLen = s.ivLen := rfl
@[simp] theorem State.loadRk_aadLen (s : State) (r : Vector Word 32) : (s.loadRk r).aadLen = s.aadLen := rfl
@[simp] theorem State.loadRk_inLen (s : State) (r : Vector Word 32) : (s.loadRk r).inLen = s.inLen := rfl
@[simp] theorem State.loadRk_outLen (s : State) (r : Vector Word 32) : (s.loadRk r).outLen = s.outLen := rfl
@[simp] theorem State.loadRk_tagIn (s : State) (r : Vector Word 32) : (s.loadRk r).tagIn = s.tagIn := rfl
@[simp] theorem State.loadRk_tagOut (s : State) (r : Vector Word 32) : (s.loadRk r).tagOut = s.tagOut := rfl
@[simp] theorem State.loadRk_tagOutWritten (s : State) (r : Vector Word 32) : (s.loadRk r).tagOutWritten = s.tagOutWritten := rfl
@[simp] theorem State.loadRk_rk (s : State) (r : Vector Word 32) : (s.loadRk r).rk = r := rfl
@[simp] theorem State.loadRk_tblD (s : State) (r : Vector Word 32) : (s.loadRk r).tblD = s.tblD := rfl
@[simp] theorem State.loadRk_tblK (s : State) (r : Vector Word 32) : (s.loadRk r).tblK = s.tblK := rfl
@[simp] theorem State.loadRk_keyBuf (s : State) (r : Vector Word 32) : (s.loadRk r).keyBuf = s.keyBuf := rfl
@[simp] theorem State.loadRk_ivBuf (s : State) (r : Vector Word 32) : (s.loadRk r).ivBuf = s.ivBuf := rfl
@[simp] theorem State.loadRk_aadBuf (s : State) (r : Vector Word 32) : (s.loadRk r).aadBuf = s.aadBuf := rfl
@[simp] theorem State.loadRk_inBuf (s : State) (r : Vector Word 32) : (s.loadRk r).inBuf = s.inBuf := rfl
@[simp] theorem State.loadRk_outBuf (s : State) (r : Vector Word 32) : (s.loadRk r).outBuf = s.outBuf := rfl
@[simp] theorem State.loadRk_work (s : State) (r : Vector Word 32) : (s.loadRk r).work = s.work := rfl
@[simp] theorem State.loadRk_inputs (s : State) (r : Vector Word 32) : (s.loadRk r).inputs = s.inputs := rfl
@[simp] theorem State.loadRk_responses (s : State) (r : Vector Word 32) : (s.loadRk r).responses = s.responses := rfl
@[simp] theorem State.loadRk_delay (s : State) (r : Vector Word 32) : (s.loadRk r).delay = s.delay := rfl
@[simp] theorem State.loadRk_fresh (s : State) (r : Vector Word 32) : (s.loadRk r).fresh = s.fresh := rfl
@[simp] theorem State.loadRk_epoch (s : State) (r : Vector Word 32) : (s.loadRk r).epoch = s.epoch := rfl
@[simp] theorem State.loadRk_buffer (s : State) (r : Vector Word 32) (c : Buffer) : (s.loadRk r).buffer c = s.buffer c := by cases c <;> rfl
@[simp] theorem State.loadRk_byteAt (s : State) (r : Vector Word 32) (c : Buffer) (i : Nat) : (s.loadRk r).byteAt c i = s.byteAt c i := by cases c <;> rfl
@[simp] theorem State.loadRk_readBytes (s : State) (r : Vector Word 32) (c : Buffer) (k : Nat) : (s.loadRk r).readBytes c k = s.readBytes c k := by cases c <;> rfl

/-! ## `State.buildTables` -/

@[simp] theorem State.buildTables_cfg (s : State) : (s.buildTables).cfg = s.cfg := rfl
@[simp] theorem State.buildTables_busy (s : State) : (s.buildTables).busy = s.busy := rfl
@[simp] theorem State.buildTables_done (s : State) : (s.buildTables).done = s.done := rfl
@[simp] theorem State.buildTables_err (s : State) : (s.buildTables).err = s.err := rfl
@[simp] theorem State.buildTables_rkValid (s : State) : (s.buildTables).rkValid = s.rkValid := rfl
@[simp] theorem State.buildTables_tblValid (s : State) : (s.buildTables).tblValid = true := rfl
@[simp] theorem State.buildTables_cmdw (s : State) : (s.buildTables).cmdw = s.cmdw := rfl
@[simp] theorem State.buildTables_keyLen (s : State) : (s.buildTables).keyLen = s.keyLen := rfl
@[simp] theorem State.buildTables_ivLen (s : State) : (s.buildTables).ivLen = s.ivLen := rfl
@[simp] theorem State.buildTables_aadLen (s : State) : (s.buildTables).aadLen = s.aadLen := rfl
@[simp] theorem State.buildTables_inLen (s : State) : (s.buildTables).inLen = s.inLen := rfl
@[simp] theorem State.buildTables_outLen (s : State) : (s.buildTables).outLen = s.outLen := rfl
@[simp] theorem State.buildTables_tagIn (s : State) : (s.buildTables).tagIn = s.tagIn := rfl
@[simp] theorem State.buildTables_tagOut (s : State) : (s.buildTables).tagOut = s.tagOut := rfl
@[simp] theorem State.buildTables_tagOutWritten (s : State) : (s.buildTables).tagOutWritten = s.tagOutWritten := rfl
@[simp] theorem State.buildTables_rk (s : State) : (s.buildTables).rk = s.rk := rfl
@[simp] theorem State.buildTables_tblD (s : State) : (s.buildTables).tblD = tableD := rfl
@[simp] theorem State.buildTables_tblK (s : State) : (s.buildTables).tblK = tableK := rfl
@[simp] theorem State.buildTables_keyBuf (s : State) : (s.buildTables).keyBuf = s.keyBuf := rfl
@[simp] theorem State.buildTables_ivBuf (s : State) : (s.buildTables).ivBuf = s.ivBuf := rfl
@[simp] theorem State.buildTables_aadBuf (s : State) : (s.buildTables).aadBuf = s.aadBuf := rfl
@[simp] theorem State.buildTables_inBuf (s : State) : (s.buildTables).inBuf = s.inBuf := rfl
@[simp] theorem State.buildTables_outBuf (s : State) : (s.buildTables).outBuf = s.outBuf := rfl
@[simp] theorem State.buildTables_work (s : State) : (s.buildTables).work = s.work := rfl
@[simp] theorem State.buildTables_inputs (s : State) : (s.buildTables).inputs = s.inputs := rfl
@[simp] theorem State.buildTables_responses (s : State) : (s.buildTables).responses = s.responses := rfl
@[simp] theorem State.buildTables_delay (s : State) : (s.buildTables).delay = s.delay := rfl
@[simp] theorem State.buildTables_fresh (s : State) : (s.buildTables).fresh = s.fresh := rfl
@[simp] theorem State.buildTables_epoch (s : State) : (s.buildTables).epoch = s.epoch := rfl
@[simp] theorem State.buildTables_buffer (s : State) (c : Buffer) : (s.buildTables).buffer c = s.buffer c := by cases c <;> rfl
@[simp] theorem State.buildTables_byteAt (s : State) (c : Buffer) (i : Nat) : (s.buildTables).byteAt c i = s.byteAt c i := by cases c <;> rfl
@[simp] theorem State.buildTables_readBytes (s : State) (c : Buffer) (k : Nat) : (s.buildTables).readBytes c k = s.readBytes c k := by cases c <;> rfl

/-! ## `State.setTagOut` -/

@[simp] theorem State.setTagOut_cfg (s : State) (t : Vector Word 4) : (s.setTagOut t).cfg = s.cfg := rfl
@[simp] theorem State.setTagOut_busy (s : State) (t : Vector Word 4) : (s.setTagOut t).busy = s.busy := rfl
@[simp] theorem State.setTagOut_done (s : State) (t : Vector Word 4) : (s.setTagOut t).done = s.done := rfl
@[simp] theorem State.setTagOut_err (s : State) (t : Vector Word 4) : (s.setTagOut t).err = s.err := rfl
@[simp] theorem State.setTagOut_rkValid (s : State) (t : Vector Word 4) : (s.setTagOut t).rkValid = s.rkValid := rfl
@[simp] theorem State.setTagOut_tblValid (s : State) (t : Vector Word 4) : (s.setTagOut t).tblValid = s.tblValid := rfl
@[simp] theorem State.setTagOut_cmdw (s : State) (t : Vector Word 4) : (s.setTagOut t).cmdw = s.cmdw := rfl
@[simp] theorem State.setTagOut_keyLen (s : State) (t : Vector Word 4) : (s.setTagOut t).keyLen = s.keyLen := rfl
@[simp] theorem State.setTagOut_ivLen (s : State) (t : Vector Word 4) : (s.setTagOut t).ivLen = s.ivLen := rfl
@[simp] theorem State.setTagOut_aadLen (s : State) (t : Vector Word 4) : (s.setTagOut t).aadLen = s.aadLen := rfl
@[simp] theorem State.setTagOut_inLen (s : State) (t : Vector Word 4) : (s.setTagOut t).inLen = s.inLen := rfl
@[simp] theorem State.setTagOut_outLen (s : State) (t : Vector Word 4) : (s.setTagOut t).outLen = s.outLen := rfl
@[simp] theorem State.setTagOut_tagIn (s : State) (t : Vector Word 4) : (s.setTagOut t).tagIn = s.tagIn := rfl
@[simp] theorem State.setTagOut_tagOut (s : State) (t : Vector Word 4) : (s.setTagOut t).tagOut = t := rfl
@[simp] theorem State.setTagOut_tagOutWritten (s : State) (t : Vector Word 4) : (s.setTagOut t).tagOutWritten = true := rfl
@[simp] theorem State.setTagOut_rk (s : State) (t : Vector Word 4) : (s.setTagOut t).rk = s.rk := rfl
@[simp] theorem State.setTagOut_tblD (s : State) (t : Vector Word 4) : (s.setTagOut t).tblD = s.tblD := rfl
@[simp] theorem State.setTagOut_tblK (s : State) (t : Vector Word 4) : (s.setTagOut t).tblK = s.tblK := rfl
@[simp] theorem State.setTagOut_keyBuf (s : State) (t : Vector Word 4) : (s.setTagOut t).keyBuf = s.keyBuf := rfl
@[simp] theorem State.setTagOut_ivBuf (s : State) (t : Vector Word 4) : (s.setTagOut t).ivBuf = s.ivBuf := rfl
@[simp] theorem State.setTagOut_aadBuf (s : State) (t : Vector Word 4) : (s.setTagOut t).aadBuf = s.aadBuf := rfl
@[simp] theorem State.setTagOut_inBuf (s : State) (t : Vector Word 4) : (s.setTagOut t).inBuf = s.inBuf := rfl
@[simp] theorem State.setTagOut_outBuf (s : State) (t : Vector Word 4) : (s.setTagOut t).outBuf = s.outBuf := rfl
@[simp] theorem State.setTagOut_work (s : State) (t : Vector Word 4) : (s.setTagOut t).work = s.work := rfl
@[simp] theorem State.setTagOut_inputs (s : State) (t : Vector Word 4) : (s.setTagOut t).inputs = s.inputs := rfl
@[simp] theorem State.setTagOut_responses (s : State) (t : Vector Word 4) : (s.setTagOut t).responses = s.responses := rfl
@[simp] theorem State.setTagOut_delay (s : State) (t : Vector Word 4) : (s.setTagOut t).delay = s.delay := rfl
@[simp] theorem State.setTagOut_fresh (s : State) (t : Vector Word 4) : (s.setTagOut t).fresh = s.fresh := rfl
@[simp] theorem State.setTagOut_epoch (s : State) (t : Vector Word 4) : (s.setTagOut t).epoch = s.epoch := rfl
@[simp] theorem State.setTagOut_buffer (s : State) (t : Vector Word 4) (c : Buffer) : (s.setTagOut t).buffer c = s.buffer c := by cases c <;> rfl
@[simp] theorem State.setTagOut_byteAt (s : State) (t : Vector Word 4) (c : Buffer) (i : Nat) : (s.setTagOut t).byteAt c i = s.byteAt c i := by cases c <;> rfl
@[simp] theorem State.setTagOut_readBytes (s : State) (t : Vector Word 4) (c : Buffer) (k : Nat) : (s.setTagOut t).readBytes c k = s.readBytes c k := by cases c <;> rfl

/-! ## `State.respond` -/

@[simp] theorem State.respond_cfg (s : State) (d : PortData) : (s.respond d).cfg = s.cfg := rfl
@[simp] theorem State.respond_busy (s : State) (d : PortData) : (s.respond d).busy = s.busy := rfl
@[simp] theorem State.respond_done (s : State) (d : PortData) : (s.respond d).done = s.done := rfl
@[simp] theorem State.respond_err (s : State) (d : PortData) : (s.respond d).err = s.err := rfl
@[simp] theorem State.respond_rkValid (s : State) (d : PortData) : (s.respond d).rkValid = s.rkValid := rfl
@[simp] theorem State.respond_tblValid (s : State) (d : PortData) : (s.respond d).tblValid = s.tblValid := rfl
@[simp] theorem State.respond_cmdw (s : State) (d : PortData) : (s.respond d).cmdw = s.cmdw := rfl
@[simp] theorem State.respond_keyLen (s : State) (d : PortData) : (s.respond d).keyLen = s.keyLen := rfl
@[simp] theorem State.respond_ivLen (s : State) (d : PortData) : (s.respond d).ivLen = s.ivLen := rfl
@[simp] theorem State.respond_aadLen (s : State) (d : PortData) : (s.respond d).aadLen = s.aadLen := rfl
@[simp] theorem State.respond_inLen (s : State) (d : PortData) : (s.respond d).inLen = s.inLen := rfl
@[simp] theorem State.respond_outLen (s : State) (d : PortData) : (s.respond d).outLen = s.outLen := rfl
@[simp] theorem State.respond_tagIn (s : State) (d : PortData) : (s.respond d).tagIn = s.tagIn := rfl
@[simp] theorem State.respond_tagOut (s : State) (d : PortData) : (s.respond d).tagOut = s.tagOut := rfl
@[simp] theorem State.respond_tagOutWritten (s : State) (d : PortData) : (s.respond d).tagOutWritten = s.tagOutWritten := rfl
@[simp] theorem State.respond_rk (s : State) (d : PortData) : (s.respond d).rk = s.rk := rfl
@[simp] theorem State.respond_tblD (s : State) (d : PortData) : (s.respond d).tblD = s.tblD := rfl
@[simp] theorem State.respond_tblK (s : State) (d : PortData) : (s.respond d).tblK = s.tblK := rfl
@[simp] theorem State.respond_keyBuf (s : State) (d : PortData) : (s.respond d).keyBuf = s.keyBuf := rfl
@[simp] theorem State.respond_ivBuf (s : State) (d : PortData) : (s.respond d).ivBuf = s.ivBuf := rfl
@[simp] theorem State.respond_aadBuf (s : State) (d : PortData) : (s.respond d).aadBuf = s.aadBuf := rfl
@[simp] theorem State.respond_inBuf (s : State) (d : PortData) : (s.respond d).inBuf = s.inBuf := rfl
@[simp] theorem State.respond_outBuf (s : State) (d : PortData) : (s.respond d).outBuf = s.outBuf := rfl
@[simp] theorem State.respond_work (s : State) (d : PortData) : (s.respond d).work = s.work := rfl
@[simp] theorem State.respond_inputs (s : State) (d : PortData) : (s.respond d).inputs = s.inputs := rfl
@[simp] theorem State.respond_responses (s : State) (d : PortData) : (s.respond d).responses = d :: s.responses := rfl
@[simp] theorem State.respond_delay (s : State) (d : PortData) : (s.respond d).delay = s.delay := rfl
@[simp] theorem State.respond_fresh (s : State) (d : PortData) : (s.respond d).fresh = s.fresh := rfl
@[simp] theorem State.respond_epoch (s : State) (d : PortData) : (s.respond d).epoch = s.epoch := rfl
@[simp] theorem State.respond_buffer (s : State) (d : PortData) (c : Buffer) : (s.respond d).buffer c = s.buffer c := by cases c <;> rfl
@[simp] theorem State.respond_byteAt (s : State) (d : PortData) (c : Buffer) (i : Nat) : (s.respond d).byteAt c i = s.byteAt c i := by cases c <;> rfl
@[simp] theorem State.respond_readBytes (s : State) (d : PortData) (c : Buffer) (k : Nat) : (s.respond d).readBytes c k = s.readBytes c k := by cases c <;> rfl

/-! ## `State.latch` -/

@[simp] theorem State.latch_cfg (s : State) (w : Word) (n : Nat) : (s.latch w n).cfg = s.cfg := rfl
@[simp] theorem State.latch_busy (s : State) (w : Word) (n : Nat) : (s.latch w n).busy = true := rfl
@[simp] theorem State.latch_done (s : State) (w : Word) (n : Nat) : (s.latch w n).done = false := rfl
@[simp] theorem State.latch_err (s : State) (w : Word) (n : Nat) : (s.latch w n).err = .noError := rfl
@[simp] theorem State.latch_rkValid (s : State) (w : Word) (n : Nat) : (s.latch w n).rkValid = s.rkValid := rfl
@[simp] theorem State.latch_tblValid (s : State) (w : Word) (n : Nat) : (s.latch w n).tblValid = s.tblValid := rfl
@[simp] theorem State.latch_cmdw (s : State) (w : Word) (n : Nat) : (s.latch w n).cmdw = w := rfl
@[simp] theorem State.latch_keyLen (s : State) (w : Word) (n : Nat) : (s.latch w n).keyLen = s.keyLen := rfl
@[simp] theorem State.latch_ivLen (s : State) (w : Word) (n : Nat) : (s.latch w n).ivLen = s.ivLen := rfl
@[simp] theorem State.latch_aadLen (s : State) (w : Word) (n : Nat) : (s.latch w n).aadLen = s.aadLen := rfl
@[simp] theorem State.latch_inLen (s : State) (w : Word) (n : Nat) : (s.latch w n).inLen = s.inLen := rfl
@[simp] theorem State.latch_outLen (s : State) (w : Word) (n : Nat) : (s.latch w n).outLen = s.outLen := rfl
@[simp] theorem State.latch_tagIn (s : State) (w : Word) (n : Nat) : (s.latch w n).tagIn = s.tagIn := rfl
@[simp] theorem State.latch_tagOut (s : State) (w : Word) (n : Nat) : (s.latch w n).tagOut = s.tagOut := rfl
@[simp] theorem State.latch_tagOutWritten (s : State) (w : Word) (n : Nat) : (s.latch w n).tagOutWritten = s.tagOutWritten := rfl
@[simp] theorem State.latch_rk (s : State) (w : Word) (n : Nat) : (s.latch w n).rk = s.rk := rfl
@[simp] theorem State.latch_tblD (s : State) (w : Word) (n : Nat) : (s.latch w n).tblD = s.tblD := rfl
@[simp] theorem State.latch_tblK (s : State) (w : Word) (n : Nat) : (s.latch w n).tblK = s.tblK := rfl
@[simp] theorem State.latch_keyBuf (s : State) (w : Word) (n : Nat) : (s.latch w n).keyBuf = s.keyBuf := rfl
@[simp] theorem State.latch_ivBuf (s : State) (w : Word) (n : Nat) : (s.latch w n).ivBuf = s.ivBuf := rfl
@[simp] theorem State.latch_aadBuf (s : State) (w : Word) (n : Nat) : (s.latch w n).aadBuf = s.aadBuf := rfl
@[simp] theorem State.latch_inBuf (s : State) (w : Word) (n : Nat) : (s.latch w n).inBuf = s.inBuf := rfl
@[simp] theorem State.latch_outBuf (s : State) (w : Word) (n : Nat) : (s.latch w n).outBuf = s.outBuf := rfl
@[simp] theorem State.latch_work (s : State) (w : Word) (n : Nat) : (s.latch w n).work = s.work := rfl
@[simp] theorem State.latch_inputs (s : State) (w : Word) (n : Nat) : (s.latch w n).inputs = s.inputs := rfl
@[simp] theorem State.latch_responses (s : State) (w : Word) (n : Nat) : (s.latch w n).responses = s.responses := rfl
@[simp] theorem State.latch_delay (s : State) (w : Word) (n : Nat) : (s.latch w n).delay = n := rfl
@[simp] theorem State.latch_fresh (s : State) (w : Word) (n : Nat) : (s.latch w n).fresh = s.fresh := rfl
@[simp] theorem State.latch_epoch (s : State) (w : Word) (n : Nat) : (s.latch w n).epoch = s.epoch := rfl
@[simp] theorem State.latch_buffer (s : State) (w : Word) (n : Nat) (c : Buffer) : (s.latch w n).buffer c = s.buffer c := by cases c <;> rfl
@[simp] theorem State.latch_byteAt (s : State) (w : Word) (n : Nat) (c : Buffer) (i : Nat) : (s.latch w n).byteAt c i = s.byteAt c i := by cases c <;> rfl
@[simp] theorem State.latch_readBytes (s : State) (w : Word) (n : Nat) (c : Buffer) (k : Nat) : (s.latch w n).readBytes c k = s.readBytes c k := by cases c <;> rfl

/-! ## `State.accept` -/

@[simp] theorem State.accept_cfg (s : State) (w : Word) : (s.accept w).cfg = s.cfg := rfl
@[simp] theorem State.accept_busy (s : State) (w : Word) : (s.accept w).busy = true := rfl
@[simp] theorem State.accept_done (s : State) (w : Word) : (s.accept w).done = false := rfl
@[simp] theorem State.accept_err (s : State) (w : Word) : (s.accept w).err = .noError := rfl
@[simp] theorem State.accept_rkValid (s : State) (w : Word) : (s.accept w).rkValid = s.rkValid := rfl
@[simp] theorem State.accept_tblValid (s : State) (w : Word) : (s.accept w).tblValid = s.tblValid := rfl
@[simp] theorem State.accept_cmdw (s : State) (w : Word) : (s.accept w).cmdw = w := rfl
@[simp] theorem State.accept_keyLen (s : State) (w : Word) : (s.accept w).keyLen = s.keyLen := rfl
@[simp] theorem State.accept_ivLen (s : State) (w : Word) : (s.accept w).ivLen = s.ivLen := rfl
@[simp] theorem State.accept_aadLen (s : State) (w : Word) : (s.accept w).aadLen = s.aadLen := rfl
@[simp] theorem State.accept_inLen (s : State) (w : Word) : (s.accept w).inLen = s.inLen := rfl
@[simp] theorem State.accept_outLen (s : State) (w : Word) : (s.accept w).outLen = s.outLen := rfl
@[simp] theorem State.accept_tagIn (s : State) (w : Word) : (s.accept w).tagIn = s.tagIn := rfl
@[simp] theorem State.accept_tagOut (s : State) (w : Word) : (s.accept w).tagOut = s.tagOut := rfl
@[simp] theorem State.accept_tagOutWritten (s : State) (w : Word) : (s.accept w).tagOutWritten = s.tagOutWritten := rfl
@[simp] theorem State.accept_rk (s : State) (w : Word) : (s.accept w).rk = s.rk := rfl
@[simp] theorem State.accept_tblD (s : State) (w : Word) : (s.accept w).tblD = s.tblD := rfl
@[simp] theorem State.accept_tblK (s : State) (w : Word) : (s.accept w).tblK = s.tblK := rfl
@[simp] theorem State.accept_keyBuf (s : State) (w : Word) : (s.accept w).keyBuf = s.keyBuf := rfl
@[simp] theorem State.accept_ivBuf (s : State) (w : Word) : (s.accept w).ivBuf = s.ivBuf := rfl
@[simp] theorem State.accept_aadBuf (s : State) (w : Word) : (s.accept w).aadBuf = s.aadBuf := rfl
@[simp] theorem State.accept_inBuf (s : State) (w : Word) : (s.accept w).inBuf = s.inBuf := rfl
@[simp] theorem State.accept_outBuf (s : State) (w : Word) : (s.accept w).outBuf = s.outBuf := rfl
@[simp] theorem State.accept_work (s : State) (w : Word) : (s.accept w).work = s.work := rfl
@[simp] theorem State.accept_inputs (s : State) (w : Word) : (s.accept w).inputs = s.inputs := rfl
@[simp] theorem State.accept_responses (s : State) (w : Word) : (s.accept w).responses = s.responses := rfl
@[simp] theorem State.accept_delay (s : State) (w : Word) : (s.accept w).delay = Config.freeDelay s.fresh := rfl
@[simp] theorem State.accept_fresh (s : State) (w : Word) : (s.accept w).fresh = s.fresh + 1 := rfl
@[simp] theorem State.accept_epoch (s : State) (w : Word) : (s.accept w).epoch = s.epoch := rfl
@[simp] theorem State.accept_buffer (s : State) (w : Word) (c : Buffer) : (s.accept w).buffer c = s.buffer c := by cases c <;> rfl
@[simp] theorem State.accept_byteAt (s : State) (w : Word) (c : Buffer) (i : Nat) : (s.accept w).byteAt c i = s.byteAt c i := by cases c <;> rfl
@[simp] theorem State.accept_readBytes (s : State) (w : Word) (c : Buffer) (k : Nat) : (s.accept w).readBytes c k = s.readBytes c k := by cases c <;> rfl

/-! ## `State.settle` -/

@[simp] theorem State.settle_cfg (s : State) (e : Err) (n : Word) : (s.settle e n).cfg = s.cfg := rfl
@[simp] theorem State.settle_busy (s : State) (e : Err) (n : Word) : (s.settle e n).busy = false := rfl
@[simp] theorem State.settle_done (s : State) (e : Err) (n : Word) : (s.settle e n).done = true := rfl
@[simp] theorem State.settle_err (s : State) (e : Err) (n : Word) : (s.settle e n).err = e := rfl
@[simp] theorem State.settle_rkValid (s : State) (e : Err) (n : Word) : (s.settle e n).rkValid = s.rkValid := rfl
@[simp] theorem State.settle_tblValid (s : State) (e : Err) (n : Word) : (s.settle e n).tblValid = s.tblValid := rfl
@[simp] theorem State.settle_cmdw (s : State) (e : Err) (n : Word) : (s.settle e n).cmdw = 0 := rfl
@[simp] theorem State.settle_keyLen (s : State) (e : Err) (n : Word) : (s.settle e n).keyLen = s.keyLen := rfl
@[simp] theorem State.settle_ivLen (s : State) (e : Err) (n : Word) : (s.settle e n).ivLen = s.ivLen := rfl
@[simp] theorem State.settle_aadLen (s : State) (e : Err) (n : Word) : (s.settle e n).aadLen = s.aadLen := rfl
@[simp] theorem State.settle_inLen (s : State) (e : Err) (n : Word) : (s.settle e n).inLen = s.inLen := rfl
@[simp] theorem State.settle_outLen (s : State) (e : Err) (n : Word) : (s.settle e n).outLen = n := rfl
@[simp] theorem State.settle_tagIn (s : State) (e : Err) (n : Word) : (s.settle e n).tagIn = s.tagIn := rfl
@[simp] theorem State.settle_tagOut (s : State) (e : Err) (n : Word) : (s.settle e n).tagOut = s.tagOut := rfl
@[simp] theorem State.settle_tagOutWritten (s : State) (e : Err) (n : Word) : (s.settle e n).tagOutWritten = s.tagOutWritten := rfl
@[simp] theorem State.settle_rk (s : State) (e : Err) (n : Word) : (s.settle e n).rk = s.rk := rfl
@[simp] theorem State.settle_tblD (s : State) (e : Err) (n : Word) : (s.settle e n).tblD = s.tblD := rfl
@[simp] theorem State.settle_tblK (s : State) (e : Err) (n : Word) : (s.settle e n).tblK = s.tblK := rfl
@[simp] theorem State.settle_keyBuf (s : State) (e : Err) (n : Word) : (s.settle e n).keyBuf = s.keyBuf := rfl
@[simp] theorem State.settle_ivBuf (s : State) (e : Err) (n : Word) : (s.settle e n).ivBuf = s.ivBuf := rfl
@[simp] theorem State.settle_aadBuf (s : State) (e : Err) (n : Word) : (s.settle e n).aadBuf = s.aadBuf := rfl
@[simp] theorem State.settle_inBuf (s : State) (e : Err) (n : Word) : (s.settle e n).inBuf = s.inBuf := rfl
@[simp] theorem State.settle_outBuf (s : State) (e : Err) (n : Word) : (s.settle e n).outBuf = s.outBuf := rfl
@[simp] theorem State.settle_work (s : State) (e : Err) (n : Word) : (s.settle e n).work = Work.zero := rfl
@[simp] theorem State.settle_inputs (s : State) (e : Err) (n : Word) : (s.settle e n).inputs = s.inputs := rfl
@[simp] theorem State.settle_responses (s : State) (e : Err) (n : Word) : (s.settle e n).responses = s.responses := rfl
@[simp] theorem State.settle_delay (s : State) (e : Err) (n : Word) : (s.settle e n).delay = 0 := rfl
@[simp] theorem State.settle_fresh (s : State) (e : Err) (n : Word) : (s.settle e n).fresh = s.fresh := rfl
@[simp] theorem State.settle_epoch (s : State) (e : Err) (n : Word) : (s.settle e n).epoch = s.epoch := rfl
@[simp] theorem State.settle_buffer (s : State) (e : Err) (n : Word) (c : Buffer) : (s.settle e n).buffer c = s.buffer c := by cases c <;> rfl
@[simp] theorem State.settle_byteAt (s : State) (e : Err) (n : Word) (c : Buffer) (i : Nat) : (s.settle e n).byteAt c i = s.byteAt c i := by cases c <;> rfl
@[simp] theorem State.settle_readBytes (s : State) (e : Err) (n : Word) (c : Buffer) (k : Nat) : (s.settle e n).readBytes c k = s.readBytes c k := by cases c <;> rfl

/-! ## `State.abort` -/

@[simp] theorem State.abort_cfg (s : State) (e : Err) : (s.abort e).cfg = s.cfg := rfl
@[simp] theorem State.abort_busy (s : State) (e : Err) : (s.abort e).busy = false := rfl
@[simp] theorem State.abort_done (s : State) (e : Err) : (s.abort e).done = true := rfl
@[simp] theorem State.abort_err (s : State) (e : Err) : (s.abort e).err = e := rfl
@[simp] theorem State.abort_rkValid (s : State) (e : Err) : (s.abort e).rkValid = s.rkValid := rfl
@[simp] theorem State.abort_tblValid (s : State) (e : Err) : (s.abort e).tblValid = s.tblValid := rfl
@[simp] theorem State.abort_cmdw (s : State) (e : Err) : (s.abort e).cmdw = 0 := rfl
@[simp] theorem State.abort_keyLen (s : State) (e : Err) : (s.abort e).keyLen = s.keyLen := rfl
@[simp] theorem State.abort_ivLen (s : State) (e : Err) : (s.abort e).ivLen = s.ivLen := rfl
@[simp] theorem State.abort_aadLen (s : State) (e : Err) : (s.abort e).aadLen = s.aadLen := rfl
@[simp] theorem State.abort_inLen (s : State) (e : Err) : (s.abort e).inLen = s.inLen := rfl
@[simp] theorem State.abort_outLen (s : State) (e : Err) : (s.abort e).outLen = 0 := rfl
@[simp] theorem State.abort_tagIn (s : State) (e : Err) : (s.abort e).tagIn = s.tagIn := rfl
@[simp] theorem State.abort_tagOut (s : State) (e : Err) : (s.abort e).tagOut = s.tagOut := rfl
@[simp] theorem State.abort_tagOutWritten (s : State) (e : Err) : (s.abort e).tagOutWritten = s.tagOutWritten := rfl
@[simp] theorem State.abort_rk (s : State) (e : Err) : (s.abort e).rk = s.rk := rfl
@[simp] theorem State.abort_tblD (s : State) (e : Err) : (s.abort e).tblD = s.tblD := rfl
@[simp] theorem State.abort_tblK (s : State) (e : Err) : (s.abort e).tblK = s.tblK := rfl
@[simp] theorem State.abort_keyBuf (s : State) (e : Err) : (s.abort e).keyBuf = s.keyBuf := rfl
@[simp] theorem State.abort_ivBuf (s : State) (e : Err) : (s.abort e).ivBuf = s.ivBuf := rfl
@[simp] theorem State.abort_aadBuf (s : State) (e : Err) : (s.abort e).aadBuf = s.aadBuf := rfl
@[simp] theorem State.abort_inBuf (s : State) (e : Err) : (s.abort e).inBuf = s.inBuf := rfl
@[simp] theorem State.abort_outBuf (s : State) (e : Err) : (s.abort e).outBuf = s.outBuf := rfl
@[simp] theorem State.abort_work (s : State) (e : Err) : (s.abort e).work = Work.zero := rfl
@[simp] theorem State.abort_inputs (s : State) (e : Err) : (s.abort e).inputs = s.inputs := rfl
@[simp] theorem State.abort_responses (s : State) (e : Err) : (s.abort e).responses = s.responses := rfl
@[simp] theorem State.abort_delay (s : State) (e : Err) : (s.abort e).delay = 0 := rfl
@[simp] theorem State.abort_fresh (s : State) (e : Err) : (s.abort e).fresh = s.fresh := rfl
@[simp] theorem State.abort_epoch (s : State) (e : Err) : (s.abort e).epoch = s.epoch := rfl
@[simp] theorem State.abort_buffer (s : State) (e : Err) (c : Buffer) : (s.abort e).buffer c = s.buffer c := by cases c <;> rfl
@[simp] theorem State.abort_byteAt (s : State) (e : Err) (c : Buffer) (i : Nat) : (s.abort e).byteAt c i = s.byteAt c i := by cases c <;> rfl
@[simp] theorem State.abort_readBytes (s : State) (e : Err) (c : Buffer) (k : Nat) : (s.abort e).readBytes c k = s.readBytes c k := by cases c <;> rfl

/-! ## `State.setBuffer` -/

@[simp] theorem State.setBuffer_cfg (s : State) (b : Buffer) (m : Memory) : (s.setBuffer b m).cfg = s.cfg := by cases b <;> rfl
@[simp] theorem State.setBuffer_busy (s : State) (b : Buffer) (m : Memory) : (s.setBuffer b m).busy = s.busy := by cases b <;> rfl
@[simp] theorem State.setBuffer_done (s : State) (b : Buffer) (m : Memory) : (s.setBuffer b m).done = s.done := by cases b <;> rfl
@[simp] theorem State.setBuffer_err (s : State) (b : Buffer) (m : Memory) : (s.setBuffer b m).err = s.err := by cases b <;> rfl
@[simp] theorem State.setBuffer_rkValid (s : State) (b : Buffer) (m : Memory) : (s.setBuffer b m).rkValid = s.rkValid := by cases b <;> rfl
@[simp] theorem State.setBuffer_tblValid (s : State) (b : Buffer) (m : Memory) : (s.setBuffer b m).tblValid = s.tblValid := by cases b <;> rfl
@[simp] theorem State.setBuffer_cmdw (s : State) (b : Buffer) (m : Memory) : (s.setBuffer b m).cmdw = s.cmdw := by cases b <;> rfl
@[simp] theorem State.setBuffer_keyLen (s : State) (b : Buffer) (m : Memory) : (s.setBuffer b m).keyLen = s.keyLen := by cases b <;> rfl
@[simp] theorem State.setBuffer_ivLen (s : State) (b : Buffer) (m : Memory) : (s.setBuffer b m).ivLen = s.ivLen := by cases b <;> rfl
@[simp] theorem State.setBuffer_aadLen (s : State) (b : Buffer) (m : Memory) : (s.setBuffer b m).aadLen = s.aadLen := by cases b <;> rfl
@[simp] theorem State.setBuffer_inLen (s : State) (b : Buffer) (m : Memory) : (s.setBuffer b m).inLen = s.inLen := by cases b <;> rfl
@[simp] theorem State.setBuffer_outLen (s : State) (b : Buffer) (m : Memory) : (s.setBuffer b m).outLen = s.outLen := by cases b <;> rfl
@[simp] theorem State.setBuffer_tagIn (s : State) (b : Buffer) (m : Memory) : (s.setBuffer b m).tagIn = s.tagIn := by cases b <;> rfl
@[simp] theorem State.setBuffer_tagOut (s : State) (b : Buffer) (m : Memory) : (s.setBuffer b m).tagOut = s.tagOut := by cases b <;> rfl
@[simp] theorem State.setBuffer_tagOutWritten (s : State) (b : Buffer) (m : Memory) : (s.setBuffer b m).tagOutWritten = s.tagOutWritten := by cases b <;> rfl
@[simp] theorem State.setBuffer_rk (s : State) (b : Buffer) (m : Memory) : (s.setBuffer b m).rk = s.rk := by cases b <;> rfl
@[simp] theorem State.setBuffer_tblD (s : State) (b : Buffer) (m : Memory) : (s.setBuffer b m).tblD = s.tblD := by cases b <;> rfl
@[simp] theorem State.setBuffer_tblK (s : State) (b : Buffer) (m : Memory) : (s.setBuffer b m).tblK = s.tblK := by cases b <;> rfl
@[simp] theorem State.setBuffer_work (s : State) (b : Buffer) (m : Memory) : (s.setBuffer b m).work = s.work := by cases b <;> rfl
@[simp] theorem State.setBuffer_inputs (s : State) (b : Buffer) (m : Memory) : (s.setBuffer b m).inputs = s.inputs := by cases b <;> rfl
@[simp] theorem State.setBuffer_responses (s : State) (b : Buffer) (m : Memory) : (s.setBuffer b m).responses = s.responses := by cases b <;> rfl
@[simp] theorem State.setBuffer_delay (s : State) (b : Buffer) (m : Memory) : (s.setBuffer b m).delay = s.delay := by cases b <;> rfl
@[simp] theorem State.setBuffer_fresh (s : State) (b : Buffer) (m : Memory) : (s.setBuffer b m).fresh = s.fresh := by cases b <;> rfl
@[simp] theorem State.setBuffer_epoch (s : State) (b : Buffer) (m : Memory) : (s.setBuffer b m).epoch = s.epoch := by cases b <;> rfl
@[simp] theorem State.setBuffer_buffer (s : State) (b c : Buffer) (m : Memory) :
    (s.setBuffer b m).buffer c = if c = b then m else s.buffer c := by cases b <;> cases c <;> rfl

/-! ## `State.resetInput` -/

@[simp] theorem State.resetInput_cfg (s : State) : s.resetInput.cfg = s.cfg := rfl
@[simp] theorem State.resetInput_busy (s : State) : s.resetInput.busy = State.reset.busy := rfl
@[simp] theorem State.resetInput_done (s : State) : s.resetInput.done = State.reset.done := rfl
@[simp] theorem State.resetInput_err (s : State) : s.resetInput.err = State.reset.err := rfl
@[simp] theorem State.resetInput_rkValid (s : State) : s.resetInput.rkValid = State.reset.rkValid := rfl
@[simp] theorem State.resetInput_tblValid (s : State) : s.resetInput.tblValid = State.reset.tblValid := rfl
@[simp] theorem State.resetInput_cmdw (s : State) : s.resetInput.cmdw = State.reset.cmdw := rfl
@[simp] theorem State.resetInput_keyLen (s : State) : s.resetInput.keyLen = State.reset.keyLen := rfl
@[simp] theorem State.resetInput_ivLen (s : State) : s.resetInput.ivLen = State.reset.ivLen := rfl
@[simp] theorem State.resetInput_aadLen (s : State) : s.resetInput.aadLen = State.reset.aadLen := rfl
@[simp] theorem State.resetInput_inLen (s : State) : s.resetInput.inLen = State.reset.inLen := rfl
@[simp] theorem State.resetInput_outLen (s : State) : s.resetInput.outLen = State.reset.outLen := rfl
@[simp] theorem State.resetInput_tagIn (s : State) : s.resetInput.tagIn = State.reset.tagIn := rfl
@[simp] theorem State.resetInput_tagOut (s : State) : s.resetInput.tagOut = State.reset.tagOut := rfl
@[simp] theorem State.resetInput_tagOutWritten (s : State) : s.resetInput.tagOutWritten = State.reset.tagOutWritten := rfl
@[simp] theorem State.resetInput_rk (s : State) : s.resetInput.rk = State.reset.rk := rfl
@[simp] theorem State.resetInput_tblD (s : State) : s.resetInput.tblD = State.reset.tblD := rfl
@[simp] theorem State.resetInput_tblK (s : State) : s.resetInput.tblK = State.reset.tblK := rfl
@[simp] theorem State.resetInput_keyBuf (s : State) : s.resetInput.keyBuf = State.reset.keyBuf := rfl
@[simp] theorem State.resetInput_ivBuf (s : State) : s.resetInput.ivBuf = State.reset.ivBuf := rfl
@[simp] theorem State.resetInput_aadBuf (s : State) : s.resetInput.aadBuf = State.reset.aadBuf := rfl
@[simp] theorem State.resetInput_inBuf (s : State) : s.resetInput.inBuf = State.reset.inBuf := rfl
@[simp] theorem State.resetInput_outBuf (s : State) : s.resetInput.outBuf = State.reset.outBuf := rfl
@[simp] theorem State.resetInput_work (s : State) : s.resetInput.work = State.reset.work := rfl
@[simp] theorem State.resetInput_inputs (s : State) : s.resetInput.inputs = s.inputs := rfl
@[simp] theorem State.resetInput_responses (s : State) : s.resetInput.responses = s.responses := rfl
@[simp] theorem State.resetInput_delay (s : State) : s.resetInput.delay = State.reset.delay := rfl
@[simp] theorem State.resetInput_fresh (s : State) : s.resetInput.fresh = s.fresh := rfl
@[simp] theorem State.resetInput_epoch (s : State) : s.resetInput.epoch = s.epoch + 1 := rfl

/-! ## The updates of the host port -/

@[simp] theorem State.buffer_inputs (s : State) (l : List Input) (n : Nat) (c : Buffer) :
    ({ s with inputs := l, delay := n } : State).buffer c = s.buffer c := by cases c <;> rfl

end Sys2Proof.Machine
end

