-- ==== Sys2Proof/Laws/Memory.lean ====
section
/-! SUPPORT. Buffer memory: reading after writing, the canonical form, and the bytes a buffer holds after the
updates of the state. -/

namespace Sys2Proof.Machine

theorem Memory.read_write_same (m : Memory) (a : Nat) (v : Byte) :
    Memory.read (Memory.write m a v) a = some v := by
  induction m with
  | nil => simp [Memory.write, Memory.read]
  | cons c m ih =>
    obtain ⟨b, w⟩ := c
    simp only [Memory.write]
    split
    · simp [Memory.read]
    · split
      · simp [Memory.read]
      · simp [Memory.read, *]

theorem Memory.read_write_other (m : Memory) {a a' : Nat} (v : Byte) (h : a' ≠ a) :
    Memory.read (Memory.write m a v) a' = Memory.read m a' := by
  induction m with
  | nil => simp [Memory.write, Memory.read, h]
  | cons c m ih =>
    obtain ⟨b, w⟩ := c
    simp only [Memory.write]
    split
    · simp [Memory.read, h]
    · split
      · subst_vars
        simp [Memory.read, h]
      · simp [Memory.read, ih]

theorem Memory.read_write (m : Memory) (a a' : Nat) (v : Byte) :
    Memory.read (Memory.write m a v) a' = if a' = a then some v else Memory.read m a' := by
  split
  · subst_vars
    exact Memory.read_write_same m _ v
  · exact Memory.read_write_other m v ‹_›

theorem Memory.mem_write {m : Memory} {a : Nat} {v : Byte} {c : Host.Cell} (h : c ∈ Memory.write m a v) :
    c = (a, v) ∨ c ∈ m := by
  induction m with
  | nil => simpa [Memory.write] using h
  | cons d m ih =>
    obtain ⟨b, w⟩ := d
    simp only [Memory.write] at h
    split at h
    · simpa using h
    · split at h
      · simp only [List.mem_cons] at h ⊢
        tauto
      · simp only [List.mem_cons] at h ⊢
        rcases h with h | h
        · exact .inr (.inl h)
        · rcases ih h with h | h
          · exact .inl h
          · exact .inr (.inr h)

@[simp] theorem Memory.nil_wf : Memory.wf [] := by
  simp [Memory.wf]

theorem Memory.write_wf {m : Memory} (h : Memory.wf m) (a : Nat) (v : Byte) : Memory.wf (Memory.write m a v) := by
  refine ⟨?_, by simp [Memory.unlisted]⟩
  have h := h.1
  induction m with
  | nil => simp [Memory.write]
  | cons d m ih =>
    obtain ⟨b, w⟩ := d
    rw [List.pairwise_cons] at h
    simp only [Memory.write]
    split
    · refine List.pairwise_cons.2 ⟨?_, List.pairwise_cons.2 h⟩
      intro c hc
      rcases List.mem_cons.1 hc with rfl | hc
      · assumption
      · exact lt_trans ‹a < b› (h.1 c hc)
    · split
      · subst_vars
        exact List.pairwise_cons.2 ⟨h.1, h.2⟩
      · refine List.pairwise_cons.2 ⟨?_, ih ⟨h.2, by simp [Memory.unlisted]⟩ h.2⟩
        intro c hc
        rcases Memory.mem_write hc with rfl | hc
        · exact lt_of_le_of_ne (not_lt.1 ‹_›) (Ne.symm ‹_›)
        · exact h.1 c hc

theorem Memory.writeBytes_wf {m : Memory} (h : Memory.wf m) (i : Nat) (vs : List Byte) :
    Memory.wf (Memory.writeBytes m i vs) := by
  induction vs generalizing m i with
  | nil => exact h
  | cons v vs ih => exact ih (Memory.write_wf h i v) (i + 1)

/-- A byte written by `MemWrite` reads back, every other byte is as before. -/
theorem Memory.read_writeBytes (m : Memory) (i a : Nat) (vs : List Byte) :
    Memory.read (Memory.writeBytes m i vs) a =
      if h : i ≤ a ∧ a < i + vs.length then some (vs[a - i]'(by omega)) else Memory.read m a := by
  induction vs generalizing m i with
  | nil =>
    rw [dif_neg (by simp only [List.length_nil]; omega)]
    rfl
  | cons v vs ih =>
    simp only [Memory.writeBytes, ih, Memory.read_write, List.length_cons]
    by_cases h1 : a = i
    · subst h1
      simp
    · by_cases h2 : i + 1 ≤ a ∧ a < i + 1 + vs.length
      · rw [dif_pos h2, dif_pos (by omega)]
        congr 1
        have : a - i = (a - (i + 1)) + 1 := by omega
        simp [this]
      · rw [dif_neg h2, dif_neg (by omega), if_neg h1]

theorem Memory.mem_writeBytes {m : Memory} {i : Nat} {vs : List Byte} {c : Host.Cell}
    (h : c ∈ Memory.writeBytes m i vs) : (i ≤ c.1 ∧ c.1 < i + vs.length) ∨ c ∈ m := by
  induction vs generalizing m i with
  | nil => exact .inr h
  | cons v vs ih =>
    rcases ih h with h | h
    · left
      simp only [List.length_cons]
      omega
    · rcases Memory.mem_write h with rfl | h
      · left
        simp
      · exact .inr h

theorem State.buffer_writeOut (s : State) (v : List Byte) (c : Buffer) :
    (s.writeOut v).buffer c = if c = .outBuf then Memory.writeBytes s.outBuf 0 v else s.buffer c := by
  cases c <;> rfl

/-- The engine's write leaves every input buffer as it was. -/
theorem State.byteAt_writeOut_input (s : State) (v : List Byte) {c : Buffer} (h : c ≠ .outBuf) (i : Nat) :
    (s.writeOut v).byteAt c i = s.byteAt c i := by
  cases c <;> first | rfl | exact absurd rfl h

/-- `OUTBUF` after the engine's write: the new bytes below their length, the old ones above. -/
theorem State.byteAt_writeOut_out (s : State) (v : List Byte) (i : Nat) :
    (s.writeOut v).byteAt .outBuf i = v.getD i (s.byteAt .outBuf i) := by
  simp only [State.byteAt, State.buffer, State.writeOut, Memory.read_writeBytes]
  by_cases h : i < v.length
  · simp [h]
  · simp [h]

@[simp] theorem State.readBytes_length (s : State) (b : Buffer) (n : Nat) : (s.readBytes b n).length = n := by
  simp [State.readBytes]

@[simp] theorem State.readBytes_getElem (s : State) (b : Buffer) (n i : Nat) (h : i < (s.readBytes b n).length) :
    (s.readBytes b n)[i] = s.byteAt b i := by
  simp [State.readBytes]

@[simp] theorem State.operand_length (s : State) (b : Buffer) : (s.operand b).length = (s.lengthReg b).toNat := by
  simp [State.operand]

/-- Byte strings read from buffers that agree below the length are equal. -/
theorem State.readBytes_congr {s t : State} {b c : Buffer} {n : Nat}
    (h : ∀ i < n, s.byteAt b i = t.byteAt c i) : s.readBytes b n = t.readBytes c n := by
  apply List.map_congr_left
  intro i hi
  exact h i (List.mem_range.1 hi)

end Sys2Proof.Machine
end

