-- ==== Sys2Proof/Laws/Commands.lean ====
section
/-! SUPPORT. What the frame of a command can do: the lazy table build, the key prefix, commit, abort; and `exec`
in terms of them. -/

namespace Sys2Proof.Machine

/-! ## The lazy table build (R128) -/

theorem lazyTables_cases (st : Strategy) (s : State) :
    lazyTables st s = s ∨ (st = .table ∧ s.tblValid = false ∧ lazyTables st s = s.buildTables) := by
  cases st with
  | direct => exact .inl rfl
  | batch => exact .inl rfl
  | table =>
    by_cases h : s.tblValid = true
    · simp [lazyTables, h]
    · simp [lazyTables, h]

@[simp] theorem lazyTables_cfg (st : Strategy) (s : State) : (lazyTables st s).cfg = s.cfg := by
  rcases lazyTables_cases st s with h | ⟨-, -, h⟩ <;> simp [h]
@[simp] theorem lazyTables_busy (st : Strategy) (s : State) : (lazyTables st s).busy = s.busy := by
  rcases lazyTables_cases st s with h | ⟨-, -, h⟩ <;> simp [h]
@[simp] theorem lazyTables_done (st : Strategy) (s : State) : (lazyTables st s).done = s.done := by
  rcases lazyTables_cases st s with h | ⟨-, -, h⟩ <;> simp [h]
@[simp] theorem lazyTables_err (st : Strategy) (s : State) : (lazyTables st s).err = s.err := by
  rcases lazyTables_cases st s with h | ⟨-, -, h⟩ <;> simp [h]
@[simp] theorem lazyTables_rkValid (st : Strategy) (s : State) : (lazyTables st s).rkValid = s.rkValid := by
  rcases lazyTables_cases st s with h | ⟨-, -, h⟩ <;> simp [h]
@[simp] theorem lazyTables_cmdw (st : Strategy) (s : State) : (lazyTables st s).cmdw = s.cmdw := by
  rcases lazyTables_cases st s with h | ⟨-, -, h⟩ <;> simp [h]
@[simp] theorem lazyTables_keyLen (st : Strategy) (s : State) : (lazyTables st s).keyLen = s.keyLen := by
  rcases lazyTables_cases st s with h | ⟨-, -, h⟩ <;> simp [h]
@[simp] theorem lazyTables_ivLen (st : Strategy) (s : State) : (lazyTables st s).ivLen = s.ivLen := by
  rcases lazyTables_cases st s with h | ⟨-, -, h⟩ <;> simp [h]
@[simp] theorem lazyTables_aadLen (st : Strategy) (s : State) : (lazyTables st s).aadLen = s.aadLen := by
  rcases lazyTables_cases st s with h | ⟨-, -, h⟩ <;> simp [h]
@[simp] theorem lazyTables_inLen (st : Strategy) (s : State) : (lazyTables st s).inLen = s.inLen := by
  rcases lazyTables_cases st s with h | ⟨-, -, h⟩ <;> simp [h]
@[simp] theorem lazyTables_outLen (st : Strategy) (s : State) : (lazyTables st s).outLen = s.outLen := by
  rcases lazyTables_cases st s with h | ⟨-, -, h⟩ <;> simp [h]
@[simp] theorem lazyTables_tagIn (st : Strategy) (s : State) : (lazyTables st s).tagIn = s.tagIn := by
  rcases lazyTables_cases st s with h | ⟨-, -, h⟩ <;> simp [h]
@[simp] theorem lazyTables_tagOut (st : Strategy) (s : State) : (lazyTables st s).tagOut = s.tagOut := by
  rcases lazyTables_cases st s with h | ⟨-, -, h⟩ <;> simp [h]
@[simp] theorem lazyTables_tagOutWritten (st : Strategy) (s : State) : (lazyTables st s).tagOutWritten = s.tagOutWritten := by
  rcases lazyTables_cases st s with h | ⟨-, -, h⟩ <;> simp [h]
@[simp] theorem lazyTables_rk (st : Strategy) (s : State) : (lazyTables st s).rk = s.rk := by
  rcases lazyTables_cases st s with h | ⟨-, -, h⟩ <;> simp [h]
@[simp] theorem lazyTables_keyBuf (st : Strategy) (s : State) : (lazyTables st s).keyBuf = s.keyBuf := by
  rcases lazyTables_cases st s with h | ⟨-, -, h⟩ <;> simp [h]
@[simp] theorem lazyTables_ivBuf (st : Strategy) (s : State) : (lazyTables st s).ivBuf = s.ivBuf := by
  rcases lazyTables_cases st s with h | ⟨-, -, h⟩ <;> simp [h]
@[simp] theorem lazyTables_aadBuf (st : Strategy) (s : State) : (lazyTables st s).aadBuf = s.aadBuf := by
  rcases lazyTables_cases st s with h | ⟨-, -, h⟩ <;> simp [h]
@[simp] theorem lazyTables_inBuf (st : Strategy) (s : State) : (lazyTables st s).inBuf = s.inBuf := by
  rcases lazyTables_cases st s with h | ⟨-, -, h⟩ <;> simp [h]
@[simp] theorem lazyTables_outBuf (st : Strategy) (s : State) : (lazyTables st s).outBuf = s.outBuf := by
  rcases lazyTables_cases st s with h | ⟨-, -, h⟩ <;> simp [h]
@[simp] theorem lazyTables_work (st : Strategy) (s : State) : (lazyTables st s).work = s.work := by
  rcases lazyTables_cases st s with h | ⟨-, -, h⟩ <;> simp [h]
@[simp] theorem lazyTables_inputs (st : Strategy) (s : State) : (lazyTables st s).inputs = s.inputs := by
  rcases lazyTables_cases st s with h | ⟨-, -, h⟩ <;> simp [h]
@[simp] theorem lazyTables_responses (st : Strategy) (s : State) : (lazyTables st s).responses = s.responses := by
  rcases lazyTables_cases st s with h | ⟨-, -, h⟩ <;> simp [h]
@[simp] theorem lazyTables_delay (st : Strategy) (s : State) : (lazyTables st s).delay = s.delay := by
  rcases lazyTables_cases st s with h | ⟨-, -, h⟩ <;> simp [h]
@[simp] theorem lazyTables_fresh (st : Strategy) (s : State) : (lazyTables st s).fresh = s.fresh := by
  rcases lazyTables_cases st s with h | ⟨-, -, h⟩ <;> simp [h]
@[simp] theorem lazyTables_epoch (st : Strategy) (s : State) : (lazyTables st s).epoch = s.epoch := by
  rcases lazyTables_cases st s with h | ⟨-, -, h⟩ <;> simp [h]
@[simp] theorem lazyTables_buffer (st : Strategy) (s : State) (c : Buffer) : (lazyTables st s).buffer c = s.buffer c := by
  rcases lazyTables_cases st s with h | ⟨-, -, h⟩ <;> simp [h]
@[simp] theorem lazyTables_byteAt (st : Strategy) (s : State) (c : Buffer) (i : Nat) : (lazyTables st s).byteAt c i = s.byteAt c i := by
  rcases lazyTables_cases st s with h | ⟨-, -, h⟩ <;> simp [h]
@[simp] theorem lazyTables_readBytes (st : Strategy) (s : State) (c : Buffer) (k : Nat) : (lazyTables st s).readBytes c k = s.readBytes c k := by
  rcases lazyTables_cases st s with h | ⟨-, -, h⟩ <;> simp [h]

@[simp] theorem lazyTables_direct (s : State) : lazyTables .direct s = s := rfl
@[simp] theorem lazyTables_batch (s : State) : lazyTables .batch s = s := rfl

/-! ## Operands and the updates of the prefix -/

@[simp] theorem lazyTables_lengthReg (st : Strategy) (s : State) (b : Buffer) :
    (lazyTables st s).lengthReg b = s.lengthReg b := by
  cases b <;> simp [State.lengthReg]

@[simp] theorem loadRk_lengthReg (s : State) (r : Vector Word 32) (b : Buffer) :
    (s.loadRk r).lengthReg b = s.lengthReg b := by
  cases b <;> rfl

@[simp] theorem lazyTables_operand (st : Strategy) (s : State) (b : Buffer) :
    (lazyTables st s).operand b = s.operand b := by
  simp [State.operand]

@[simp] theorem loadRk_operand (s : State) (r : Vector Word 32) (b : Buffer) :
    (s.loadRk r).operand b = s.operand b := by
  simp [State.operand]

@[simp] theorem lazyTables_keyBlock (st : Strategy) (s : State) : (lazyTables st s).keyBlock = s.keyBlock := by
  simp [State.keyBlock]

/-! ## Capacity checks (R54) -/

theorem fits_iff (s : State) (b : Buffer) : s.fits b = true ↔ (s.lengthReg b).toNat ≤ capacity s.cfg b := by
  simp [State.fits]

theorem outFits_iff (s : State) (n : Nat) : s.outFits n = true ↔ n ≤ s.cfg.outCap := by
  simp [State.outFits]

/-! ## The key prefix (R105) -/

theorem keyPrefix_ok {st : Strategy} {kx : Bool} {s s2 : State} (h : keyPrefix st kx s = .ok s2) :
    (kx = true ∧ s.keyLen = 16 ∧ s2 = s.loadRk (keySchedule (s.keyT st) s.keyBlock)) ∨
      (kx = false ∧ s.rkValid = true ∧ s2 = s) := by
  cases kx with
  | true =>
    simp only [keyPrefix, loadKey, if_true] at h
    split at h
    · cases h
    · cases h
      exact .inl ⟨rfl, not_not.1 ‹_›, rfl⟩
  | false =>
    simp only [keyPrefix, Bool.false_eq_true, if_false] at h
    split at h
    · cases h
      exact .inr ⟨rfl, ‹_›, rfl⟩
    · cases h

theorem keyPrefix_error {st : Strategy} {kx : Bool} {s : State} {e : Err} (h : keyPrefix st kx s = .error e) :
    (kx = true ∧ s.keyLen ≠ 16 ∧ e = .invalidKeyLength) ∨ (kx = false ∧ s.rkValid = false ∧ e = .keyNotLoaded) := by
  cases kx with
  | true =>
    simp only [keyPrefix, loadKey, if_true] at h
    split at h
    · cases h
      exact .inl ⟨rfl, ‹_›, rfl⟩
    · cases h
  | false =>
    simp only [keyPrefix, Bool.false_eq_true, if_false] at h
    split at h
    · cases h
    · cases h
      exact .inr ⟨rfl, Bool.not_eq_true _ ▸ ‹_›, rfl⟩

/-! ## A data command (R209) -/

/-- How a data command can end: the prefix fails, the body fails, or the body's result is committed. -/
theorem runData_cases (st : Strategy) (kx : Bool) (body : State → Except Err Result) (s : State) :
    (∃ e, keyPrefix st kx (lazyTables st s) = .error e ∧ runData st kx body s = (lazyTables st s).abort e) ∨
      (∃ s2 e, keyPrefix st kx (lazyTables st s) = .ok s2 ∧ body s2 = .error e ∧ runData st kx body s = s2.abort e) ∨
      ∃ s2 r, keyPrefix st kx (lazyTables st s) = .ok s2 ∧ body s2 = .ok r ∧ runData st kx body s = commit r s2 := by
  simp only [runData]
  cases hk : keyPrefix st kx (lazyTables st s) with
  | error e => exact .inl ⟨e, rfl, rfl⟩
  | ok s2 =>
    cases hb : body s2 with
    | error e => exact .inr (.inl ⟨s2, e, rfl, hb, by simp [hb]⟩)
    | ok r => exact .inr (.inr ⟨s2, r, rfl, hb, by simp [hb]⟩)

/-- The checks and the computation of a data command, steps 4 to 6 of R209. -/
def bodyOf : Instr → State → Except Err Result
  | .encblkD _ => blockBody .direct .enc
  | .encblkT _ => blockBody .table .enc
  | .encblkB _ => blockBody .batch .enc
  | .decblkD _ => blockBody .direct .dec
  | .decblkT _ => blockBody .table .dec
  | .decblkB _ => blockBody .batch .dec
  | .encD p _ => encBody .direct p
  | .encT p _ => encBody .table p
  | .encB p _ => encBody .batch p
  | .decD p _ => decBody .direct p
  | .decT p _ => decBody .table p
  | .decB p _ => decBody .batch p
  | .gcmencD _ => gcmencBody .direct
  | .gcmencT _ => gcmencBody .table
  | .gcmencB _ => gcmencBody .batch
  | .gcmdecD _ => gcmdecBody .direct
  | .gcmdecT _ => gcmdecBody .table
  | .gcmdecB _ => gcmdecBody .batch
  | .keyexpD => fun _ => .ok ⟨[], none⟩
  | .keyexpT => fun _ => .ok ⟨[], none⟩
  | .tblgen => fun _ => .ok ⟨[], none⟩

/-- What `exec` of any command is: `KEYEXP`, `TBLGEN`, or a data command around its body. -/
theorem exec_cases (i : Instr) (s : State) :
    (i.op = .keyexp ∧ i.kx = false ∧ exec i s = .next (keyexp i.strategy s)) ∨
      (i.op = .tblgen ∧ i.kx = false ∧ exec i s = .next (s.buildTables.settle .noError 0)) ∨
      (i.op ≠ .keyexp ∧ i.op ≠ .tblgen ∧ exec i s = .next (runData i.strategy i.kx (bodyOf i) s)) := by
  cases i <;> simp [Instr.op, Instr.kx, Instr.strategy, bodyOf, exec, execKeyexpD, execKeyexpT, execTblgen, execEncblkD,
    execEncblkT, execEncblkB, execDecblkD, execDecblkT, execDecblkB, execEncD, execEncT, execEncB, execDecD, execDecT,
    execDecB, execGcmencD, execGcmencT, execGcmencB, execGcmdecD, execGcmdecT, execGcmdecB]

theorem keyexp_cases (st : Strategy) (s : State) :
    (s.keyLen = 16 ∧ keyexp st s = ((lazyTables st s).loadRk
        (keySchedule ((lazyTables st s).keyT st) s.keyBlock)).settle .noError 0) ∨
      (s.keyLen ≠ 16 ∧ keyexp st s = (lazyTables st s).abort .invalidKeyLength) := by
  by_cases h : s.keyLen = 16
  · left
    simp [keyexp, loadKey, h]
  · right
    have e : loadKey st (lazyTables st s) = .error .invalidKeyLength := by
      rw [loadKey, if_pos (by rwa [lazyTables_keyLen])]
    exact ⟨h, by rw [keyexp, e]⟩

/-! ## The state after a commit -/

@[simp] theorem commit_cfg (r : Result) (s : State) : (commit r s).cfg = s.cfg := by
  rcases r with ⟨out, _ | t⟩ <;> rfl
@[simp] theorem commit_busy (r : Result) (s : State) : (commit r s).busy = false := by
  rcases r with ⟨out, _ | t⟩ <;> rfl
@[simp] theorem commit_done (r : Result) (s : State) : (commit r s).done = true := by
  rcases r with ⟨out, _ | t⟩ <;> rfl
@[simp] theorem commit_err (r : Result) (s : State) : (commit r s).err = .noError := by
  rcases r with ⟨out, _ | t⟩ <;> rfl
@[simp] theorem commit_rkValid (r : Result) (s : State) : (commit r s).rkValid = s.rkValid := by
  rcases r with ⟨out, _ | t⟩ <;> rfl
@[simp] theorem commit_tblValid (r : Result) (s : State) : (commit r s).tblValid = s.tblValid := by
  rcases r with ⟨out, _ | t⟩ <;> rfl
@[simp] theorem commit_cmdw (r : Result) (s : State) : (commit r s).cmdw = 0 := by
  rcases r with ⟨out, _ | t⟩ <;> rfl
@[simp] theorem commit_keyLen (r : Result) (s : State) : (commit r s).keyLen = s.keyLen := by
  rcases r with ⟨out, _ | t⟩ <;> rfl
@[simp] theorem commit_ivLen (r : Result) (s : State) : (commit r s).ivLen = s.ivLen := by
  rcases r with ⟨out, _ | t⟩ <;> rfl
@[simp] theorem commit_aadLen (r : Result) (s : State) : (commit r s).aadLen = s.aadLen := by
  rcases r with ⟨out, _ | t⟩ <;> rfl
@[simp] theorem commit_inLen (r : Result) (s : State) : (commit r s).inLen = s.inLen := by
  rcases r with ⟨out, _ | t⟩ <;> rfl
@[simp] theorem commit_outLen (r : Result) (s : State) : (commit r s).outLen = BitVec.ofNat 32 r.out.length := by
  rcases r with ⟨out, _ | t⟩ <;> rfl
@[simp] theorem commit_tagIn (r : Result) (s : State) : (commit r s).tagIn = s.tagIn := by
  rcases r with ⟨out, _ | t⟩ <;> rfl
@[simp] theorem commit_rk (r : Result) (s : State) : (commit r s).rk = s.rk := by
  rcases r with ⟨out, _ | t⟩ <;> rfl
@[simp] theorem commit_tblD (r : Result) (s : State) : (commit r s).tblD = s.tblD := by
  rcases r with ⟨out, _ | t⟩ <;> rfl
@[simp] theorem commit_tblK (r : Result) (s : State) : (commit r s).tblK = s.tblK := by
  rcases r with ⟨out, _ | t⟩ <;> rfl
@[simp] theorem commit_keyBuf (r : Result) (s : State) : (commit r s).keyBuf = s.keyBuf := by
  rcases r with ⟨out, _ | t⟩ <;> rfl
@[simp] theorem commit_ivBuf (r : Result) (s : State) : (commit r s).ivBuf = s.ivBuf := by
  rcases r with ⟨out, _ | t⟩ <;> rfl
@[simp] theorem commit_aadBuf (r : Result) (s : State) : (commit r s).aadBuf = s.aadBuf := by
  rcases r with ⟨out, _ | t⟩ <;> rfl
@[simp] theorem commit_inBuf (r : Result) (s : State) : (commit r s).inBuf = s.inBuf := by
  rcases r with ⟨out, _ | t⟩ <;> rfl
@[simp] theorem commit_outBuf (r : Result) (s : State) : (commit r s).outBuf = Memory.writeBytes s.outBuf 0 r.out := by
  rcases r with ⟨out, _ | t⟩ <;> rfl
@[simp] theorem commit_work (r : Result) (s : State) : (commit r s).work = Work.zero := by
  rcases r with ⟨out, _ | t⟩ <;> rfl
@[simp] theorem commit_inputs (r : Result) (s : State) : (commit r s).inputs = s.inputs := by
  rcases r with ⟨out, _ | t⟩ <;> rfl
@[simp] theorem commit_responses (r : Result) (s : State) : (commit r s).responses = s.responses := by
  rcases r with ⟨out, _ | t⟩ <;> rfl
@[simp] theorem commit_delay (r : Result) (s : State) : (commit r s).delay = 0 := by
  rcases r with ⟨out, _ | t⟩ <;> rfl
@[simp] theorem commit_fresh (r : Result) (s : State) : (commit r s).fresh = s.fresh := by
  rcases r with ⟨out, _ | t⟩ <;> rfl
@[simp] theorem commit_epoch (r : Result) (s : State) : (commit r s).epoch = s.epoch := by
  rcases r with ⟨out, _ | t⟩ <;> rfl

theorem commit_byteAt_input (r : Result) (s : State) {b : Buffer} (h : b ≠ .outBuf) (a : Nat) :
    (commit r s).byteAt b a = s.byteAt b a := by
  rcases r with ⟨out, _ | t⟩ <;> cases b <;> first | rfl | exact absurd rfl h

theorem commit_byteAt_out (r : Result) (s : State) (a : Nat) :
    (commit r s).byteAt .outBuf a = r.out.getD a (s.byteAt .outBuf a) := by
  rw [← State.byteAt_writeOut_out]
  rcases r with ⟨out, _ | t⟩ <;> rfl

/-! ## Lengths of the results -/

@[simp] theorem lockStep_length (t : Word → Word) (keys : List Word) (xs : List Quad) :
    (lockStep t keys xs).length = xs.length := by
  induction keys generalizing xs with
  | nil => rfl
  | cons k ks ih => simpa [lockStep] using ih (xs.map fun x => cryptRound t x k)

theorem cryptGroups_length (t : Word → Word) (keys : List Word) (lanes : Nat) (hl : 1 ≤ lanes) (fuel : Nat)
    (bs : List Block) (h : bs.length ≤ fuel) : (cryptGroups t keys lanes fuel bs).length = bs.length := by
  induction fuel generalizing bs with
  | zero =>
    rw [List.length_eq_zero_iff.1 (Nat.le_zero.1 h)]
    rfl
  | succ n ih =>
    cases bs with
    | nil => rfl
    | cons b bs =>
      simp only [cryptGroups, List.length_append, List.length_map, lockStep_length]
      rw [ih _ (by simp only [List.length_drop, List.length_cons] at h ⊢; omega)]
      simp only [List.length_take, List.length_drop, List.length_cons]
      omega

@[simp] theorem cryptBlocks_length (s : State) (st : Strategy) (dir : Direction) (bs : List Block) :
    (s.cryptBlocks st dir bs).length = bs.length := by
  cases st with
  | direct => simp [State.cryptBlocks]
  | table => simp [State.cryptBlocks]
  | batch => exact cryptGroups_length _ _ _ (le_max_left 1 _) _ _ le_rfl

@[simp] theorem gctr_length (s : State) (st : Strategy) (d : List Byte) : (s.gctr st d).length = d.length := by
  simp only [State.gctr, List.length_zipWith, bytesOf_length, cryptBlocks_length, counterBlocks_length]
  omega

end Sys2Proof.Machine
end

