-- ==== Sys2Proof/Laws/HostPort.lean ====
section
/-! SUPPORT. What the register map, one host access and one idle write can do. -/

namespace Sys2Proof.Machine

-- One theorem at a time: kernel evaluations side by side take more threads than the memory limit allows.
set_option Elab.async false

/-! ## The register map (R23) -/

theorem regAt_tagIn (j : Fin 4) : regAt (0x020 + 4 * j.val) = some (.tagIn j) := by
  revert j
  decide

theorem regAt_tagOut (j : Fin 4) : regAt (0x030 + 4 * j.val) = some (.tagOut j) := by
  revert j
  decide

theorem regAt_rk (i : Fin 32) : regAt (0x040 + 4 * i.val) = some (.rk i) := by
  revert i
  decide

theorem regAt_reserved (k : Fin 16) : regAt (0x0C0 + 4 * k.val) = some .reserved := by
  revert k
  decide

/-- Every offset the map lists lies below 0x100. -/
theorem regAt_beyond {offset : Nat} (h : 0x0FC < offset) : regAt offset = none := by
  unfold regAt
  by_cases h4 : offset % 4 = 0
  · rw [if_neg (not_not.2 h4)]
    repeat rw [if_neg (by omega)]
  · rw [if_pos h4]

/-- Exactly the aligned offsets up to 0x0FC hold a register or a reserved word. -/
theorem regAt_isSome (offset : Nat) : (regAt offset).isSome = true ↔ offset % 4 = 0 ∧ offset ≤ 0x0FC := by
  have low : ∀ o < 0x0FD, (regAt o).isSome = true ↔ o % 4 = 0 ∧ o ≤ 0x0FC := by decide +kernel
  by_cases h : offset < 0x0FD
  · exact low offset h
  · have h' : 0x0FC < offset := by omega
    simp [regAt_beyond h', h']

/-- `CMD` is the register at offset 0 and nowhere else. -/
theorem regAt_eq_cmd {offset : Nat} (h : regAt offset = some .cmd) : offset = 0 := by
  have low : ∀ o < 0x0FD, regAt o = some .cmd → o = 0 := by decide +kernel
  by_cases hb : offset < 0x0FD
  · exact low offset hb h
  · simp [regAt_beyond (by omega : 0x0FC < offset)] at h

/-! ## One access (R45) -/

theorem bufferAccessOk_iff (s : State) (b : Buffer) (width i : Nat) :
    bufferAccessOk s b width i = true ↔ width = 1 ∧ i < capacity s.cfg b := by
  simp [bufferAccessOk]

theorem hostAccess_readReg {s : State} {offset : Nat} {r : Reg} (h : regAt offset = some r) :
    hostAccess (.readReg 4 offset) s = .next (hostReadReg r s) := by
  simp [hostAccess, h]

theorem hostAccess_writeReg {s : State} {offset : Nat} {r : Reg} (v : Word) (h : regAt offset = some r) :
    hostAccess (.writeReg 4 offset v) s = .next (hostWriteReg r v s) := by
  simp [hostAccess, h]

theorem hostAccess_readBuf {s : State} {b : Buffer} {i : Nat} (h : i < capacity s.cfg b) :
    hostAccess (.readBuf b 1 i) s = .next (hostReadBuf b i s) := by
  simp [hostAccess, bufferAccessOk, h]

theorem hostAccess_writeBuf {s : State} {b : Buffer} {i : Nat} (v : Byte) (h : i < capacity s.cfg b) :
    hostAccess (.writeBuf b 1 i v) s = .next (hostWriteBuf b i v s) := by
  simp [hostAccess, bufferAccessOk, h]

/-- A defined access is one of four. -/
theorem accessDefined_cases {c : Config} {a : Access} (h : accessDefined c a = true) :
    (∃ offset r, a = .readReg 4 offset ∧ regAt offset = some r) ∨
      (∃ offset r v, a = .writeReg 4 offset v ∧ regAt offset = some r) ∨
      (∃ b i, a = .readBuf b 1 i ∧ i < capacity c b) ∨ ∃ b i v, a = .writeBuf b 1 i v ∧ i < capacity c b := by
  cases a with
  | readReg width offset =>
    simp only [accessDefined, Bool.and_eq_true, beq_iff_eq, decide_eq_true_eq] at h
    obtain ⟨r, hr⟩ := Option.isSome_iff_exists.1 ((regAt_isSome offset).2 ⟨h.1.2, h.2⟩)
    exact .inl ⟨offset, r, by rw [h.1.1], hr⟩
  | writeReg width offset v =>
    simp only [accessDefined, Bool.and_eq_true, beq_iff_eq, decide_eq_true_eq] at h
    obtain ⟨r, hr⟩ := Option.isSome_iff_exists.1 ((regAt_isSome offset).2 ⟨h.1.2, h.2⟩)
    exact .inr (.inl ⟨offset, r, v, by rw [h.1.1], hr⟩)
  | readBuf b width i =>
    simp only [accessDefined, Bool.and_eq_true, beq_iff_eq, decide_eq_true_eq] at h
    exact .inr (.inr (.inl ⟨b, i, by rw [h.1], h.2⟩))
  | writeBuf b width i v =>
    simp only [accessDefined, Bool.and_eq_true, beq_iff_eq, decide_eq_true_eq] at h
    exact .inr (.inr (.inr ⟨b, i, v, by rw [h.1], h.2⟩))

/-- An access that answers a next state is one of four, and does what that one does. -/
theorem hostAccess_next {a : Access} {s t : State} (h : hostAccess a s = .next t) :
    (∃ offset r, a = .readReg 4 offset ∧ regAt offset = some r ∧ t = hostReadReg r s) ∨
      (∃ offset r v, a = .writeReg 4 offset v ∧ regAt offset = some r ∧ t = hostWriteReg r v s) ∨
      (∃ b i, a = .readBuf b 1 i ∧ i < capacity s.cfg b ∧ t = hostReadBuf b i s) ∨
      ∃ b i v, a = .writeBuf b 1 i v ∧ i < capacity s.cfg b ∧ t = hostWriteBuf b i v s := by
  cases a with
  | readReg width offset =>
    simp only [hostAccess] at h
    split at h
    · cases h
      exact .inl ⟨offset, _, rfl, ‹_›, rfl⟩
    · cases h
  | writeReg width offset v =>
    simp only [hostAccess] at h
    split at h
    · cases h
      exact .inr (.inl ⟨offset, _, v, rfl, ‹_›, rfl⟩)
    · cases h
  | readBuf b width i =>
    simp only [hostAccess] at h
    split at h
    · cases h
      obtain ⟨rfl, hi⟩ := (bufferAccessOk_iff s b width i).1 ‹_›
      exact .inr (.inr (.inl ⟨b, i, rfl, hi, rfl⟩))
    · cases h
  | writeBuf b width i v =>
    simp only [hostAccess] at h
    split at h
    · cases h
      obtain ⟨rfl, hi⟩ := (bufferAccessOk_iff s b width i).1 ‹_›
      exact .inr (.inr (.inr ⟨b, i, v, rfl, hi, rfl⟩))
    · cases h

/-! ## What reads and writes do -/

/-- A register read records a response and may draw a free value. -/
theorem hostReadReg_cases (r : Reg) (s : State) :
    hostReadReg r s = s.respondFreeWord ∨ hostReadReg r s = s.respond (.word (s.regValue r)) := by
  simp only [hostReadReg]
  split
  · exact .inl rfl
  · exact .inr rfl

/-- A buffer read records a response and may draw a free value. -/
theorem hostReadBuf_cases (b : Buffer) (i : Nat) (s : State) :
    hostReadBuf b i s = s.respondFreeByte ∨ hostReadBuf b i s = s.respond (.byte (s.byteAt b i)) := by
  simp only [hostReadBuf]
  split
  · exact .inl rfl
  · exact .inr rfl

/-- A register write is dropped, starts a command, stores a length register or stores a word of `TAG_IN`. -/
theorem hostWriteReg_cases (r : Reg) (v : Word) (s : State) :
    hostWriteReg r v s = s ∨ (s.busy = false ∧ r = .cmd ∧ hostWriteReg r v s = s.accept v) ∨
      (s.busy = false ∧ (hostWriteReg r v s = { s with keyLen := v } ∨ hostWriteReg r v s = { s with ivLen := v } ∨
        hostWriteReg r v s = { s with aadLen := v } ∨ hostWriteReg r v s = { s with inLen := v } ∨
        ∃ x, hostWriteReg r v s = { s with tagIn := x })) := by
  cases hb : s.busy with
  | true => exact .inl (by simp [hostWriteReg, hb])
  | false => cases r <;> simp [hostWriteReg, hb, State.regWrite]

/-- A buffer write is dropped or stores its byte, never into `OUTBUF`. -/
theorem hostWriteBuf_cases (b : Buffer) (i : Nat) (v : Byte) (s : State) :
    hostWriteBuf b i v s = s ∨ (s.busy = false ∧ b ≠ .outBuf ∧
      hostWriteBuf b i v s = s.setBuffer b (Memory.write (s.buffer b) i v)) := by
  cases hb : s.busy with
  | true => exact .inl (by simp [hostWriteBuf, hb])
  | false => cases b <;> simp [hostWriteBuf, hb]

end Sys2Proof.Machine
end

