-- ==== Sys2Proof/Laws/Step.lean ====
section
/-! SUPPORT. What one step can do, said once. -/

namespace Sys2Proof.Machine

/-- The engine is ready exactly when it may complete (R243). -/
theorem engineReady_iff (s : State) : s.engineReady = true ↔ MayComplete s := by
  unfold State.engineReady MayComplete
  cases hb : s.busy <;> cases hi : s.inputs with
  | nil => simp
  | cons x rest => cases x <;> simp

/-- The engine's `complete` step: the decoded command, or `IllegalCommand` (R67, R243). -/
theorem engineComplete_cases (s : State) :
    (∃ i, decode s.cmdw = .ok i ∧ engineComplete s = exec i s) ∨
      (∃ e, decode s.cmdw = .error e ∧ engineComplete s = .next (s.abort .illegalCommand)) := by
  unfold engineComplete
  cases h : decode s.cmdw with
  | ok i => exact .inl ⟨i, rfl, rfl⟩
  | error e => exact .inr ⟨e, rfl, rfl⟩

/-- A step that answers a next state: the engine completes, the host has nothing to do or waits, an access, the
end of a wait, or a reset. -/
theorem step_cases {s t : State} (h : step s = .next t) :
    (∃ i, MayComplete s ∧ decode s.cmdw = .ok i ∧ exec i s = .next t) ∨
      (∃ e, MayComplete s ∧ decode s.cmdw = .error e ∧ t = s.abort .illegalCommand) ∨
      t = s ∨
      (∃ a rest, ¬MayComplete s ∧ s.inputs = .access a :: rest ∧
        hostAccess a { s with inputs := rest, delay := s.delay - 1 } = .next t) ∨
      (∃ rest, ¬MayComplete s ∧ s.inputs = .wait :: rest ∧ s.done = true ∧
        t = { s.respond (.word s.status) with inputs := rest }) ∨
      ∃ rest, ¬MayComplete s ∧ s.inputs = .reset :: rest ∧ t = State.resetInput { s with inputs := rest } := by
  unfold step at h
  split at h
  · have hm := (engineReady_iff s).1 ‹_›
    rcases engineComplete_cases s with ⟨i, hd, he⟩ | ⟨e, hd, he⟩
    · exact .inl ⟨i, hm, hd, he ▸ h⟩
    · rw [he] at h
      cases h
      exact .inr (.inl ⟨e, hm, hd, rfl⟩)
  · have hm : ¬MayComplete s := fun hc => absurd ((engineReady_iff s).2 hc) ‹_›
    unfold hostTurn at h
    split at h
    · cases h
      exact .inr (.inr (.inl rfl))
    · exact .inr (.inr (.inr (.inl ⟨_, _, hm, ‹_›, h⟩)))
    · split at h
      · cases h
        exact .inr (.inr (.inr (.inr (.inl ⟨_, hm, ‹_›, ‹_›, rfl⟩))))
      · cases h
        exact .inr (.inr (.inl rfl))
    · cases h
      exact .inr (.inr (.inr (.inr (.inr ⟨_, hm, ‹_›, rfl⟩))))

/-- The memories of the reset state are in canonical form. -/
theorem reset_memoryCanonical : State.reset.memoryCanonical := by
  intro b
  cases b <;> simp [State.reset, State.buffer, Memory.wf]

end Sys2Proof.Machine
end

