-- ==== Sys2Proof/Laws/HostProgram.lean ====
section
/-! SUPPORT. What each host step of R69 does on an idle block, and how a command with its `wait` runs: once for every
call of R70. -/

namespace Sys2Proof.Machine

/-! ## Runs -/

/-- A run of `m + n` steps is one of `n` steps after one of `m`. -/
theorem run_add {m n : Nat} {s t : State} (h : core.run m s = .next t) : core.run (m + n) s = core.run n t := by
  induction m generalizing s with
  | zero =>
    cases h
    rw [Nat.zero_add]
  | succ m ih =>
    have e : m + 1 + n = (m + n) + 1 := by omega
    simp only [e, Host.Core.run] at h ⊢
    cases hs : core.step s with
    | next u =>
      rw [hs] at h
      exact ih h
    | fault f =>
      rw [hs] at h
      cases h
    | refused r =>
      rw [hs] at h
      cases h

/-- The run that goes on after one that ends in a state with known further steps. -/
theorem run_trans {m n : Nat} {s t u : State} (h : core.run m s = .next t) (h' : core.run n t = .next u) :
    core.run (m + n) s = .next u := by
  rw [run_add h, h']

theorem run_one {s t : State} (h : step s = .next t) : core.run 1 s = .next t := by
  have h' : core.step s = .next t := h
  simp [Host.Core.run, h']

/-- An idle block with nothing to come stays as it is (R27). -/
theorem run_idle {s : State} (hb : s.busy = false) (hi : s.inputs = []) (n : Nat) : core.run n s = .next s := by
  have h : core.step s = .next s := by
    show step s = .next s
    simp [step, State.engineReady, hb, hostTurn, hi]
  induction n with
  | zero => rfl
  | succ n ih => simp only [Host.Core.run, h, ih]

/-! ## Host steps on an idle block (R69) -/

/-- The bookkeeping of the host port after `n` host steps that have returned `got`, oldest first. -/
def State.tick (s : State) (rest : List Input) (n : Nat) (got : List PortData) : State :=
  { s with inputs := rest, delay := s.delay - n, responses := got.reverse ++ s.responses }

@[simp] theorem State.tick_cfg (s : State) (l : List Input) (n : Nat) (g : List PortData) : (s.tick l n g).cfg = s.cfg := rfl
@[simp] theorem State.tick_busy (s : State) (l : List Input) (n : Nat) (g : List PortData) : (s.tick l n g).busy = s.busy := rfl
@[simp] theorem State.tick_done (s : State) (l : List Input) (n : Nat) (g : List PortData) : (s.tick l n g).done = s.done := rfl
@[simp] theorem State.tick_err (s : State) (l : List Input) (n : Nat) (g : List PortData) : (s.tick l n g).err = s.err := rfl
@[simp] theorem State.tick_rkValid (s : State) (l : List Input) (n : Nat) (g : List PortData) : (s.tick l n g).rkValid = s.rkValid := rfl
@[simp] theorem State.tick_tblValid (s : State) (l : List Input) (n : Nat) (g : List PortData) : (s.tick l n g).tblValid = s.tblValid := rfl
@[simp] theorem State.tick_cmdw (s : State) (l : List Input) (n : Nat) (g : List PortData) : (s.tick l n g).cmdw = s.cmdw := rfl
@[simp] theorem State.tick_keyLen (s : State) (l : List Input) (n : Nat) (g : List PortData) : (s.tick l n g).keyLen = s.keyLen := rfl
@[simp] theorem State.tick_ivLen (s : State) (l : List Input) (n : Nat) (g : List PortData) : (s.tick l n g).ivLen = s.ivLen := rfl
@[simp] theorem State.tick_aadLen (s : State) (l : List Input) (n : Nat) (g : List PortData) : (s.tick l n g).aadLen = s.aadLen := rfl
@[simp] theorem State.tick_inLen (s : State) (l : List Input) (n : Nat) (g : List PortData) : (s.tick l n g).inLen = s.inLen := rfl
@[simp] theorem State.tick_outLen (s : State) (l : List Input) (n : Nat) (g : List PortData) : (s.tick l n g).outLen = s.outLen := rfl
@[simp] theorem State.tick_tagIn (s : State) (l : List Input) (n : Nat) (g : List PortData) : (s.tick l n g).tagIn = s.tagIn := rfl
@[simp] theorem State.tick_tagOut (s : State) (l : List Input) (n : Nat) (g : List PortData) : (s.tick l n g).tagOut = s.tagOut := rfl
@[simp] theorem State.tick_tagOutWritten (s : State) (l : List Input) (n : Nat) (g : List PortData) : (s.tick l n g).tagOutWritten = s.tagOutWritten := rfl
@[simp] theorem State.tick_rk (s : State) (l : List Input) (n : Nat) (g : List PortData) : (s.tick l n g).rk = s.rk := rfl
@[simp] theorem State.tick_tblD (s : State) (l : List Input) (n : Nat) (g : List PortData) : (s.tick l n g).tblD = s.tblD := rfl
@[simp] theorem State.tick_tblK (s : State) (l : List Input) (n : Nat) (g : List PortData) : (s.tick l n g).tblK = s.tblK := rfl
@[simp] theorem State.tick_keyBuf (s : State) (l : List Input) (n : Nat) (g : List PortData) : (s.tick l n g).keyBuf = s.keyBuf := rfl
@[simp] theorem State.tick_ivBuf (s : State) (l : List Input) (n : Nat) (g : List PortData) : (s.tick l n g).ivBuf = s.ivBuf := rfl
@[simp] theorem State.tick_aadBuf (s : State) (l : List Input) (n : Nat) (g : List PortData) : (s.tick l n g).aadBuf = s.aadBuf := rfl
@[simp] theorem State.tick_inBuf (s : State) (l : List Input) (n : Nat) (g : List PortData) : (s.tick l n g).inBuf = s.inBuf := rfl
@[simp] theorem State.tick_outBuf (s : State) (l : List Input) (n : Nat) (g : List PortData) : (s.tick l n g).outBuf = s.outBuf := rfl
@[simp] theorem State.tick_work (s : State) (l : List Input) (n : Nat) (g : List PortData) : (s.tick l n g).work = s.work := rfl
@[simp] theorem State.tick_inputs (s : State) (l : List Input) (n : Nat) (g : List PortData) : (s.tick l n g).inputs = l := rfl
@[simp] theorem State.tick_responses (s : State) (l : List Input) (n : Nat) (g : List PortData) : (s.tick l n g).responses = g.reverse ++ s.responses := rfl
@[simp] theorem State.tick_delay (s : State) (l : List Input) (n : Nat) (g : List PortData) : (s.tick l n g).delay = s.delay - n := rfl
@[simp] theorem State.tick_fresh (s : State) (l : List Input) (n : Nat) (g : List PortData) : (s.tick l n g).fresh = s.fresh := rfl
@[simp] theorem State.tick_epoch (s : State) (l : List Input) (n : Nat) (g : List PortData) : (s.tick l n g).epoch = s.epoch := rfl

@[simp] theorem State.tick_buffer (s : State) (l : List Input) (n : Nat) (g : List PortData) (b : Buffer) :
    (s.tick l n g).buffer b = s.buffer b := by cases b <;> rfl
@[simp] theorem State.tick_byteAt (s : State) (l : List Input) (n : Nat) (g : List PortData) (b : Buffer) (i : Nat) :
    (s.tick l n g).byteAt b i = s.byteAt b i := by cases b <;> rfl
@[simp] theorem State.tick_regValue (s : State) (l : List Input) (n : Nat) (g : List PortData) (r : Reg) :
    (s.tick l n g).regValue r = s.regValue r := by cases r <;> rfl
@[simp] theorem State.tick_tick (s : State) (l l' : List Input) (n n' : Nat) (g g' : List PortData) :
    (s.tick l n g).tick l' n' g' = s.tick l' (n + n') (g ++ g') := by
  simp [State.tick, Nat.sub_sub]

@[simp] theorem State.tick_lengthReg (s : State) (l : List Input) (n : Nat) (g : List PortData) (b : Buffer) :
    (s.tick l n g).lengthReg b = s.lengthReg b := by cases b <;> rfl

/-- An access that is next on an idle block is taken. -/
theorem step_access {s : State} {a : Access} {rest : List Input} (hb : s.busy = false)
    (hi : s.inputs = .access a :: rest) : step s = hostAccess a (s.tick rest 1 []) := by
  simp [step, State.engineReady, hb, hostTurn, hi, State.tick]

/-! ## `State.withInputs` -/

@[simp] theorem State.withInputs_cfg (s : State) (l : List Input) : (s.withInputs l).cfg = s.cfg := rfl
@[simp] theorem State.withInputs_busy (s : State) (l : List Input) : (s.withInputs l).busy = s.busy := rfl
@[simp] theorem State.withInputs_done (s : State) (l : List Input) : (s.withInputs l).done = s.done := rfl
@[simp] theorem State.withInputs_err (s : State) (l : List Input) : (s.withInputs l).err = s.err := rfl
@[simp] theorem State.withInputs_rkValid (s : State) (l : List Input) : (s.withInputs l).rkValid = s.rkValid := rfl
@[simp] theorem State.withInputs_tblValid (s : State) (l : List Input) : (s.withInputs l).tblValid = s.tblValid := rfl
@[simp] theorem State.withInputs_cmdw (s : State) (l : List Input) : (s.withInputs l).cmdw = s.cmdw := rfl
@[simp] theorem State.withInputs_keyLen (s : State) (l : List Input) : (s.withInputs l).keyLen = s.keyLen := rfl
@[simp] theorem State.withInputs_ivLen (s : State) (l : List Input) : (s.withInputs l).ivLen = s.ivLen := rfl
@[simp] theorem State.withInputs_aadLen (s : State) (l : List Input) : (s.withInputs l).aadLen = s.aadLen := rfl
@[simp] theorem State.withInputs_inLen (s : State) (l : List Input) : (s.withInputs l).inLen = s.inLen := rfl
@[simp] theorem State.withInputs_outLen (s : State) (l : List Input) : (s.withInputs l).outLen = s.outLen := rfl
@[simp] theorem State.withInputs_tagIn (s : State) (l : List Input) : (s.withInputs l).tagIn = s.tagIn := rfl
@[simp] theorem State.withInputs_tagOut (s : State) (l : List Input) : (s.withInputs l).tagOut = s.tagOut := rfl
@[simp] theorem State.withInputs_tagOutWritten (s : State) (l : List Input) : (s.withInputs l).tagOutWritten = s.tagOutWritten := rfl
@[simp] theorem State.withInputs_rk (s : State) (l : List Input) : (s.withInputs l).rk = s.rk := rfl
@[simp] theorem State.withInputs_tblD (s : State) (l : List Input) : (s.withInputs l).tblD = s.tblD := rfl
@[simp] theorem State.withInputs_tblK (s : State) (l : List Input) : (s.withInputs l).tblK = s.tblK := rfl
@[simp] theorem State.withInputs_keyBuf (s : State) (l : List Input) : (s.withInputs l).keyBuf = s.keyBuf := rfl
@[simp] theorem State.withInputs_ivBuf (s : State) (l : List Input) : (s.withInputs l).ivBuf = s.ivBuf := rfl
@[simp] theorem State.withInputs_aadBuf (s : State) (l : List Input) : (s.withInputs l).aadBuf = s.aadBuf := rfl
@[simp] theorem State.withInputs_inBuf (s : State) (l : List Input) : (s.withInputs l).inBuf = s.inBuf := rfl
@[simp] theorem State.withInputs_outBuf (s : State) (l : List Input) : (s.withInputs l).outBuf = s.outBuf := rfl
@[simp] theorem State.withInputs_work (s : State) (l : List Input) : (s.withInputs l).work = s.work := rfl
@[simp] theorem State.withInputs_inputs (s : State) (l : List Input) : (s.withInputs l).inputs = l := rfl
@[simp] theorem State.withInputs_responses (s : State) (l : List Input) : (s.withInputs l).responses = s.responses := rfl
@[simp] theorem State.withInputs_delay (s : State) (l : List Input) : (s.withInputs l).delay = s.delay := rfl
@[simp] theorem State.withInputs_fresh (s : State) (l : List Input) : (s.withInputs l).fresh = s.fresh := rfl
@[simp] theorem State.withInputs_epoch (s : State) (l : List Input) : (s.withInputs l).epoch = s.epoch := rfl
@[simp] theorem State.withInputs_buffer (s : State) (l : List Input) (b : Buffer) :
    (s.withInputs l).buffer b = s.buffer b := by cases b <;> rfl
@[simp] theorem State.withInputs_byteAt (s : State) (l : List Input) (b : Buffer) (i : Nat) :
    (s.withInputs l).byteAt b i = s.byteAt b i := by cases b <;> rfl
@[simp] theorem State.withInputs_lengthReg (s : State) (l : List Input) (b : Buffer) :
    (s.withInputs l).lengthReg b = s.lengthReg b := by cases b <;> rfl
@[simp] theorem State.withInputs_regValue (s : State) (l : List Input) (r : Reg) :
    (s.withInputs l).regValue r = s.regValue r := by cases r <;> rfl
@[simp] theorem State.withInputs_tick (s : State) (l l' : List Input) (n : Nat) (g : List PortData) :
    (s.withInputs l).tick l' n g = s.tick l' n g := rfl


/-! ## One host step -/

/-- Every register stands at its offset (R23). -/
theorem regAt_offsetOf (r : Reg) : regAt (offsetOf r) = some r := by
  cases r with
  | tagIn j => exact regAt_tagIn j
  | tagOut j => exact regAt_tagOut j
  | rk i => exact regAt_rk i
  | cmd => rfl
  | status => rfl
  | keyLen => rfl
  | ivLen => rfl
  | aadLen => rfl
  | inLen => rfl
  | outLen => rfl
  | reserved => rfl

/-- `wr <REG>, <value>` writes the register. -/
theorem run_wr {s : State} {r : Reg} {v : Word} {rest : List Input} (hb : s.busy = false)
    (hi : s.inputs = wr r v ++ rest) : core.run 1 s = .next ((s.tick rest 1 []).regWrite r v) := by
  apply run_one
  rw [step_access hb hi, hostAccess_writeReg v (regAt_offsetOf r)]
  simp [hostWriteReg, State.tick, hb]

/-- `rr <REG>` returns the register. -/
theorem run_rr {s : State} {r : Reg} {rest : List Input} (hb : s.busy = false) (hi : s.inputs = rr r ++ rest) :
    core.run 1 s = .next (s.tick rest 1 [.word (s.regValue r)]) := by
  apply run_one
  rw [step_access hb hi, hostAccess_readReg (regAt_offsetOf r), hostReadReg, if_neg (by simp [State.tick, hb])]
  cases r <;> rfl

/-- `wb <BUF>, <index>, <bytes>` writes the bytes into an input buffer that has room for them. -/
theorem run_wb {s : State} {b : Buffer} {i : Nat} {vs : List Byte} {rest : List Input} (hb : s.busy = false)
    (ho : b ≠ .outBuf) (hc : i + vs.length ≤ capacity s.cfg b) (hi : s.inputs = wb b i vs ++ rest) :
    core.run vs.length s =
      .next ((s.setBuffer b (Memory.writeBytes (s.buffer b) i vs)).tick rest vs.length []) := by
  induction vs generalizing s i with
  | nil =>
    subst hi
    cases b <;> rfl
  | cons v vs ih =>
    rw [List.length_cons] at hc
    have h1 : core.run 1 s = .next ((s.setBuffer b (Memory.write (s.buffer b) i v)).tick (wb b (i + 1) vs ++ rest) 1 []) := by
      apply run_one
      rw [step_access hb hi, hostAccess_writeBuf v (by simpa [State.tick] using by omega)]
      cases b <;> simp_all [hostWriteBuf, State.tick, State.setBuffer, State.buffer]
    rw [List.length_cons, Nat.add_comm, run_add h1, ih (by simpa [State.tick] using hb)
      (by simpa [State.tick] using by omega) rfl]
    cases b <;> simp [State.tick, State.setBuffer, State.buffer, Memory.writeBytes, Nat.sub_sub]

/-- `rb <BUF>, <index>, <n>` returns the bytes of a readable buffer, the last one newest. -/
theorem run_rb {s : State} {b : Buffer} {i n : Nat} {rest : List Input} (hb : s.busy = false) (hk : b ≠ .keyBuf)
    (hc : i + n ≤ capacity s.cfg b) (hi : s.inputs = rb b i n ++ rest) :
    core.run n s = .next (s.tick rest n ((List.range n).map fun k => .byte (s.byteAt b (i + k)))) := by
  induction n generalizing rest with
  | zero =>
    subst hi
    rfl
  | succ n ih =>
    have e : rb b i (n + 1) ++ rest = rb b i n ++ (.access (.readBuf b 1 (i + n)) :: rest) := by
      simp [rb, List.range_succ]
    rw [e] at hi
    refine run_trans (ih (by omega) hi) (run_one ?_)
    rw [step_access (by simpa [State.tick] using hb) rfl, hostAccess_readBuf (by simpa [State.tick] using by omega)]
    cases b <;> simp_all [hostReadBuf, State.tick, State.respond, List.range_succ, State.byteAt, State.buffer, Nat.sub_sub]

/-! ## A command and its `wait` -/

/-- An accepted command that keeps the further inputs completes, and its `wait` returns `STATUS` (R69, R243). -/
theorem run_cmd_wait {s t : State} {i : Instr} (hd : decode (encode i) = .ok i) (hb : s.busy = false)
    (hi : s.inputs = cmd i ++ wait) (he : exec i ((s.tick wait 1 []).accept (encode i)) = .next t) (ht : t.inputs = wait)
    (hf : t.busy = false) (hn : t.done = true) :
    core.run 3 s = .next { t.respond (.word t.status) with inputs := [] } := by
  have h1 : core.run 1 s = .next ((s.tick wait 1 []).accept (encode i)) := run_wr hb hi
  have h2 : step ((s.tick wait 1 []).accept (encode i)) = .next t := by
    have hr : ((s.tick wait 1 []).accept (encode i)).engineReady = true := rfl
    have hc : decode ((s.tick wait 1 []).accept (encode i)).cmdw = .ok i := hd
    rw [step, if_pos hr, engineComplete, hc]
    exact he
  have h3 : step t = .next { t.respond (.word t.status) with inputs := [] } := by
    simp [step, State.engineReady, hf, hostTurn, ht, wait, hn]
  exact run_trans (run_trans h1 (run_one h2)) (run_one h3)

/-! ## Loading operands and reading results -/

/-- A byte of a buffer after `MemWrite` into one. -/
theorem State.byteAt_setBuffer (s : State) (b c : Buffer) (v : List Byte) (a : Nat) :
    (s.setBuffer b (Memory.writeBytes (s.buffer b) 0 v)).byteAt c a =
      if c = b then v.getD a (s.byteAt b a) else s.byteAt c a := by
  by_cases hc : c = b
  · subst c
    simp only [State.byteAt, State.setBuffer_buffer, State.setBuffer_epoch, if_pos]
    rw [Memory.read_writeBytes]
    by_cases h : a < v.length <;> simp [h]
  · simp only [State.byteAt, State.setBuffer_buffer, State.setBuffer_epoch, if_neg hc]

@[simp] theorem wb_length (b : Buffer) (i : Nat) (v : List Byte) : (wb b i v).length = v.length := by
  induction v generalizing i with
  | nil => rfl
  | cons x v ih => simp [wb, ih]

@[simp] theorem rb_length (b : Buffer) (i n : Nat) : (rb b i n).length = n := by
  simp [rb]

/-- What loading operands leaves as it was. -/
structure Loaded (s t : State) : Prop where
  busy : t.busy = s.busy
  cfg : t.cfg = s.cfg
  responses : t.responses = s.responses
  rk : t.rk = s.rk
  rkValid : t.rkValid = s.rkValid
  tables : t.tblD = s.tblD ∧ t.tblK = s.tblK ∧ t.tblValid = s.tblValid

theorem Loaded.trans {s t u : State} (h : Loaded s t) (h' : Loaded t u) : Loaded s u :=
  ⟨h'.busy.trans h.busy, h'.cfg.trans h.cfg, h'.responses.trans h.responses, h'.rk.trans h.rk,
    h'.rkValid.trans h.rkValid, h'.tables.1.trans h.tables.1, h'.tables.2.1.trans h.tables.2.1,
    h'.tables.2.2.trans h.tables.2.2⟩

/-- `wb <BUF>,0,v; wr <LEN>,len(v)` loads the string and its length, and no other operand. -/
theorem run_load {s : State} {b : Buffer} {v : List Byte} {rest : List Input} (hb : s.busy = false) (ho : b ≠ .outBuf)
    (hc : v.length ≤ capacity s.cfg b) (hi : s.inputs = loadSteps b v ++ rest) :
    ∃ t, core.run (loadSteps b v).length s = .next t ∧ t.inputs = rest ∧ Loaded s t ∧
      t.tagIn = s.tagIn ∧ t.lengthReg b = BitVec.ofNat 32 v.length ∧ (∀ c, c ≠ b → t.lengthReg c = s.lengthReg c) ∧
      ∀ c a, t.byteAt c a = if c = b then v.getD a (s.byteAt b a) else s.byteAt c a := by
  have h1 := run_wb (i := 0) (rest := wr (lengthRegOf b) (BitVec.ofNat 32 v.length) ++ rest) hb ho (by simpa using hc)
    (by rw [hi, loadSteps, List.append_assoc])
  have hB := fun c => State.byteAt_setBuffer s b c v
  generalize hu : s.setBuffer b (Memory.writeBytes (s.buffer b) 0 v) = u at h1 hB
  have hL : Loaded s u := by
    subst hu
    constructor <;> simp
  have hT : u.tagIn = s.tagIn := by simp [← hu]
  have hR : ∀ c, u.lengthReg c = s.lengthReg c := by
    intro c
    subst hu
    cases c <;> simp [State.lengthReg]
  clear hu
  have h2 := run_wr (s := u.tick (wr (lengthRegOf b) (BitVec.ofNat 32 v.length) ++ rest) v.length [])
    (by simpa [hL.busy] using hb) rfl
  have hl : (loadSteps b v).length = v.length + 1 := by simp [loadSteps, wr]
  have e : ∀ c a, (((u.tick (wr (lengthRegOf b) (BitVec.ofNat 32 v.length) ++ rest) v.length []).tick rest 1 []).regWrite
      (lengthRegOf b) (BitVec.ofNat 32 v.length)).byteAt c a = u.byteAt c a := by
    intro c a
    cases b <;> cases c <;> rfl
  rw [hl]
  refine ⟨_, run_trans h1 h2, ?_, hL.trans ?_, ?_, ?_, ?_, fun c a => (e c a).trans (hB c a)⟩
  · cases b <;> rfl
  · cases b <;> constructor <;> simp [lengthRegOf, State.regWrite]
  · cases b <;> exact hT
  · cases b <;> first | rfl | exact absurd rfl ho
  · intro c hc
    rw [← hR c]
    cases b <;> cases c <;> first | rfl | exact absurd rfl hc

/-- Loads of several buffers, one after the other: each holds its string and length, nothing else is loaded. -/
theorem run_loads {s : State} (ps : List (Buffer × List Byte)) {rest : List Input} (hb : s.busy = false)
    (ho : ∀ p ∈ ps, p.1 ≠ .outBuf) (hd : (ps.map (·.1)).Nodup) (hc : ∀ p ∈ ps, p.2.length ≤ capacity s.cfg p.1)
    (hi : s.inputs = (ps.flatMap fun p => loadSteps p.1 p.2) ++ rest) :
    ∃ t, core.run (ps.flatMap fun p => loadSteps p.1 p.2).length s = .next t ∧ t.inputs = rest ∧ Loaded s t ∧
      t.tagIn = s.tagIn ∧
      (∀ p ∈ ps, t.lengthReg p.1 = BitVec.ofNat 32 p.2.length ∧ ∀ a < p.2.length, t.byteAt p.1 a = p.2.getD a 0) ∧
      ∀ c, c ∉ ps.map (·.1) → t.lengthReg c = s.lengthReg c ∧ ∀ a, t.byteAt c a = s.byteAt c a := by
  induction ps generalizing s with
  | nil => exact ⟨s, rfl, hi, ⟨rfl, rfl, rfl, rfl, rfl, rfl, rfl, rfl⟩, rfl, by simp, by simp⟩
  | cons p ps ih =>
    obtain ⟨b, v⟩ := p
    rw [List.flatMap_cons, List.append_assoc] at hi
    obtain ⟨t, r1, i1, l1, t1, n1, m1, b1⟩ := run_load hb (ho (b, v) (by simp)) (hc (b, v) (by simp)) hi
    simp only [List.map_cons, List.nodup_cons] at hd
    obtain ⟨u, r2, i2, l2, t2, q2, o2⟩ := ih (s := t) (l1.busy.trans hb) (fun p hp => ho p (by simp [hp])) hd.2
      (fun p hp => by rw [l1.cfg]; exact hc p (by simp [hp])) i1
    refine ⟨u, ?_, i2, l1.trans l2, t2.trans t1, ?_, ?_⟩
    · rw [List.flatMap_cons, List.length_append]
      exact run_trans r1 r2
    · intro p hp
      rcases List.mem_cons.1 hp with rfl | hp
      · obtain ⟨hl, hv⟩ := o2 b hd.1
        refine ⟨hl.trans n1, fun a ha => ?_⟩
        have ha : a < v.length := ha
        simp [hv a, b1, ha]
      · exact q2 p hp
    · intro c hm
      simp only [List.map_cons, List.mem_cons, not_or] at hm
      obtain ⟨hl, hv⟩ := o2 c hm.2
      exact ⟨hl.trans (m1 c hm.1), fun a => by rw [hv a, b1, if_neg hm.1]⟩

/-- `wr TAG_IN[j], <word>` stores the word of the tag. -/
theorem run_wr_tagIn {s : State} {j : Fin 4} {v : Word} {rest : List Input} (hb : s.busy = false)
    (hi : s.inputs = wr (.tagIn j) v ++ rest) :
    ∃ t, core.run 1 s = .next t ∧ t.inputs = rest ∧ Loaded s t ∧ t.tagIn = s.tagIn.set j v ∧
      ∀ c, t.lengthReg c = s.lengthReg c ∧ ∀ a, t.byteAt c a = s.byteAt c a :=
  ⟨_, run_wr hb hi, rfl, ⟨rfl, rfl, rfl, rfl, rfl, rfl, rfl, rfl⟩, rfl, fun c => by cases c <;> exact ⟨rfl, fun _ => rfl⟩⟩

/-- The four writes of a supplied tag load it, and no other operand. -/
theorem run_loadTag {s : State} (tag : Block) {rest : List Input} (hb : s.busy = false)
    (hi : s.inputs = loadTagSteps tag ++ rest) :
    ∃ t, core.run (loadTagSteps tag).length s = .next t ∧ t.inputs = rest ∧ Loaded s t ∧ t.tagIn = tagWords tag ∧
      ∀ c, t.lengthReg c = s.lengthReg c ∧ ∀ a, t.byteAt c a = s.byteAt c a := by
  have e : loadTagSteps tag = wr (.tagIn 0) ((tagWords tag).get 0) ++ (wr (.tagIn 1) ((tagWords tag).get 1) ++
      (wr (.tagIn 2) ((tagWords tag).get 2) ++ wr (.tagIn 3) ((tagWords tag).get 3))) := by
    simp [loadTagSteps, List.finRange_succ]
  rw [e] at hi ⊢
  simp only [List.append_assoc] at hi
  obtain ⟨u1, r1, i1, l1, t1, o1⟩ := run_wr_tagIn hb hi
  obtain ⟨u2, r2, i2, l2, t2, o2⟩ := run_wr_tagIn (l1.busy.trans hb) i1
  obtain ⟨u3, r3, i3, l3, t3, o3⟩ := run_wr_tagIn ((l1.trans l2).busy.trans hb) i2
  obtain ⟨u4, r4, i4, l4, t4, o4⟩ := run_wr_tagIn (((l1.trans l2).trans l3).busy.trans hb) i3
  have hrun : core.run 4 s = .next u4 := run_trans (m := 3) (run_trans (m := 2) (run_trans (m := 1) r1 r2) r3) r4
  refine ⟨u4, hrun, i4, ((l1.trans l2).trans l3).trans l4, ?_, fun c => ⟨?_, fun a => ?_⟩⟩
  · rw [t4, t3, t2, t1]
    apply Vector.ext
    intro i hi
    have : i = 0 ∨ i = 1 ∨ i = 2 ∨ i = 3 := by omega
    rcases this with rfl | rfl | rfl | rfl <;> simp <;> rfl
  · rw [(o4 c).1, (o3 c).1, (o2 c).1, (o1 c).1]
  · rw [(o4 c).2, (o3 c).2, (o2 c).2, (o1 c).2]

/-- `rr` of several registers returns them in order. -/
theorem run_rrs {s : State} (rs : List Reg) {rest : List Input} (hb : s.busy = false)
    (hi : s.inputs = rs.flatMap rr ++ rest) :
    core.run rs.length s = .next (s.tick rest rs.length (rs.map fun r => .word (s.regValue r))) := by
  induction rs generalizing s with
  | nil =>
    subst hi
    rfl
  | cons r rs ih =>
    have h1 := run_rr (rest := rs.flatMap rr ++ rest) hb (by rw [hi, List.flatMap_cons, List.append_assoc])
    rw [List.length_cons, Nat.add_comm, run_add h1, ih (by simpa using hb) rfl, State.tick_tick]
    simp

/-- What stands on top of the earlier responses is what has been read. -/
theorem readBetween_eq {s t : State} {got : List PortData} (h : t.responses = got.reverse ++ s.responses) :
    readBetween s t = got := by
  have e : (got.reverse ++ s.responses).length - s.responses.length = got.reverse.length := by simp
  rw [readBetween, h, e, List.take_left, List.reverse_reverse]

/-- Reading back `n` bytes of `OUTBUF` and then some registers, as the calls of R70 do. -/
theorem drive_results {s : State} {n : Nat} (rs : List Reg) (hb : s.busy = false) (hn : n ≤ s.cfg.outCap) :
    let got := (List.range n).map (fun k => PortData.byte (s.byteAt .outBuf k)) ++ rs.map fun r => .word (s.regValue r)
    drive (rb .outBuf 0 n ++ rs.flatMap rr) s = .next (s.tick [] (n + rs.length) got, got) := by
  have h1 := run_rb (s := s.withInputs (rb .outBuf 0 n ++ rs.flatMap rr)) (b := .outBuf) (i := 0) hb (by decide)
    (by simpa [capacity] using hn) rfl
  have h2 := fun g => run_rrs (rest := []) rs (s := s.tick (rs.flatMap rr) n g) (by simpa using hb) (by simp)
  have hl : (rb .outBuf 0 n ++ rs.flatMap rr).length = n + rs.length := by
    rw [List.length_append, rb_length]
    congr 1
    simp [rr]
  rw [drive, hl, run_trans (run_trans h1 (h2 _)) (run_idle (by simpa using hb) rfl 1)]
  simp only [readBetween_eq (State.tick_responses _ _ _ _), State.tick_tick, State.tick_regValue,
    State.withInputs_byteAt, Nat.zero_add]

/-- A call up to its `wait`, once its operands are loaded: the command has run, and `STATUS` is what the host has
read. -/
theorem drive_request {c : Call} {s u t : State} (hl : core.run c.loads.length (s.withInputs c.request) = .next u)
    (hi : u.inputs = cmd c.command ++ wait) (hb : u.busy = false) (hr : u.responses = s.responses)
    (hd : decode (encode c.command) = .ok c.command)
    (he : exec c.command ((u.tick wait 1 []).accept (encode c.command)) = .next t) (ht : t.inputs = wait)
    (hf : t.busy = false) (hn : t.done = true) (hs : t.responses = u.responses) :
    drive c.request s = .next ((t.respond (.word t.status)).withInputs [], [.word t.status]) := by
  have h := run_trans hl (run_cmd_wait hd hb hi he ht hf hn)
  have e : c.request.length + 1 = c.loads.length + 3 := by simp [Call.request, cmd, wr, wait]
  rw [drive, e, h]
  have hg : readBetween s ({ t.respond (.word t.status) with inputs := [] } : State) = [.word t.status] :=
    readBetween_eq (congrArg (PortData.word t.status :: ·) (hs.trans hr))
  simp only [hg, State.withInputs]

/-! ## How a call ends -/

/-- The error code in `STATUS` (R21). -/
@[simp] theorem statusErr_status (s : State) : statusErr s.status = s.err.code := by
  unfold statusErr State.status
  cases s.err <;> cases s.tblValid <;> cases s.rkValid <;> cases s.done <;> cases s.busy <;> rfl

theorem Err.code_eq_zero {e : Err} : e.code = 0 ↔ e = .noError := by
  cases e <;> decide

/-- What a call returns when its result steps have read these bytes and then these words. -/
theorem callAnswer_read (s : State) (bytes : List Byte) (words : List Word) :
    callAnswer s.status (bytes.map .byte ++ words.map .word) =
      if s.err = .noError then .ok ⟨bytes, words⟩ else .error s.err.code := by
  have hb : bytesIn (bytes.map .byte ++ words.map .word) = bytes := by simp [bytesIn, List.filterMap_append]
  have hw : wordsIn (bytes.map .byte ++ words.map .word) = words := by simp [wordsIn, List.filterMap_append]
  rw [callAnswer, hb, hw, statusErr_status]
  by_cases h : s.err = .noError
  · rw [if_pos h, if_pos (Err.code_eq_zero.2 h)]
  · rw [if_neg h, if_neg (fun hc => h (Err.code_eq_zero.1 hc))]

/-- A call from the state its command leaves: with no error it returns `m` bytes of `OUTBUF` and the registers `rs`,
else it fails with the code of the error. -/
theorem perform_of_request {c : Call} {s t : State} {lens rs : List Reg} {m : Nat}
    (hq : drive c.request s = .next ((t.respond (.word t.status)).withInputs [], [.word t.status])) (hb : t.busy = false)
    (hl : c.lengthSteps t.status = lens.flatMap rr)
    (hr : c.resultSteps t.status ((lens.map t.regValue).headD 0).toNat = rb .outBuf 0 m ++ rs.flatMap rr)
    (hm : m ≤ t.cfg.outCap) :
    ∃ v, c.perform s = .next (v, if t.err = .noError then .ok ⟨t.readBytes .outBuf m, rs.map t.regValue⟩
        else .error t.err.code) ∧ v.busy = false ∧ v.inputs = [] := by
  have eb : ∀ b a, (t.respond (.word t.status)).byteAt b a = t.byteAt b a := fun b a => by cases b <;> rfl
  have er : ∀ r, (t.respond (.word t.status)).regValue r = t.regValue r := fun r => by cases r <;> rfl
  have h2 : drive (lens.flatMap rr) ((t.respond (.word t.status)).withInputs []) =
      .next (State.tick ((t.respond (.word t.status)).withInputs []) [] lens.length ((lens.map t.regValue).map .word),
        (lens.map t.regValue).map .word) := by
    simpa [rb, er, Function.comp_def] using
      drive_results (s := (t.respond (.word t.status)).withInputs []) (n := 0) lens hb (Nat.zero_le _)
  generalize hu : State.tick ((t.respond (.word t.status)).withInputs []) [] lens.length
    ((lens.map t.regValue).map .word) = u at h2
  have ub : u.busy = false := by rw [← hu]; exact hb
  have uc : u.cfg = t.cfg := by rw [← hu]; rfl
  have h3 := drive_results (s := u) (n := m) rs ub (by rw [uc]; exact hm)
  have e3 : ((List.range m).map (fun k => PortData.byte (u.byteAt .outBuf k)) ++ rs.map fun r => .word (u.regValue r)) =
      (t.readBytes .outBuf m).map .byte ++ (rs.map t.regValue).map .word := by
    rw [← hu]
    simp [eb, er, State.readBytes, Function.comp_def]
  have w1 : wordsIn [PortData.word t.status] = [t.status] := rfl
  have w2 : ∀ ws : List Word, wordsIn (ws.map .word) = ws := fun ws => by simp [wordsIn]
  rw [← callAnswer_read, ← e3]
  unfold Call.perform
  rw [hq]
  simp only [w1, List.headD_cons, hl, h2, w2, hr, h3]
  exact ⟨_, rfl, ub, rfl⟩

end Sys2Proof.Machine
end

