-- ==== Sys2Proof/Laws/PerInstr.lean ====
section
/-! SUPPORT. Per command: the fields of its encoded word are legal by the table of R66. -/

namespace Sys2Proof.Laws.EncodeLegal

/-- The encoded word has fields the table of R66 allows: its `RSV` is 0, and `STRAT`, `PAD` and `KX` are among
the values of the command's row. -/
def Statement (i : Instr) : Prop :=
  (fieldsOf (encode i)).wellFormed = true

theorem keyexpD : Statement .keyexpD := rfl
theorem keyexpT : Statement .keyexpT := rfl
theorem tblgen : Statement .tblgen := rfl
theorem encblkD (kx : Bool) : Statement (.encblkD kx) := by
  cases kx <;> rfl
theorem encblkT (kx : Bool) : Statement (.encblkT kx) := by
  cases kx <;> rfl
theorem encblkB (kx : Bool) : Statement (.encblkB kx) := by
  cases kx <;> rfl
theorem decblkD (kx : Bool) : Statement (.decblkD kx) := by
  cases kx <;> rfl
theorem decblkT (kx : Bool) : Statement (.decblkT kx) := by
  cases kx <;> rfl
theorem decblkB (kx : Bool) : Statement (.decblkB kx) := by
  cases kx <;> rfl
theorem encD (pad : Padding) (kx : Bool) : Statement (.encD pad kx) := by
  cases pad <;> cases kx <;> rfl
theorem encT (pad : Padding) (kx : Bool) : Statement (.encT pad kx) := by
  cases pad <;> cases kx <;> rfl
theorem encB (pad : Padding) (kx : Bool) : Statement (.encB pad kx) := by
  cases pad <;> cases kx <;> rfl
theorem decD (pad : Padding) (kx : Bool) : Statement (.decD pad kx) := by
  cases pad <;> cases kx <;> rfl
theorem decT (pad : Padding) (kx : Bool) : Statement (.decT pad kx) := by
  cases pad <;> cases kx <;> rfl
theorem decB (pad : Padding) (kx : Bool) : Statement (.decB pad kx) := by
  cases pad <;> cases kx <;> rfl
theorem gcmencD (kx : Bool) : Statement (.gcmencD kx) := by
  cases kx <;> rfl
theorem gcmencT (kx : Bool) : Statement (.gcmencT kx) := by
  cases kx <;> rfl
theorem gcmencB (kx : Bool) : Statement (.gcmencB kx) := by
  cases kx <;> rfl
theorem gcmdecD (kx : Bool) : Statement (.gcmdecD kx) := by
  cases kx <;> rfl
theorem gcmdecT (kx : Bool) : Statement (.gcmdecT kx) := by
  cases kx <;> rfl
theorem gcmdecB (kx : Bool) : Statement (.gcmdecB kx) := by
  cases kx <;> rfl

end Sys2Proof.Laws.EncodeLegal
end

