-- ==== Sys2Proof/Tests/Slice0.lean ====
section
/-! SUPPORT. Tests against the vectors of 95_test_vectors.md and 96_test_vectors_gcm_programs.md, one step each,
and a witness for the hypotheses of every obligation. -/

namespace Sys2Proof.Tests

open Sys2Proof Sys2Proof.Machine

-- One theorem at a time: many kernel evaluations at once take more threads than the memory limit allows.
set_option Elab.async false

/-! ## Helpers -/

/-- A buffer that holds these bytes from index 0 on. -/
def listed (v : List Byte) : Memory :=
  Memory.writeBytes [] 0 v

/-- The key `K*`. -/
def keyStar : List Byte :=
  [0x01, 0x23, 0x45, 0x67, 0x89, 0xab, 0xcd, 0xef, 0xfe, 0xdc, 0xba, 0x98, 0x76, 0x54, 0x32, 0x10]

/-- The subkeys `RK*`, the words of V2. -/
def rkStar : Vector Word 32 :=
  #v[0xf12186f9, 0x41662b61, 0x5a6ab19a, 0x7ba92077, 0x367360f4, 0x776a0c61, 0xb6bb89b3, 0x24763151,
    0xa520307c, 0xb7584dbd, 0xc30753ed, 0x7ee55b57, 0x6988608c, 0x30d895b7, 0x44ba14af, 0x104495a1,
    0xd120b428, 0x73b55fa3, 0xcc874966, 0x92244439, 0xe89e641f, 0x98ca015a, 0xc7159060, 0x99e1fd2e,
    0xb79bd80c, 0x1d2115b0, 0x0e228aeb, 0xf1780c81, 0x428d3654, 0x62293496, 0x01cf72e5, 0x9124a012]

/-- `K*` in `KEYBUF`, not loaded. -/
def withKey : State :=
  { State.reset with keyBuf := listed keyStar, keyLen := 16 }

/-- `RK*` loaded (V28: "key loaded"). -/
def keyed : State :=
  { withKey with rk := rkStar, rkValid := true, done := true }

/-- `RK*` loaded and a message in `INBUF`. -/
def keyedWith (m : List Byte) : State :=
  { keyed with inBuf := listed m, inLen := BitVec.ofNat 32 m.length }

/-- The next state, or a state that no command leaves (busy) if there is none. -/
def after (o : Host.Outcome State Fault Refusal) : State :=
  match o with
  | .next t => t
  | .fault _ => { State.reset with busy := true }
  | .refused _ => { State.reset with busy := true }

/-- The refusal, if there is one. -/
def refusalOf (o : Host.Outcome State Fault Refusal) : Option Refusal :=
  match o with
  | .next _ => none
  | .fault _ => none
  | .refused r => some r

/-- Error code, `OUT_LEN`, and the first `n` bytes of `OUTBUF` after a command. -/
def result (i : Instr) (s : State) (n : Nat) : Err × Word × List Byte :=
  let t := after (exec i s)
  (t.err, t.outLen, t.readBytes .outBuf n)

/-- Error code, `OUT_LEN` and `STATUS` after a command. -/
def report (i : Instr) (s : State) : Err × Word × Word :=
  let t := after (exec i s)
  (t.err, t.outLen, t.status)

/-! ## Decoding: one word per constructor, its fields written out from R60 to R64 (RSV, KX, PAD, STRAT, OP) -/

theorem test_decode_keyexpD : decode (0#20 ++ 0#1 ++ 0#1 ++ 0#2 ++ 0x01#8) = .ok .keyexpD := by decide
theorem test_decode_keyexpT : decode (0#20 ++ 0#1 ++ 0#1 ++ 1#2 ++ 0x01#8) = .ok .keyexpT := by decide
theorem test_decode_tblgen : decode (0#20 ++ 0#1 ++ 0#1 ++ 0#2 ++ 0x02#8) = .ok .tblgen := by decide
theorem test_decode_encblkD : decode (0#20 ++ 0#1 ++ 0#1 ++ 0#2 ++ 0x10#8) = .ok (.encblkD false) := by decide
theorem test_decode_encblkT : decode (0#20 ++ 1#1 ++ 0#1 ++ 1#2 ++ 0x10#8) = .ok (.encblkT true) := by decide
theorem test_decode_encblkB : decode (0#20 ++ 0#1 ++ 0#1 ++ 2#2 ++ 0x10#8) = .ok (.encblkB false) := by decide
theorem test_decode_decblkD : decode (0#20 ++ 1#1 ++ 0#1 ++ 0#2 ++ 0x11#8) = .ok (.decblkD true) := by decide
theorem test_decode_decblkT : decode (0#20 ++ 0#1 ++ 0#1 ++ 1#2 ++ 0x11#8) = .ok (.decblkT false) := by decide
theorem test_decode_decblkB : decode (0#20 ++ 1#1 ++ 0#1 ++ 2#2 ++ 0x11#8) = .ok (.decblkB true) := by decide
theorem test_decode_encD : decode (0#20 ++ 0#1 ++ 1#1 ++ 0#2 ++ 0x20#8) = .ok (.encD .pkcs7 false) := by decide
theorem test_decode_encT : decode (0#20 ++ 1#1 ++ 0#1 ++ 1#2 ++ 0x20#8) = .ok (.encT .none true) := by decide
theorem test_decode_encB : decode (0#20 ++ 0#1 ++ 1#1 ++ 2#2 ++ 0x20#8) = .ok (.encB .pkcs7 false) := by decide
theorem test_decode_decD : decode (0#20 ++ 1#1 ++ 0#1 ++ 0#2 ++ 0x21#8) = .ok (.decD .none true) := by decide
theorem test_decode_decT : decode (0#20 ++ 0#1 ++ 1#1 ++ 1#2 ++ 0x21#8) = .ok (.decT .pkcs7 false) := by decide
theorem test_decode_decB : decode (0#20 ++ 1#1 ++ 1#1 ++ 2#2 ++ 0x21#8) = .ok (.decB .pkcs7 true) := by decide
theorem test_decode_gcmencD : decode (0#20 ++ 0#1 ++ 0#1 ++ 0#2 ++ 0x30#8) = .ok (.gcmencD false) := by decide
theorem test_decode_gcmencT : decode (0#20 ++ 1#1 ++ 0#1 ++ 1#2 ++ 0x30#8) = .ok (.gcmencT true) := by decide
theorem test_decode_gcmencB : decode (0#20 ++ 0#1 ++ 0#1 ++ 2#2 ++ 0x30#8) = .ok (.gcmencB false) := by decide
theorem test_decode_gcmdecD : decode (0#20 ++ 1#1 ++ 0#1 ++ 0#2 ++ 0x31#8) = .ok (.gcmdecD true) := by decide
theorem test_decode_gcmdecT : decode (0#20 ++ 0#1 ++ 0#1 ++ 1#2 ++ 0x31#8) = .ok (.gcmdecT false) := by decide
theorem test_decode_gcmdecB : decode (0#20 ++ 1#1 ++ 0#1 ++ 2#2 ++ 0x31#8) = .ok (.gcmdecB true) := by decide

/-- V27: illegal words, each rejected at the step of R68 that names it. -/
theorem test_decode_illegal_combinations :
    [0x00000201, 0x00000801, 0x00000401, 0x00000102, 0x00000410, 0x00000310, 0x00000f20, 0x00000430].all
      (fun w => decode w = .error .illegalCombination) = true := by decide

/-- V27: reserved operation codes. -/
theorem test_decode_unknown_op :
    [0x00000000, 0x00000012, 0x00000003, 0x00000022, 0x000000ff].all (fun w => decode w = .error .unknownOp) = true := by
  decide

/-- V27: non-zero reserved bits. -/
theorem test_decode_reserved_bits :
    [0x00001010, 0x80000010, 0xffffffff].all (fun w => decode w = .error .reservedBits) = true := by decide

/-- The word of R69's worked form `OP | STRAT << 8 | PAD << 10 | KX << 11`: `GCMDEC.B kx` is 0x00000A31. -/
theorem test_encode_gcmdecB : encode (.gcmdecB true) = 0x00000a31 := by decide

/-- V27: 0x00000c20 is `ENC.D pkcs7 kx`, in the numbering of the opcode table. -/
theorem test_decodeTableWord : decodeTableWord 32 0x00000c20 = some (.encD .pkcs7 true) := by decide

/-! ## WellFormed: each check refuses an ill-formed term -/

theorem test_fields_legal : CommandFields.wellFormed ⟨0x20, 2, 1, 1, 0⟩ = true := by decide

theorem test_fields_rsv : CommandFields.wellFormed ⟨0x20, 2, 1, 1, 1⟩ = false := by decide

theorem test_fields_op : CommandFields.wellFormed ⟨0x12, 0, 0, 0, 0⟩ = false := by decide

theorem test_fields_strat : CommandFields.wellFormed ⟨0x01, 2, 0, 0, 0⟩ = false := by decide

theorem test_fields_pad : CommandFields.wellFormed ⟨0x10, 0, 1, 0, 0⟩ = false := by decide

theorem test_fields_kx : CommandFields.wellFormed ⟨0x01, 0, 0, 1, 0⟩ = false := by decide

theorem test_config_standard : Config.standard.wellFormed = true := by decide

theorem test_config_keyCap : Config.wellFormed ⟨15, 128, 4096, 4096, 4112, 4, none⟩ = false := by decide

theorem test_config_ivCap : Config.wellFormed ⟨32, 11, 4096, 4096, 4112, 4, none⟩ = false := by decide

theorem test_config_aadCap : Config.wellFormed ⟨32, 128, 2 ^ 32, 4096, 4112, 4, none⟩ = false := by decide

theorem test_config_inCap_low : Config.wellFormed ⟨32, 128, 4096, 15, 4112, 4, none⟩ = false := by decide

theorem test_config_inCap_high : Config.wellFormed ⟨32, 128, 4096, 2 ^ 32 - 16, 2 ^ 32, 4, none⟩ = false := by decide

theorem test_config_outCap : Config.wellFormed ⟨32, 128, 4096, 4096, 4111, 4, none⟩ = false := by decide

theorem test_config_lanes : Config.wellFormed ⟨32, 128, 4096, 4096, 4112, 0, none⟩ = false := by decide

/-! ## Functions -/

/-- R44: byte 0 of a block is the most significant. -/
theorem test_block_bytes : bytes128 0x0123456789abcdeffedcba9876543210 = keyStar := by decide +kernel

/-- V5. -/
theorem test_rotl32 : rotl32 0x80000001 2 = 0x00000006 ∧ rotr32 0x12345678 8 = 0x78123456 := by decide +kernel

/-- V5. -/
theorem test_sbox : sbox 0x00 = 0xd6 ∧ sbox 0x01 = 0x90 ∧ sbox 0x71 = 0x00 ∧ sbox 0xef = 0x84 ∧ sbox 0xff = 0x48 := by
  decide +kernel

/-- V5, row deadbeef. -/
theorem test_transforms : tau 0xdeadbeef = 0xb4535b84 ∧ linL 0xdeadbeef = 0x06812d22 ∧ linLk 0xdeadbeef = 0x1e9f13e5 ∧
    transT 0xdeadbeef = 0xc2d6a551 ∧ transTk 0xdeadbeef = 0x1d79e4a3 := by decide +kernel

/-- R90: the last constant of the table, `CK[31]`, has the bytes `((124 + j) * 7) mod 256`. -/
theorem test_ck : ck 0 = 0x00070e15 ∧ ck 31 = 0x646b7279 := by decide +kernel

/-- V2: `K[0..3]` after R101. -/
theorem test_keyInit : keyInit 0x0123456789abcdeffedcba9876543210 = ⟨0xa292ffa1, 0xdf01febf, 0x99a12b0f, 0xc42410cc⟩ := by
  decide +kernel

/-- V8, V9: entries 00, 71 and ff of the tables. -/
theorem test_table_entries : tableD.get 0x00 = 0x8ed55b5b ∧ tableD.get 0xff = 0x68492121 ∧ tableK.get 0x71 = 0 ∧
    tableK.get 0xff = 0x48240900 := by decide +kernel

/-- V10, row 12345678. -/
theorem test_table_lookup : tabLookup tableD 0x12345678 = 0xf32f23e8 ∧ tabLookup tableK 0x12345678 = 0x87cd2df8 := by
  decide +kernel

/-- V17. -/
theorem test_gfMul : gfMul 0x0388dace60b6a392f328c2b971b2fe78 0x66e94bd4ef8a2c3b884cfa59ca342b2e =
    0x5e2ec746917062882c85b0685353deb7 := by decide +kernel

/-- V17: x^127 times x reduces to the constant. -/
theorem test_gfMul_reduces : gfMul 0x1 0x40000000000000000000000000000000 = 0xe1000000000000000000000000000000 := by
  decide +kernel

/-- V19. -/
theorem test_inc32 : inc32 0x0123456789abcdeffedcba98ffffffff = 0x0123456789abcdeffedcba9800000000 := by decide +kernel

/-- V22: an 8-byte nonce is hashed. -/
theorem test_initialCounter : initialCounter 0x2677f46b09c122cc975533105bd4a22a
    [0xca, 0xfe, 0xba, 0xbe, 0xfa, 0xce, 0xdb, 0xad] = 0x92130fb8aea18961935d9e1a8f62a107 := by decide +kernel

/-- V14, V15. -/
theorem test_pad : pad [0x61, 0x62, 0x63] = [0x61, 0x62, 0x63] ++ List.replicate 13 0x0d ∧
    unpad (zeros 13 ++ [0x03, 0x02, 0x03]) = none ∧
    unpad (List.replicate 16 0x02) = some (List.replicate 14 0x02) := by decide +kernel

/-! ## Commands -/

/-- V2: `RK*`, `STATUS` 6 from reset. -/
theorem test_keyexpD : (after (exec .keyexpD withKey)).rk = rkStar ∧ report .keyexpD withKey = (.noError, 0, 0x00000006) := by
  decide +kernel

/-- V2, V12: the same subkeys through the table, which is built on the way. -/
theorem test_keyexpT : (after (exec .keyexpT withKey)).rk = rkStar ∧ (after (exec .keyexpT withKey)).status = 0x0000000e := by
  decide +kernel

/-- V28: a wrong key length keeps the loaded key. -/
theorem test_keyexpD_length : report .keyexpD { keyed with keyLen := 17 } = (.invalidKeyLength, 0, 0x00000106) := by
  decide +kernel

/-- R127: both tables valid, no output; `RK_VALID` as before. -/
theorem test_tblgen : report .tblgen State.reset = (.noError, 0, 0x0000000a) := by
  decide +kernel

/-- V1, with the key prefix. -/
theorem test_encblkD : result (.encblkD true) { withKey with inBuf := listed keyStar, inLen := 16 } 16 = (.noError, 16, [0x68, 0x1e, 0xdf, 0x34, 0xd2, 0x06, 0x96, 0x5e, 0x86, 0xb3, 0xe9, 0x4f, 0x53, 0x6e, 0x42, 0x46]) := by
  decide +kernel

/-- V28: `KeyNotLoaded` comes before `LengthRange`. -/
theorem test_encblkD_keyNotLoaded : report (.encblkD false) { State.reset with inLen := 5000 } = (.keyNotLoaded, 0, 0x00000602) := by
  decide +kernel

/-- V1, through the tables. -/
theorem test_encblkT : result (.encblkT false) (keyedWith keyStar) 16 = (.noError, 16, [0x68, 0x1e, 0xdf, 0x34, 0xd2, 0x06, 0x96, 0x5e, 0x86, 0xb3, 0xe9, 0x4f, 0x53, 0x6e, 0x42, 0x46]) := by
  decide +kernel

/-- V11: with the key prefix from a state without tables, `STATUS` 0000000e. -/
theorem test_encblkT_status : report (.encblkT true) { withKey with inBuf := listed keyStar, inLen := 16 } =
    (.noError, 16, 0x0000000e) := by
  decide +kernel

/-- V13: two blocks. -/
theorem test_encblkB : result (.encblkB false)
    (keyedWith [0x00, 0x11, 0x22, 0x33, 0x44, 0x55, 0x66, 0x77, 0x88, 0x99, 0xaa, 0xbb, 0xcc, 0xdd, 0xee, 0xff, 0xff, 0xee, 0xdd, 0xcc, 0xbb, 0xaa, 0x99, 0x88, 0x77, 0x66, 0x55, 0x44, 0x33, 0x22, 0x11, 0x00]) 32 =
    (.noError, 32, [0x09, 0x32, 0x5c, 0x48, 0x53, 0x83, 0x2d, 0xcb, 0x93, 0x37, 0xa5, 0x98, 0x4f, 0x67, 0x1b, 0x9a, 0x87, 0x05, 0x1d, 0x10, 0x1c, 0x33, 0x34, 0x80, 0x27, 0x34, 0xfc, 0xbf, 0x48, 0xfd, 0x5b, 0x4d]) := by
  decide +kernel

/-- V13: 24 bytes are no list of blocks. -/
theorem test_encblkB_length : report (.encblkB false) { keyed with inLen := 24 } = (.lengthRange, 0, 0x00000706) := by
  decide +kernel

/-- V1. -/
theorem test_decblkD : result (.decblkD false) (keyedWith [0x68, 0x1e, 0xdf, 0x34, 0xd2, 0x06, 0x96, 0x5e, 0x86, 0xb3, 0xe9, 0x4f, 0x53, 0x6e, 0x42, 0x46]) 16 =
    (.noError, 16, keyStar) := by
  decide +kernel

/-- V1. -/
theorem test_decblkT : result (.decblkT false) (keyedWith [0x68, 0x1e, 0xdf, 0x34, 0xd2, 0x06, 0x96, 0x5e, 0x86, 0xb3, 0xe9, 0x4f, 0x53, 0x6e, 0x42, 0x46]) 16 =
    (.noError, 16, keyStar) := by
  decide +kernel

/-- V13: plain blocks decrypted. -/
theorem test_decblkB : result (.decblkB false)
    (keyedWith [0x00, 0x11, 0x22, 0x33, 0x44, 0x55, 0x66, 0x77, 0x88, 0x99, 0xaa, 0xbb, 0xcc, 0xdd, 0xee, 0xff]) 16 = (.noError, 16, [0x43, 0x64, 0x24, 0x57, 0x6b, 0x5a, 0xa8, 0x40, 0xb6, 0xad, 0x65, 0x34, 0x5e, 0x04, 0x58, 0xa1]) := by
  decide +kernel

/-- V14. -/
theorem test_encD : result (.encD .pkcs7 false) (keyedWith [0x61, 0x62, 0x63]) 16 =
    (.noError, 16, [0x10, 0x55, 0x43, 0x5b, 0x9e, 0xce, 0x61, 0x23, 0x44, 0xf8, 0xe1, 0x00, 0x16, 0xc4, 0x94, 0x3b]) := by
  decide +kernel

/-- V16: an unaligned message without padding. -/
theorem test_encD_length : report (.encD .none false) { keyed with inLen := 17 } = (.lengthRange, 0, 0x00000706) := by
  decide +kernel

/-- V14: the empty message. -/
theorem test_encT : result (.encT .pkcs7 false) keyed 16 = (.noError, 16, [0x00, 0x2a, 0x8a, 0x4e, 0xfa, 0x86, 0x3c, 0xca, 0xd0, 0x24, 0xac, 0x03, 0x00, 0xbb, 0x40, 0xd2]) := by
  decide +kernel

/-- V28: the lazy table build precedes the key check and is kept. -/
theorem test_encT_keyLength : report (.encT .pkcs7 true) { State.reset with keyLen := 15 } = (.invalidKeyLength, 0, 0x0000010a) := by
  decide +kernel

/-- V14: 16 bytes become two blocks. -/
theorem test_encB : result (.encB .pkcs7 false) (keyedWith [0x00, 0x01, 0x02, 0x03, 0x04, 0x05, 0x06, 0x07, 0x08, 0x09, 0x0a, 0x0b, 0x0c, 0x0d, 0x0e, 0x0f]) 32 =
    (.noError, 32, [0x06, 0x98, 0x9c, 0x61, 0x3d, 0xa6, 0x68, 0xad, 0x2a, 0x8d, 0xf7, 0x82, 0xe1, 0xa8, 0xf9, 0x6a, 0x00, 0x2a, 0x8a, 0x4e, 0xfa, 0x86, 0x3c, 0xca, 0xd0, 0x24, 0xac, 0x03, 0x00, 0xbb, 0x40, 0xd2]) := by
  decide +kernel

/-- V14. -/
theorem test_decD : result (.decD .pkcs7 false) (keyedWith [0x10, 0x55, 0x43, 0x5b, 0x9e, 0xce, 0x61, 0x23, 0x44, 0xf8, 0xe1, 0x00, 0x16, 0xc4, 0x94, 0x3b]) 3 =
    (.noError, 3, [0x61, 0x62, 0x63]) := by
  decide +kernel

/-- V15: last byte 0x11. -/
theorem test_decD_padding : report (.decD .pkcs7 false) (keyedWith [0x9b, 0x89, 0xc4, 0x38, 0x21, 0x15, 0x7e, 0x5f, 0xda, 0x57, 0x65, 0x85, 0x8c, 0xc6, 0x94, 0x2d]) =
    (.invalidPadding, 0, 0x00000306) := by
  decide +kernel

/-- V14, without padding. -/
theorem test_decT : result (.decT .none false) (keyedWith [0x09, 0x32, 0x5c, 0x48, 0x53, 0x83, 0x2d, 0xcb, 0x93, 0x37, 0xa5, 0x98, 0x4f, 0x67, 0x1b, 0x9a]) 16 =
    (.noError, 16, [0x00, 0x11, 0x22, 0x33, 0x44, 0x55, 0x66, 0x77, 0x88, 0x99, 0xaa, 0xbb, 0xcc, 0xdd, 0xee, 0xff]) := by
  decide +kernel

/-- V16, from a keyed state without tables: the tables are built, then the alignment is refused. -/
theorem test_decT_length : report (.decT .pkcs7 false) { keyed with inLen := 15 } = (.invalidCiphertextLength, 0, 0x0000020e) := by
  decide +kernel

/-- V14. -/
theorem test_decB : result (.decB .none false)
    (keyedWith [0x09, 0x32, 0x5c, 0x48, 0x53, 0x83, 0x2d, 0xcb, 0x93, 0x37, 0xa5, 0x98, 0x4f, 0x67, 0x1b, 0x9a, 0x87, 0x05, 0x1d, 0x10, 0x1c, 0x33, 0x34, 0x80, 0x27, 0x34, 0xfc, 0xbf, 0x48, 0xfd, 0x5b, 0x4d]) 32 =
    (.noError, 32, [0x00, 0x11, 0x22, 0x33, 0x44, 0x55, 0x66, 0x77, 0x88, 0x99, 0xaa, 0xbb, 0xcc, 0xdd, 0xee, 0xff, 0xff, 0xee, 0xdd, 0xcc, 0xbb, 0xaa, 0x99, 0x88, 0x77, 0x66, 0x55, 0x44, 0x33, 0x22, 0x11, 0x00]) := by
  decide +kernel

/-- A GCM operation under `RK*` with the all-zero 12-byte nonce and no associated data. -/
def gcmWith (m : List Byte) (tag : Vector Word 4) : State :=
  { keyedWith m with ivBuf := listed (zeros 12), ivLen := 12, tagIn := tag }

/-- The inputs of V21 with the 1-byte plaintext. -/
def gcmAad : State :=
  { keyedWith [0x00] with
    ivBuf := listed [0x00, 0x00, 0x12, 0x34, 0x56, 0x78, 0x00, 0x00, 0x00, 0x00, 0xab, 0xcd]
    ivLen := 12
    aadBuf := listed [0xfe, 0xed, 0xfa, 0xce, 0xde, 0xad, 0xbe, 0xef]
    aadLen := 8 }

/-- V20, plaintext `00`. -/
theorem test_gcmencD : result (.gcmencD false) (gcmWith [0x00] (Vector.replicate 4 0)) 1 = (.noError, 1, [0xb3]) ∧
    (after (exec (.gcmencD false) (gcmWith [0x00] (Vector.replicate 4 0)))).tagOut = #v[0x0ebb89bf, 0xc36d5a78, 0x64739a0a, 0x42cc0675] := by
  decide +kernel

/-- V20, empty plaintext: the tag is `E(J0)`. -/
theorem test_gcmencT : (after (exec (.gcmencT false) (gcmWith [] (Vector.replicate 4 0)))).tagOut =
    #v[0x4e595bf0, 0x3f23bd10, 0x329baf56, 0x98e898ec] := by
  decide +kernel

/-- V21: 1-byte plaintext, 8 bytes of associated data. -/
theorem test_gcmencB : (after (exec (.gcmencB false) gcmAad)).tagOut = #v[0xb0d37892, 0xb3281abe, 0x692b2453, 0xbefb8210] := by
  decide +kernel

/-- V20, back again. -/
theorem test_gcmdecD : result (.gcmdecD false) (gcmWith [0xb3] #v[0x0ebb89bf, 0xc36d5a78, 0x64739a0a, 0x42cc0675]) 1 = (.noError, 1, [0x00]) := by
  decide +kernel

/-- V26: one bit of the supplied tag changed. -/
theorem test_gcmdecD_tag : report (.gcmdecD false) (gcmWith [0xb3] #v[0x0ebb89bf, 0xc36d5a78, 0x64739a0a, 0x42cc0674]) =
    (.authenticationFailed, 0, 0x00000406) := by
  decide +kernel

/-- V20, empty ciphertext. -/
theorem test_gcmdecT : report (.gcmdecT false) (gcmWith [] #v[0x4e595bf0, 0x3f23bd10, 0x329baf56, 0x98e898ec]) =
    (.noError, 0, 0x0000000e) := by
  decide +kernel

/-- V20: the reset value of `TAG_IN` is no tag. -/
theorem test_gcmdecB : report (.gcmdecB false) (gcmWith [] (Vector.replicate 4 0)) = (.authenticationFailed, 0, 0x00000406) := by
  decide +kernel

/-- V28: lengths before authentication. -/
theorem test_gcmdecD_length : report (.gcmdecD false) { keyed with ivLen := 129 } = (.lengthRange, 0, 0x00000706) := by
  decide +kernel

/-- V28: the key prefix is kept although the command failed. -/
theorem test_keyPrefix_committed : (after (exec (.decD .none true) { withKey with inLen := 17 })).rk = rkStar ∧
    report (.decD .none true) { withKey with inLen := 17 } = (.invalidCiphertextLength, 0, 0x00000206) := by
  decide +kernel

/-! ## Steps -/

/-- V27: an illegal word, from a keyed state. -/
theorem test_step_illegal : (after (step (keyed.withFetchWord 32 0x00000310))).status = 0x00000506 := by
  decide +kernel

/-- The word placed is run by the next step: `TBLGEN`. -/
theorem test_step_runs : (after (step (State.reset.withFetchWord 32 0x00000002))).status = 0x0000000a := by
  decide +kernel

/-- P1, step 3: `cmd KEYEXP.D` is a write of 0x00000001 to `CMD`; it makes the block busy. -/
theorem test_step_cmd : (after (step { withKey with inputs := cmd .keyexpD })).cmdw = 0x00000001 ∧
    (after (step { withKey with inputs := cmd .keyexpD })).status = 0x00000001 := by
  decide +kernel

/-- P1, step 2: a length register is written. -/
theorem test_step_wr : (after (step { State.reset with inputs := wr .keyLen 0x10 })).keyLen = 0x10 := by
  decide +kernel

/-- P1, step 6: `RK[31]` is read. -/
theorem test_step_rr : (after (step { keyed with inputs := rr (.rk 31) })).responses = [.word 0x9124a012] := by
  decide +kernel

/-- P1, step 1: the first byte of a buffer write. -/
theorem test_step_wb : (after (step { State.reset with inputs := wb .keyBuf 0 keyStar })).keyBuf = [(0, 0x01)] := by
  decide +kernel

/-- R26: while busy a write is dropped. -/
theorem test_step_busy_write :
    (after (step { State.reset with busy := true, delay := 1, inputs := wr .keyLen 0x10 })).keyLen = 0 := by
  decide +kernel

/-- R45: an unaligned register access is refused. -/
theorem test_step_refused : refusalOf (step { State.reset with inputs := [.access (.readReg 4 0x002)] }) =
    some (.undefinedRegisterAccess 4 0x002) := by
  decide +kernel

/-- R24: a buffer access at the capacity is refused. -/
theorem test_step_refused_buffer : refusalOf (step { State.reset with inputs := rb .inBuf 4096 1 }) =
    some (.undefinedBufferAccess .inBuf 1 4096) := by
  decide +kernel

/-- R23: the register map at the bounds of its groups. -/
theorem test_register_map : regAt 0x01C = some .reserved ∧ regAt 0x020 = some (.tagIn 0) ∧ regAt 0x02C = some (.tagIn 3) ∧
    regAt 0x030 = some (.tagOut 0) ∧ regAt 0x03C = some (.tagOut 3) ∧ regAt 0x040 = some (.rk 0) ∧
    regAt 0x0BC = some (.rk 31) ∧ regAt 0x0C0 = some .reserved ∧ regAt 0x0FC = some .reserved ∧ regAt 0x100 = none := by
  decide +kernel

/-- R69: the text of two commands. -/
theorem test_commandText : commandText (.encB .pkcs7 true) = "ENC.B pkcs7 kx" ∧ commandText .tblgen = "TBLGEN" := by
  decide +kernel

/-- R70: the request of a call. -/
theorem test_request : (Call.keyedBlock .dec .table [0xaa, 0xbb] 0).request.take 3 ++
      (Call.keyedBlock .dec .table [0xaa, 0xbb] 0).request.drop 19 =
    [.access (.writeBuf .keyBuf 1 0 0xaa), .access (.writeBuf .keyBuf 1 1 0xbb), .access (.writeReg 4 0x008 2),
      .access (.writeReg 4 0x014 16), .access (.writeReg 4 0x000 0x00000911), .wait] := by
  decide +kernel

/-- R70: the result steps of a `gcm_encrypt` with 1 byte of output. -/
theorem test_resultSteps : (Call.gcmEncrypt .direct keyStar [] [0x00] []).resultSteps 0x00000006 1 =
    [.access (.readBuf .outBuf 1 0), .access (.readReg 4 0x030), .access (.readReg 4 0x034), .access (.readReg 4 0x038),
      .access (.readReg 4 0x03C)] := by
  decide +kernel

/-- R70: a `gcm_decrypt` that has failed (`STATUS` of V26) reads nothing and fails with code 4. -/
theorem test_failed_gcmDecrypt :
    (Call.gcmDecrypt .direct keyStar [] [0xb3] 0 []).lengthSteps 0x00000406 = [] ∧
      (Call.gcmDecrypt .direct keyStar [] [0xb3] 0 []).resultSteps 0x00000406 1 = [] ∧
      callAnswer 0x00000406 [] = .error 4 := by
  decide +kernel

/-! ## Witnesses: states and operands that meet the hypotheses of the obligations -/

/-- `ENCBLK.D` accepted, engine ready, a message in `INBUF`; tables built. -/
def running : State :=
  { keyedWith keyStar with
    tblD := tableD
    tblK := tableK
    tblValid := true
    busy := true
    done := false
    cmdw := 0x00000010 }

/-- The same state before the command was accepted: idle, with tables. -/
def ready : State :=
  { running with busy := false, done := true, cmdw := 0 }

theorem exec_after (i : Instr) (s : State) : exec i s = .next (after (exec i s)) := by
  cases i <;> rfl

theorem tablesSound_of_invalid {s : State} (h : s.tblValid = false) : s.tablesSound := fun hv => by
  rw [h] at hv
  cases hv

theorem witness_EncodeOfDecodeIsTheWord : decode 0x00000910 = .ok (.encblkT true) := by decide

theorem witness_ReservedBitsMakeAWordIllegal : (0x00001010 : Word).extractLsb' 12 20 ≠ 0 := by decide

theorem witness_StepRunsTheDecodedCommand :
    MayComplete running ∧ decode running.cmdw = .ok (.encblkD false) ∧
      decodeTableWord 32 0x00000231 = some (.gcmdecB false) :=
  ⟨⟨rfl, .inl rfl⟩, by decide, by decide⟩

/-- An idle block, with nothing to come, an access, a poll that ends, a poll that goes on. -/
theorem witness_HostStepsTakeTheNextInput :
    ¬MayComplete ready ∧ ready.inputs = [] ∧
      ¬MayComplete { ready with inputs := rr .status } ∧
      ({ ready with inputs := rr .status } : State).inputs = .access (.readReg 4 0x004) :: [] ∧
      ¬MayComplete { ready with inputs := [.wait] } ∧ ({ ready with inputs := [.wait] } : State).done = true ∧
      ¬MayComplete { State.reset with inputs := [.wait] } ∧
      ({ State.reset with inputs := [.wait] } : State).done = false :=
  ⟨fun h => (by decide : ready.busy ≠ true) h.1, rfl, fun h => (by decide : ready.busy ≠ true) h.1, rfl,
    fun h => (by decide : ready.busy ≠ true) h.1, rfl, fun h => (by decide : State.reset.busy ≠ true) h.1, rfl⟩

theorem witness_IllegalWordOnlyReportsIllegalCommand :
    MayComplete (keyed.withFetchWord 32 0x00000310) ∧
      (fieldsOf (keyed.withFetchWord 32 0x00000310).cmdw).wellFormed = false :=
  ⟨⟨rfl, .inl rfl⟩, by decide⟩

theorem witness_ResetLeavesTheResetState_idle :
    ({ keyed with inputs := [.reset] } : State).inputs = .reset :: [] ∧
      ({ keyed with inputs := [.reset] } : State).busy = false :=
  ⟨rfl, rfl⟩

theorem witness_ResetLeavesTheResetState_busy :
    ({ running with inputs := [.reset, .wait], delay := 1 } : State).inputs = .reset :: [.wait] ∧
      ({ running with inputs := [.reset, .wait], delay := 1 } : State).delay ≠ 0 :=
  ⟨rfl, by decide⟩

theorem witness_AcceptedCmdWriteStartsACommand : keyed.busy = false := rfl

theorem witness_BusyWindowAccessesArePowerless :
    running.busy = true ∧ accessDefined running.cfg (.readReg 4 0x004) = true ∧
      accessDefined running.cfg (.readReg 4 0x0FC) = true ∧ accessDefined running.cfg (.writeReg 4 0x000 1) = true ∧
      accessDefined running.cfg (.readBuf .keyBuf 1 31) = true ∧
      accessDefined running.cfg (.writeBuf .outBuf 1 4111 0xff) = true := by
  decide

theorem witness_HostReadsHaveNoSideEffect :
    isWrite (.readReg 4 0x0FC) = false ∧ hostAccess (.readReg 4 0x0FC) keyed = .next (keyed.respond (.word 0)) :=
  ⟨rfl, rfl⟩

theorem witness_HostReadsHaveNoSideEffect_busy :
    isWrite (.readBuf .inBuf 1 4095) = false ∧
      hostAccess (.readBuf .inBuf 1 4095) running = .next running.respondFreeByte :=
  ⟨rfl, rfl⟩

theorem witness_IdleRegisterReadsReturnTheRegister :
    ({ ready with tagOutWritten := true } : State).busy = false ∧
      ({ ready with tagOutWritten := true } : State).tagOutWritten = true ∧
      ({ ready with tagOutWritten := true } : State).rkValid = true :=
  ⟨rfl, rfl, rfl⟩

theorem witness_IdleRegisterWritesStoreOrAreDropped : ready.busy = false := rfl

theorem witness_IdleBufferAccesses :
    ready.busy = false ∧ 31 < capacity ready.cfg .keyBuf ∧ 127 < capacity ready.cfg .ivBuf ∧
      4095 < capacity ready.cfg .aadBuf ∧ 4095 < capacity ready.cfg .inBuf ∧ 4111 < capacity ready.cfg .outBuf := by
  decide

theorem witness_EveryAcceptedCommandCompletes :
    ({ running with inputs := rr .status ++ wait, delay := 1 } : State).busy = true ∧
      ∀ x ∈ ({ running with inputs := rr .status ++ wait, delay := 1 } : State).inputs,
        x ≠ .reset ∧ ∀ a, x = .access a → accessDefined running.cfg a = true := by
  refine ⟨rfl, fun x hx => ?_⟩
  have h : x = .access (.readReg 4 0x004) ∨ x = .wait := by simpa [rr, wait, offsetOf] using hx
  rcases h with rfl | rfl
  · refine ⟨by decide, fun a ha => ?_⟩
    cases ha
    decide
  · exact ⟨by decide, fun a ha => by cases ha⟩

/-- A busy state with a written buffer meets the invariant, and its step is a next state. -/
theorem witness_EveryStepKeepsTheInvariant :
    ({ State.reset with busy := true, cmdw := 0x00000002, keyBuf := [(0, 0x01)] } : State).Inv ∧
      step { State.reset with busy := true, cmdw := 0x00000002, keyBuf := [(0, 0x01)] } =
        exec .tblgen { State.reset with busy := true, cmdw := 0x00000002, keyBuf := [(0, 0x01)] } := by
  refine ⟨⟨?_, ?_, ?_, ?_, ?_, ?_, ?_, rfl⟩, rfl⟩
  · intro b
    cases b <;> simp [State.reset, State.buffer, Memory.wf, Memory.unlisted]
  · intro b c hc
    cases b <;> simp [State.reset, State.buffer] at hc
    subst hc
    decide
  · simp [State.tablesSound, State.reset]
  · simp [State.keySound, State.reset]
  · simp [State.busyDoneExclusive, State.reset]
  · simp [State.errorSound, State.reset]
  · simp [State.outLenSound, State.reset]

theorem witness_TransformsAreLinearAndCommuteWithRotation : 0 < 32 ∧ 31 < 32 := by decide

/-- Every strategy, with tables and without. -/
theorem witness_EveryStrategyComputesTheSameCipher :
    ready.tablesSound ∧ ready.tblValid = true ∧ State.reset.tablesSound ∧ Strategy.batch ≠ .table :=
  ⟨fun _ => ⟨rfl, rfl⟩, rfl, tablesSound_of_invalid rfl, by decide⟩

theorem witness_GhashIsTheBlockRecurrence : keyStar.length % 16 = 0 := by decide

theorem witness_CounterBlocksOfAMessageAreDistinct : Config.standard.wellFormed = true ∧ 2 ^ 28 - 1 < 2 ^ 28 := by decide

theorem witness_StreamIsBytewiseXorWithTheKeystream : 15 < keyStar.length := by decide

theorem witness_InitialCounterOfTwelveByteAndEmptyNonces : (zeros 12).length = 12 := by decide

theorem witness_KeyexpLoadsTheKeySchedule : withKey.keyLen = 16 ∧ withKey.tablesSound :=
  ⟨rfl, tablesSound_of_invalid rfl⟩

theorem witness_ScalarBlockCommandsOutputTheBlock :
    ready.cfg.wellFormed = true ∧ keyReady false ready ∧ keyReady true ready ∧ ready.inLen = 16 :=
  ⟨by decide, rfl, rfl, rfl⟩

theorem ready_tablesSound : ready.tablesSound := fun _ => ⟨rfl, rfl⟩

theorem witness_TableBlockCommandsOutputTheBlock :
    ready.cfg.wellFormed = true ∧ ready.tablesSound ∧ keyReady false ready ∧ keyReady true ready ∧ ready.inLen = 16 :=
  ⟨by decide, ready_tablesSound, rfl, rfl, rfl⟩

/-- A full buffer and no block at all. -/
theorem witness_BatchBlockCommandsOutputEveryBlock :
    ({ ready with inLen := 4096 } : State).cfg.wellFormed = true ∧ keyReady true { ready with inLen := 4096 } ∧
      (4096 : Word).toNat ≤ ready.cfg.inCap ∧ (4096 : Word).toNat % 16 = 0 ∧ (0 : Word).toNat ≤ ready.cfg.inCap ∧
      (0 : Word).toNat % 16 = 0 :=
  ⟨by decide, rfl, by decide, by decide, by decide, by decide⟩

theorem witness_EncOutputsTheEncryptedMessage :
    ready.cfg.wellFormed = true ∧ ready.tablesSound ∧ keyReady false ready ∧ ready.inLen.toNat ≤ ready.cfg.inCap ∧
      (Padding.none = .none → ready.inLen.toNat % 16 = 0) ∧
      pad (ready.operand .inBuf) = if Padding.pkcs7 = .pkcs7 then pad (ready.operand .inBuf) else ready.operand .inBuf :=
  ⟨by decide, ready_tablesSound, rfl, by decide, by decide, rfl⟩

/-- V14: the ciphertext of `616263`. -/
def cipherAbc : State :=
  keyedWith [0x10, 0x55, 0x43, 0x5b, 0x9e, 0xce, 0x61, 0x23, 0x44, 0xf8, 0xe1, 0x00, 0x16, 0xc4, 0x94, 0x3b]

theorem witness_DecOutputsTheDecryptedMessage :
    cipherAbc.cfg.wellFormed = true ∧ cipherAbc.tablesSound ∧ keyReady false cipherAbc ∧
      cipherAbc.inLen.toNat ≤ cipherAbc.cfg.inCap ∧ cipherAbc.inLen.toNat % 16 = 0 ∧
      unpad (ecbBytes cipherAbc.rk .dec (cipherAbc.operand .inBuf)) = some [0x61, 0x62, 0x63] :=
  ⟨by decide, tablesSound_of_invalid rfl, rfl, by decide, by decide, by decide +kernel⟩

theorem witness_GcmencOutputsCiphertextAndTag :
    gcmAad.cfg.wellFormed = true ∧ gcmAad.tablesSound ∧ keyReady false gcmAad ∧ keyReady true gcmAad ∧
      gcmAad.ivLen.toNat ≤ gcmAad.cfg.ivCap ∧ gcmAad.aadLen.toNat ≤ gcmAad.cfg.aadCap ∧
      gcmAad.inLen.toNat ≤ gcmAad.cfg.inCap :=
  ⟨by decide, tablesSound_of_invalid rfl, rfl, rfl, by decide, by decide, by decide⟩

/-- V20, the ciphertext `b3` with its tag. -/
def gcmGood : State :=
  gcmWith [0xb3] #v[0x0ebb89bf, 0xc36d5a78, 0x64739a0a, 0x42cc0675]

theorem witness_GcmdecOutputsThePlaintext :
    gcmGood.cfg.wellFormed = true ∧ gcmGood.tablesSound ∧ keyReady false gcmGood ∧
      gcmGood.ivLen.toNat ≤ gcmGood.cfg.ivCap ∧ gcmGood.aadLen.toNat ≤ gcmGood.cfg.aadCap ∧
      gcmGood.inLen.toNat ≤ gcmGood.cfg.inCap ∧
      gcmGood.tagInBlock = gcmTagOf gcmGood.rk (gcmGood.operand .ivBuf) (gcmGood.operand .aadBuf) (gcmGood.operand .inBuf) :=
  ⟨by decide, tablesSound_of_invalid rfl, rfl, by decide, by decide, by decide, by decide +kernel⟩

/-- Every error code is expected somewhere (V15, V16, V26, V28). -/
theorem witness_CommandsReportTheFirstFailingCheck :
    keyed.cfg.wellFormed = true ∧ keyed.tablesSound ∧
      expectedErr .keyexpT { keyed with keyLen := 17 } = .invalidKeyLength ∧
      expectedErr (.encblkT false) { State.reset with inLen := 5000 } = .keyNotLoaded ∧
      expectedErr (.decD .pkcs7 false) { keyed with inLen := 4097 } = .lengthRange ∧
      expectedErr (.decT .pkcs7 false) { keyed with inLen := 17 } = .invalidCiphertextLength ∧
      expectedErr (.decB .pkcs7 false) keyed = .invalidPadding :=
  ⟨by decide, tablesSound_of_invalid rfl, by decide, by decide, by decide, by decide, by decide +kernel⟩

theorem witness_CommandsReportTheFirstFailingCheck_authentication :
    expectedErr (.gcmdecT false) (gcmWith [] (Vector.replicate 4 0)) = .authenticationFailed := by
  decide +kernel

theorem witness_WrongKeyLengthKeepsTheLoadedKey :
    (Instr.encblkD true).kx = true ∧ Instr.keyexpT.op = .keyexp ∧ ({ keyed with keyLen := 17 } : State).keyLen ≠ 16 := by
  decide

theorem witness_DataCommandsNeedALoadedKey :
    isData (.gcmdecB false) = true ∧ (Instr.gcmdecB false).kx = false ∧ State.reset.rkValid = false := by
  decide

theorem witness_FailedCommandsLeaveNoOutput :
    exec (.encblkB false) State.reset = .next (State.reset.abort .keyNotLoaded) ∧
      (State.reset.abort .keyNotLoaded).err ≠ .noError :=
  ⟨rfl, by decide⟩

theorem witness_GcmdecVerifiesBeforeRelease_mismatch :
    (Instr.gcmdecD false).op = .gcmdec ∧
      exec (.gcmdecD false) (gcmWith [] (Vector.replicate 4 0)) =
        .next (after (exec (.gcmdecD false) (gcmWith [] (Vector.replicate 4 0)))) ∧
      (after (exec (.gcmdecD false) (gcmWith [] (Vector.replicate 4 0)))).err = .authenticationFailed :=
  ⟨rfl, exec_after _ _, by decide +kernel⟩

theorem witness_GcmdecVerifiesBeforeRelease_match :
    (Instr.gcmdecD false).op = .gcmdec ∧
      exec (.gcmdecD false) gcmGood = .next (after (exec (.gcmdecD false) gcmGood)) ∧
      (after (exec (.gcmdecD false) gcmGood)).err = .noError ∧ Vector.replicate 4 0 ≠ gcmGood.tagIn :=
  ⟨rfl, exec_after _ _, by decide +kernel, by decide +kernel⟩

theorem witness_CommandsWriteNoInput :
    exec .tblgen State.reset = .next (State.reset.buildTables.settle .noError 0) := rfl

/-- The hypotheses of the five clauses, in order; the third also with an error in place of the operation. -/
theorem witness_PersistentStateHasOneWriterEach :
    exec (.encblkD false) State.reset = .next (State.reset.abort .keyNotLoaded) ∧
      (Instr.encblkD false).kx = false ∧ (Instr.encblkD false).op ≠ .keyexp ∧ (Instr.encblkD false).op ≠ .tblgen ∧
      (Instr.encblkD false).strategy ≠ .table ∧ ready.tblValid = true ∧ (Instr.encblkT true).op ≠ .tblgen ∧
      (Instr.encblkD false).op ≠ .gcmenc ∧ (State.reset.abort .keyNotLoaded).err ≠ .noError ∧ ready.rkValid = true :=
  ⟨rfl, by decide, by decide, by decide, by decide, rfl, by decide, by decide, by decide, rfl⟩

theorem witness_StrategiesGiveTheSameResults : ready.tablesSound ∧ ready.inLen = 16 :=
  ⟨ready_tablesSound, rfl⟩

/-- Two different states that agree on the inputs of a command: another output, another time. -/
theorem witness_ResultsDependOnlyOnTheInputs :
    ready.tablesSound ∧ ({ ready with outBuf := [(0, 0xff)], outLen := 1, fresh := 7 } : State).tablesSound ∧
      SameCommandInputs ready { ready with outBuf := [(0, 0xff)], outLen := 1, fresh := 7 } :=
  ⟨ready_tablesSound, fun _ => ⟨rfl, rfl⟩, rfl, rfl, rfl, rfl, rfl, rfl, rfl, rfl, rfl, fun _ _ => rfl, fun _ _ => rfl,
    fun _ _ => rfl, fun _ _ => rfl⟩

/-- V20: `00` encrypted, then its ciphertext `b3` and tag given back. -/
theorem witness_GcmDecryptionRecoversThePlaintext :
    let s := gcmWith [0x00] (Vector.replicate 4 0)
    let t := after (exec (gcmCommand .enc .direct false) s)
    s.cfg.wellFormed = true ∧ s.tablesSound ∧ exec (gcmCommand .enc .direct false) s = .next t ∧ t.err = .noError ∧
      gcmGood.cfg = s.cfg ∧ gcmGood.tablesSound ∧ gcmGood.rk = t.rk ∧ gcmGood.rkValid = true ∧
      gcmGood.ivLen = s.ivLen ∧ (∀ a < s.ivLen.toNat, gcmGood.byteAt .ivBuf a = s.byteAt .ivBuf a) ∧
      gcmGood.aadLen = s.aadLen ∧ (∀ a < s.aadLen.toNat, gcmGood.byteAt .aadBuf a = s.byteAt .aadBuf a) ∧
      gcmGood.inLen = t.outLen ∧ (∀ a < t.outLen.toNat, gcmGood.byteAt .inBuf a = t.byteAt .outBuf a) ∧
      gcmGood.tagIn = t.tagOut :=
  ⟨by decide, tablesSound_of_invalid rfl, exec_after _ _, by decide +kernel, rfl, tablesSound_of_invalid rfl, by decide +kernel, rfl,
    rfl, fun _ _ => rfl, rfl, fun _ _ => rfl, by decide +kernel, by decide +kernel, by decide +kernel⟩

/-- V14: `616263` encrypted, then its ciphertext given back. -/
theorem witness_MessageDecryptionRecoversTheMessage :
    let s := keyedWith [0x61, 0x62, 0x63]
    let t := after (exec (messageCommand .enc .direct .pkcs7 false) s)
    s.cfg.wellFormed = true ∧ s.tablesSound ∧ exec (messageCommand .enc .direct .pkcs7 false) s = .next t ∧
      t.err = .noError ∧ t.outLen.toNat ≤ s.cfg.inCap ∧ cipherAbc.cfg = s.cfg ∧ cipherAbc.tablesSound ∧
      cipherAbc.rk = t.rk ∧ cipherAbc.rkValid = true ∧ cipherAbc.inLen = t.outLen ∧
      ∀ a < t.outLen.toNat, cipherAbc.byteAt .inBuf a = t.byteAt .outBuf a :=
  ⟨by decide, tablesSound_of_invalid rfl, exec_after _ _, by decide +kernel, by decide +kernel, rfl, tablesSound_of_invalid rfl,
    by decide +kernel, rfl, by decide +kernel, by decide +kernel⟩

theorem fits_of_length {b : Buffer} {v : List Byte} {n : Nat} (hv : v.length = n) (hc : n ≤ capacity ready.cfg b)
    (h32 : n < 2 ^ 32) : Fits ready.cfg b v :=
  ⟨hv ▸ hc, hv ▸ h32⟩

theorem ready_callReady : CallReady ready :=
  ⟨by decide, ready_tablesSound, rfl, rfl⟩

/-- An idle block, a key as long as `KEYBUF` (it fails) and one of 16 bytes, a full `INBUF` and no block at all. -/
theorem witness_BlockCallsReturnWhatTheSourceDefines :
    CallReady ready ∧ Fits ready.cfg .keyBuf (zeros 32) ∧ Fits ready.cfg .keyBuf keyStar ∧
      Fits ready.cfg .inBuf (bytesOf (List.replicate 256 0)) ∧ Fits ready.cfg .inBuf (bytesOf []) :=
  ⟨ready_callReady, fits_of_length (zeros_length 32) (by decide) (by decide),
    fits_of_length (n := 16) rfl (by decide) (by decide),
    fits_of_length (n := 4096) (by rw [bytesOf_length, List.length_replicate]) (by decide) (by decide),
    fits_of_length (n := 0) rfl (by decide) (by decide)⟩

/-- Every buffer full, and every buffer empty. -/
theorem witness_MessageCallsReturnWhatTheSourceDefines :
    CallReady ready ∧ Fits ready.cfg .keyBuf keyStar ∧ Fits ready.cfg .ivBuf (zeros 128) ∧
      Fits ready.cfg .aadBuf (zeros 4096) ∧ Fits ready.cfg .inBuf (zeros 4096) ∧ Fits ready.cfg .ivBuf [] ∧
      Fits ready.cfg .aadBuf [] ∧ Fits ready.cfg .inBuf [] :=
  ⟨ready_callReady, fits_of_length (n := 16) rfl (by decide) (by decide),
    fits_of_length (zeros_length 128) (by decide) (by decide), fits_of_length (zeros_length 4096) (by decide) (by decide),
    fits_of_length (zeros_length 4096) (by decide) (by decide), fits_of_length (n := 0) rfl (by decide) (by decide),
    fits_of_length (n := 0) rfl (by decide) (by decide), fits_of_length (n := 0) rfl (by decide) (by decide)⟩

end Sys2Proof.Tests
end

/-!
# Proofs about the state (`10_state.md`)

What a command can do is said once (`exec_ends`): steps 2 and 3 of R209 prepare a state (`Prepared`), and the command
ends from it in an abort or in the commit of its body's result. The invariant, the frame of the inputs and the writers
of the persistent state are each read off these three. The host port is settled register by register and buffer by
buffer from the laws of one access.
-/

namespace Sys2Proof.Machine

/-! ## The table form of the key-schedule transform (R130, R131)

A table entry is the transform of one byte at the top of a word. A transform that is linear over XOR and commutes
with rotation therefore is the XOR of four rotated entries. -/

theorem rotl32_eq_rotateLeft (x : Word) {n : Nat} (h : n < 32) : rotl32 x n = x.rotateLeft n := by
  simp [rotl32, BitVec.rotateLeft, BitVec.rotateLeftAux, Nat.mod_eq_of_lt h]

theorem rotl32_getLsbD (x : Word) {n i : Nat} (hn : n < 32) (hi : i < 32) :
    (rotl32 x n).getLsbD i = x.getLsbD ((i + (32 - n)) % 32) := by
  rw [rotl32_eq_rotateLeft x hn, BitVec.getLsbD_rotateLeft, Nat.mod_eq_of_lt hn]
  by_cases h : i < n
  · have e : (i + (32 - n)) % 32 = 32 - n + i := by omega
    simp [h, e]
  · have e : (i + (32 - n)) % 32 = i - n := by omega
    simp [h, e, hi]

theorem rotl32_xor (a b : Word) {n : Nat} (hn : n < 32) : rotl32 (a ^^^ b) n = rotl32 a n ^^^ rotl32 b n := by
  apply BitVec.eq_of_getLsbD_eq
  intro i hi
  simp only [BitVec.getLsbD_xor, rotl32_getLsbD _ hn hi]

theorem rotl32_comm (a : Word) {m n : Nat} (hm : m < 32) (hn : n < 32) :
    rotl32 (rotl32 a m) n = rotl32 (rotl32 a n) m := by
  apply BitVec.eq_of_getLsbD_eq
  intro i hi
  have e : ((i + (32 - n)) % 32 + (32 - m)) % 32 = ((i + (32 - m)) % 32 + (32 - n)) % 32 := by omega
  simp only [rotl32_getLsbD _ hn hi, rotl32_getLsbD _ hm hi, rotl32_getLsbD _ hm (Nat.mod_lt _ (by decide)),
    rotl32_getLsbD _ hn (Nat.mod_lt _ (by decide)), e]

theorem linLk_xor (a b : Word) : linLk (a ^^^ b) = linLk a ^^^ linLk b := by
  simp only [linLk, rotl32_xor _ _ (show 13 < 32 by decide), rotl32_xor _ _ (show 23 < 32 by decide)]
  ac_rfl

theorem linLk_rotl32 (a : Word) {n : Nat} (hn : n < 32) : linLk (rotl32 a n) = rotl32 (linLk a) n := by
  simp only [linLk, rotl32_xor _ _ hn, rotl32_comm a hn (show 13 < 32 by decide),
    rotl32_comm a hn (show 23 < 32 by decide)]

/-- A word is the XOR of its bytes, each put at the top and rotated to its place (R41). -/
theorem be32_eq_xor_rotr32 (b0 b1 b2 b3 : Byte) :
    be32 b0 b1 b2 b3 = b0.setWidth 32 <<< 24 ^^^ rotr32 (b1.setWidth 32 <<< 24) 8 ^^^
      rotr32 (b2.setWidth 32 <<< 24) 16 ^^^ rotr32 (b3.setWidth 32 <<< 24) 24 := by
  apply BitVec.eq_of_getLsbD_eq
  intro i hi
  simp only [be32, rotr32, BitVec.getLsbD_append, BitVec.getLsbD_xor,
    rotl32_getLsbD _ (show (32 - 8) % 32 < 32 by decide) hi, rotl32_getLsbD _ (show (32 - 16) % 32 < 32 by decide) hi,
    rotl32_getLsbD _ (show (32 - 24) % 32 < 32 by decide) hi, BitVec.getLsbD_shiftLeft, BitVec.getLsbD_setWidth]
  interval_cases i <;> simp

/-- A table of a transform's values on top bytes gives the transform after the S-box layer (R129, R130). -/
theorem tabLookup_ofFn {lin : Word → Word} (hx : ∀ a b, lin (a ^^^ b) = lin a ^^^ lin b)
    (hr : ∀ a n, n < 32 → lin (rotl32 a n) = rotl32 (lin a) n) (a : Word) :
    tabLookup (Vector.ofFn fun b => lin ((sbox (BitVec.ofFin b)).setWidth 32 <<< 24)) a = lin (tau a) := by
  have hrr : ∀ a n, lin (rotr32 a n) = rotr32 (lin a) n := fun a n => hr a _ (Nat.mod_lt _ (by decide))
  rw [tau, be32_eq_xor_rotr32]
  simp only [tabLookup, Vector.get_ofFn, BitVec.ofFin_toFin, hx, hrr]

/-- `Tk_tab = Tk` on the table of R126 (R131). -/
theorem tabLookup_tableK (a : Word) : tabLookup tableK a = transTk a :=
  tabLookup_ofFn linLk_xor (fun a _ hn => linLk_rotl32 a hn) a

/-! ## What the bodies output (R54, R72) -/

/-- The body of a command, by its operation, strategy and padding. -/
def opBody (st : Strategy) (p : Padding) : Op → State → Except Err Result
  | .keyexp => fun _ => .ok ⟨[], none⟩
  | .tblgen => fun _ => .ok ⟨[], none⟩
  | .encblk => blockBody st .enc
  | .decblk => blockBody st .dec
  | .enc => encBody st p
  | .dec => decBody st p
  | .gcmenc => gcmencBody st
  | .gcmdec => gcmdecBody st

theorem bodyOf_eq_opBody (i : Instr) : bodyOf i = opBody i.strategy i.pad i.op := by
  cases i <;> rfl

theorem bodyOf_keyexp {i : Instr} (h : i.op = .keyexp) (s : State) : bodyOf i s = .ok ⟨[], none⟩ := by
  rw [bodyOf_eq_opBody, h, opBody]

theorem bodyOf_tblgen {i : Instr} (h : i.op = .tblgen) (s : State) : bodyOf i s = .ok ⟨[], none⟩ := by
  rw [bodyOf_eq_opBody, h, opBody]

theorem blockBody_ok {st : Strategy} {dir : Direction} {s : State} {r : Result} (h : blockBody st dir s = .ok r) :
    r.out.length ≤ s.cfg.outCap ∧ r.tag = none := by
  unfold blockBody at h
  split at h
  next hok =>
    cases h
    simp only [blockLengthOk, Bool.and_eq_true, outFits_iff] at hok
    obtain ⟨⟨-, hout⟩, -⟩ := hok
    refine ⟨?_, rfl⟩
    simp only [bytesOf_length, cryptBlocks_length, blocksOf_length]
    omega
  next => cases h

theorem encBody_ok {st : Strategy} {p : Padding} {s : State} {r : Result} (h : encBody st p s = .ok r) :
    r.out.length ≤ s.cfg.outCap ∧ r.tag = none := by
  unfold encBody at h
  split at h
  next =>
    split at h
    next => cases h
    next m _ =>
      split at h
      next hout =>
        cases h
        rw [outFits_iff] at hout
        refine ⟨?_, rfl⟩
        simp only [bytesOf_length, cryptBlocks_length, blocksOf_length]
        omega
      next => cases h
  next => cases h

theorem unpad_length_le {p m : List Byte} (h : unpad p = some m) : m.length ≤ p.length := by
  unfold unpad at h
  split at h
  next => cases h
  next =>
    dsimp only at h
    split at h
    next => cases h
    next =>
      split at h
      next =>
        cases h
        exact List.length_take_le' _ _
      next => cases h

theorem decMessage_length_le {p : Padding} {m v : List Byte} (h : decMessage p m = .ok v) : v.length ≤ m.length := by
  cases p with
  | none =>
    cases h
    exact le_rfl
  | pkcs7 =>
    unfold decMessage at h
    cases hu : unpad m with
    | none => simp [hu] at h
    | some w =>
      simp only [hu] at h
      cases h
      exact unpad_length_le hu

theorem decBody_ok {st : Strategy} {p : Padding} {s : State} {r : Result} (h : decBody st p s = .ok r) :
    r.out.length ≤ s.cfg.outCap ∧ r.tag = none := by
  unfold decBody at h
  split at h
  next hok =>
    simp only [Bool.and_eq_true, outFits_iff] at hok
    obtain ⟨-, hout⟩ := hok
    split at h
    next =>
      split at h
      next => cases h
      next m hm =>
        cases h
        have hlen := decMessage_length_le hm
        simp only [bytesOf_length, cryptBlocks_length, blocksOf_length] at hlen
        exact ⟨show m.length ≤ _ by omega, rfl⟩
    next => cases h
  next => cases h

theorem gctr_fits {s : State} (st : Strategy) (h : gcmLengthsOk s = true) :
    (s.gctr st (s.operand .inBuf)).length ≤ s.cfg.outCap := by
  simp only [gcmLengthsOk, Bool.and_eq_true, outFits_iff] at h
  rw [gctr_length, State.operand_length]
  exact h.2

theorem gcmencBody_ok {st : Strategy} {s : State} {r : Result} (h : gcmencBody st s = .ok r) :
    r.out.length ≤ s.cfg.outCap := by
  unfold gcmencBody at h
  split at h
  next hok =>
    cases h
    exact gctr_fits st hok
  next => cases h

theorem gcmdecBody_ok {st : Strategy} {s : State} {r : Result} (h : gcmdecBody st s = .ok r) :
    r.out.length ≤ s.cfg.outCap ∧ r.tag = none := by
  unfold gcmdecBody at h
  split at h
  next hok =>
    split at h
    next =>
      cases h
      exact ⟨gctr_fits st hok, rfl⟩
    next => cases h
  next => cases h

/-- The output of a successful command fits `OUTBUF`, and only `GCMENC` has a tag (R19, R54). -/
theorem bodyOf_ok {i : Instr} {s : State} {r : Result} (h : bodyOf i s = .ok r) :
    r.out.length ≤ s.cfg.outCap ∧ (i.op ≠ .gcmenc → r.tag = none) := by
  rw [bodyOf_eq_opBody] at h
  cases hop : i.op <;> rw [hop] at h
  case keyexp | tblgen =>
    cases h
    exact ⟨Nat.zero_le _, fun _ => rfl⟩
  case encblk | decblk => exact (blockBody_ok h).imp_right fun ht _ => ht
  case enc => exact (encBody_ok h).imp_right fun ht _ => ht
  case dec => exact (decBody_ok h).imp_right fun ht _ => ht
  case gcmenc => exact ⟨gcmencBody_ok h, fun hne => absurd rfl hne⟩
  case gcmdec => exact (gcmdecBody_ok h).imp_right fun ht _ => ht

/-! ## What a command can do, said once (R209)

Every command first prepares tables and subkeys, and then either aborts or commits a result. -/

/-- What steps 2 and 3 of R209 can have made of the state: an explicit table build, the lazy table build alone, or
the key schedule after it. -/
inductive Prepared (i : Instr) (s : State) : State → Prop
  | build (h : i.op = .tblgen) : Prepared i s s.buildTables
  | lazy : Prepared i s (lazyTables i.strategy s)
  | key (h : i.kx = true ∨ i.op = .keyexp) :
    Prepared i s ((lazyTables i.strategy s).loadRk (keySchedule ((lazyTables i.strategy s).keyT i.strategy) s.keyBlock))

theorem keyPrefix_prepared {i : Instr} {s u : State}
    (h : keyPrefix i.strategy i.kx (lazyTables i.strategy s) = .ok u) : Prepared i s u := by
  rcases keyPrefix_ok h with ⟨hk, -, rfl⟩ | ⟨-, -, rfl⟩
  · rw [lazyTables_keyBlock]
    exact .key (.inl hk)
  · exact .lazy

/-- A command that answers a next state ends, from a prepared state, in an abort or in the commit of its body's
result; `KEYEXP` and `TBLGEN` commit the empty one. -/
theorem exec_ends {i : Instr} {s t : State} (h : exec i s = .next t) :
    ∃ u, Prepared i s u ∧ ((∃ e, t = u.abort e) ∨ ∃ r, bodyOf i u = .ok r ∧ t = commit r u) := by
  rcases exec_cases i s with ⟨hop, -, he⟩ | ⟨hop, -, he⟩ | ⟨-, -, he⟩ <;> cases he.symm.trans h
  · rcases keyexp_cases i.strategy s with ⟨-, hk⟩ | ⟨-, hk⟩
    · exact ⟨_, .key (.inr hop), .inr ⟨_, bodyOf_keyexp hop _, hk⟩⟩
    · exact ⟨_, .lazy, .inl ⟨_, hk⟩⟩
  · exact ⟨_, .build hop, .inr ⟨_, bodyOf_tblgen hop _, rfl⟩⟩
  · rcases runData_cases i.strategy i.kx (bodyOf i) s with ⟨e, -, hr⟩ | ⟨u, e, hk, -, hr⟩ | ⟨u, r, hk, hb, hr⟩
    · exact ⟨_, .lazy, .inl ⟨e, hr⟩⟩
    · exact ⟨u, keyPrefix_prepared hk, .inl ⟨e, hr⟩⟩
    · exact ⟨u, keyPrefix_prepared hk, .inr ⟨r, hb, hr⟩⟩

/-! ## The invariant and the operations of the state (R13, R16, R21, R24, R25) -/

theorem State.Inv.respond {s : State} (h : s.Inv) (d : PortData) : (s.respond d).Inv := h

theorem State.Inv.respondFreeWord {s : State} (h : s.Inv) : s.respondFreeWord.Inv := h

theorem State.Inv.respondFreeByte {s : State} (h : s.Inv) : s.respondFreeByte.Inv := h

/-- A command starts: the engine's flags and the error are cleared, nothing else the invariant speaks of changes. -/
theorem State.Inv.accept {s : State} (h : s.Inv) (w : Word) : (s.accept w).Inv := by
  obtain ⟨hcanon, hbounds, htables, hkey, -, -, hout, hwork⟩ := h
  exact ⟨hcanon, hbounds, htables, hkey, by simp [State.busyDoneExclusive], by simp [State.errorSound], hout, hwork⟩

/-- A command ends (R21, R210): the output length must be in range, and 0 after an error. -/
theorem State.Inv.settle {s : State} (h : s.Inv) {e : Err} {n : Word} (hn : n.toNat ≤ s.cfg.outCap)
    (he : e ≠ .noError → n = 0) : (s.settle e n).Inv := by
  obtain ⟨hcanon, hbounds, htables, hkey, -, -, -, -⟩ := h
  exact ⟨hcanon, hbounds, htables, hkey, by simp [State.busyDoneExclusive], fun hne => ⟨rfl, he hne⟩, hn, rfl⟩

theorem State.Inv.abort {s : State} (h : s.Inv) (e : Err) : (s.abort e).Inv :=
  h.settle (Nat.zero_le _) fun _ => rfl

theorem State.Inv.buildTables {s : State} (h : s.Inv) : s.buildTables.Inv := by
  obtain ⟨hcanon, hbounds, -, hkey, hflags, herr, hout, hwork⟩ := h
  exact ⟨hcanon, hbounds, fun _ => ⟨rfl, rfl⟩, hkey, hflags, herr, hout, hwork⟩

theorem State.Inv.loadRk {s : State} (h : s.Inv) (key : Block) : (s.loadRk (keySchedule transTk key)).Inv := by
  obtain ⟨hcanon, hbounds, htables, -, hflags, herr, hout, hwork⟩ := h
  exact ⟨hcanon, hbounds, htables, fun _ => ⟨key, rfl⟩, hflags, herr, hout, hwork⟩

theorem State.Inv.setTagOut {s : State} (h : s.Inv) (t : Vector Word 4) : (s.setTagOut t).Inv := h

/-- A buffer may be replaced by a canonical memory within its capacity. -/
theorem State.Inv.setBuffer {s : State} (h : s.Inv) {b : Buffer} {m : Memory} (hm : Memory.wf m)
    (hc : ∀ c ∈ m, c.1 < capacity s.cfg b) : (s.setBuffer b m).Inv := by
  obtain ⟨hcanon, hbounds, htables, hkey, hflags, herr, hout, hwork⟩ := h
  refine ⟨fun c => ?_, fun c => ?_, ?_⟩
  · rw [State.setBuffer_buffer]
    split
    · exact hm
    · exact hcanon c
  · rw [State.setBuffer_buffer, State.setBuffer_cfg]
    split
    next hcb => exact hcb ▸ hc
    next => exact hbounds c
  · cases b <;> exact ⟨htables, hkey, hflags, herr, hout, hwork⟩

/-- One byte within the capacity may be written (R24). -/
theorem State.Inv.writeByte {s : State} (h : s.Inv) {b : Buffer} {i : Nat} (hi : i < capacity s.cfg b) (v : Byte) :
    (s.setBuffer b (Memory.write (s.buffer b) i v)).Inv := by
  have ⟨hcanon, hbounds, _⟩ := h
  refine h.setBuffer (Memory.write_wf (hcanon b) i v) fun c hc => ?_
  rcases Memory.mem_write hc with rfl | hc
  · exact hi
  · exact hbounds b c hc

/-- An output that fits `OUTBUF` may be written there (R54). -/
theorem State.Inv.writeOut {s : State} (h : s.Inv) {v : List Byte} (hv : v.length ≤ s.cfg.outCap) :
    (s.writeOut v).Inv := by
  have ⟨hcanon, hbounds, _⟩ := h
  refine h.setBuffer (b := .outBuf) (Memory.writeBytes_wf (hcanon .outBuf) 0 v) fun c hc => ?_
  rcases Memory.mem_writeBytes hc with ⟨-, hlt⟩ | hc
  · exact lt_of_lt_of_le hlt (by rwa [Nat.zero_add])
  · exact hbounds .outBuf c hc

theorem State.Inv.commit {s : State} (h : s.Inv) {r : Result} (hr : r.out.length ≤ s.cfg.outCap) :
    (commit r s).Inv := by
  have hn : (BitVec.ofNat 32 r.out.length).toNat ≤ s.cfg.outCap := by
    rw [BitVec.toNat_ofNat]
    exact (Nat.mod_le _ _).trans hr
  obtain ⟨out, _ | t⟩ := r
  · exact (h.writeOut hr).settle hn fun hne => absurd rfl hne
  · exact ((h.writeOut hr).setTagOut (tagWords t)).settle hn fun hne => absurd rfl hne

/-- Reset leaves empty buffers, valid bits 0 and an idle engine, under any configuration (R231). -/
theorem State.Inv.resetInput (s : State) : s.resetInput.Inv := by
  refine ⟨?_, ?_, ?_, ?_, ?_, ?_, ?_, rfl⟩
  · exact reset_memoryCanonical
  · intro b
    cases b <;> exact fun c hc => absurd hc List.not_mem_nil
  · exact fun hv => by cases hv
  · exact fun hv => by cases hv
  · exact fun hf => by cases hf.1
  · exact fun hne => absurd rfl hne
  · exact Nat.zero_le _

/-- Settles O20: the reset input changes only the reset epoch of the reset state, which the invariant does not read. -/
theorem resetMeetsTheInvariant : Obligations.ResetMeetsTheInvariant :=
  State.Inv.resetInput State.reset

/-! ## The invariant and a command -/

theorem State.Inv.lazyTables {s : State} (h : s.Inv) (st : Strategy) : (lazyTables st s).Inv := by
  rcases lazyTables_cases st s with he | ⟨-, -, he⟩ <;> rw [he]
  · exact h
  · exact h.buildTables

/-- After the lazy build every strategy's key transform is `Tk`: under TABLE the table is sound by then (R106, R128). -/
theorem lazyTables_keyT {s : State} (h : s.tablesSound) (st : Strategy) : (lazyTables st s).keyT st = transTk := by
  funext a
  cases st with
  | direct => rfl
  | batch => rfl
  | table =>
    have hk : (lazyTables .table s).tblK = tableK := by
      cases hv : s.tblValid with
      | true => simpa [lazyTables, hv] using (h hv).2
      | false => simp [lazyTables, hv]
    rw [State.keyT, hk, tabLookup_tableK]

theorem Prepared.inv {i : Instr} {s u : State} (hp : Prepared i s u) (h : s.Inv) : u.Inv := by
  have ⟨_, _, htables, _⟩ := h
  cases hp with
  | build => exact h.buildTables
  | lazy => exact h.lazyTables _
  | key =>
    rw [lazyTables_keyT htables]
    exact (h.lazyTables _).loadRk _

theorem exec_inv {i : Instr} {s t : State} (h : s.Inv) (he : exec i s = .next t) : t.Inv := by
  obtain ⟨u, hp, ⟨e, rfl⟩ | ⟨r, hb, rfl⟩⟩ := exec_ends he
  · exact (hp.inv h).abort e
  · exact (hp.inv h).commit (bodyOf_ok hb).1

/-! ## The invariant and the host port -/

theorem hostAccess_inv {a : Access} {s t : State} (h : s.Inv) (ha : hostAccess a s = .next t) : t.Inv := by
  rcases hostAccess_next ha with ⟨_, r, -, -, rfl⟩ | ⟨_, r, v, -, -, rfl⟩ | ⟨b, i, -, -, rfl⟩ | ⟨b, i, v, -, hi, rfl⟩
  · rcases hostReadReg_cases r s with he | he <;> rw [he]
    · exact h.respondFreeWord
    · exact h.respond _
  · rcases hostWriteReg_cases r v s with he | ⟨-, -, he⟩ | ⟨-, he | he | he | he | ⟨x, he⟩⟩ <;> rw [he]
    case inr.inl => exact h.accept v
    all_goals exact h
  · rcases hostReadBuf_cases b i s with he | he <;> rw [he]
    · exact h.respondFreeByte
    · exact h.respond _
  · rcases hostWriteBuf_cases b i v s with he | ⟨-, -, he⟩ <;> rw [he]
    · exact h
    · exact h.writeByte hi v

/-- Settles O21, by the cases of a step: a command, an illegal word, an access, the end of a wait, a reset. -/
theorem everyStepKeepsTheInvariant : Obligations.EveryStepKeepsTheInvariant := by
  intro s t h hs
  rcases step_cases hs with ⟨i, -, -, he⟩ | ⟨_, -, -, rfl⟩ | rfl | ⟨a, rest, -, -, ha⟩ | ⟨rest, -, -, -, rfl⟩ |
    ⟨rest, -, -, rfl⟩
  · exact exec_inv h he
  · exact h.abort _
  · exact h
  · exact hostAccess_inv (s := { s with inputs := rest, delay := s.delay - 1 }) h ha
  · exact h
  · exact State.Inv.resetInput _

/-! ## What no command changes (R22, R24, R72) -/

theorem SameInputs.trans {s t u : State} (h : SameInputs s t) (h' : SameInputs t u) : SameInputs s u := by
  obtain ⟨hkey, hiv, haad, hin, htag, hbuf, ⟨hcfg, hepoch⟩, hinputs, hresp, hfresh⟩ := h
  obtain ⟨hkey', hiv', haad', hin', htag', hbuf', ⟨hcfg', hepoch'⟩, hinputs', hresp', hfresh'⟩ := h'
  exact ⟨hkey'.trans hkey, hiv'.trans hiv, haad'.trans haad, hin'.trans hin, htag'.trans htag,
    fun b a hb => (hbuf' b a hb).trans (hbuf b a hb), ⟨hcfg'.trans hcfg, hepoch'.trans hepoch⟩,
    hinputs'.trans hinputs, hresp'.trans hresp, hfresh'.trans hfresh⟩

theorem Prepared.sameInputs {i : Instr} {s u : State} (hp : Prepared i s u) : SameInputs s u := by
  cases hp <;> simp [SameInputs, SameSetting]

theorem sameInputs_abort (s : State) (e : Err) : SameInputs s (s.abort e) := by
  simp [SameInputs, SameSetting]

theorem sameInputs_commit (r : Result) (s : State) : SameInputs s (commit r s) := by
  have hbuf : ∀ b a, b ≠ .outBuf → (commit r s).byteAt b a = s.byteAt b a := fun _ a hb => commit_byteAt_input r s hb a
  simpa [SameInputs, SameSetting] using hbuf

/-- Settles O52: the preparation, the abort and the commit each leave the inputs alone. -/
theorem commandsWriteNoInput : Obligations.CommandsWriteNoInput := by
  intro i s t he
  obtain ⟨u, hp, ⟨e, rfl⟩ | ⟨r, -, rfl⟩⟩ := exec_ends he
  · exact hp.sameInputs.trans (sameInputs_abort u e)
  · exact hp.sameInputs.trans (sameInputs_commit r u)

/-! ## The writers of the persistent state (R12, R13, R16, R19) -/

/-- `RK`, the tables and `TAG_OUT` with their flags: what a command's abort leaves alone. -/
theorem abort_persistent (s : State) (e : Err) :
    (s.abort e).rk = s.rk ∧ (s.abort e).rkValid = s.rkValid ∧ SameTables s (s.abort e) ∧ SameTagOut s (s.abort e) :=
  ⟨rfl, rfl, ⟨rfl, rfl, rfl⟩, rfl, rfl⟩

/-- A commit writes `TAG_OUT` only when the result has a tag, and neither `RK` nor the tables. -/
theorem commit_persistent (r : Result) (s : State) :
    (commit r s).rk = s.rk ∧ (commit r s).rkValid = s.rkValid ∧ SameTables s (commit r s) ∧
      (r.tag = none → SameTagOut s (commit r s)) := by
  obtain ⟨out, _ | t⟩ := r
  · exact ⟨rfl, rfl, ⟨rfl, rfl, rfl⟩, fun _ => ⟨rfl, rfl⟩⟩
  · exact ⟨rfl, rfl, ⟨rfl, rfl, rfl⟩, fun h => by cases h⟩

theorem Prepared.rk {i : Instr} {s u : State} (hp : Prepared i s u) (hkx : i.kx = false) (hop : i.op ≠ .keyexp) :
    u.rk = s.rk ∧ u.rkValid = s.rkValid := by
  cases hp with
  | build => exact ⟨rfl, rfl⟩
  | lazy => simp
  | key h => simp [hkx, hop] at h

theorem lazyTables_sameTables {st : Strategy} {s : State} (h : st ≠ .table ∨ s.tblValid = true) :
    SameTables s (lazyTables st s) := by
  rcases lazyTables_cases st s with he | ⟨hst, hv, -⟩
  · rw [he]
    exact ⟨rfl, rfl, rfl⟩
  · simp [hst, hv] at h

theorem Prepared.sameTables {i : Instr} {s u : State} (hp : Prepared i s u) (hop : i.op ≠ .tblgen)
    (h : i.strategy ≠ .table ∨ s.tblValid = true) : SameTables s u := by
  cases hp with
  | build hb => exact absurd hb hop
  | lazy => exact lazyTables_sameTables h
  | key => exact lazyTables_sameTables h

theorem Prepared.sameTagOut {i : Instr} {s u : State} (hp : Prepared i s u) : SameTagOut s u := by
  cases hp <;> simp [SameTagOut]

theorem Prepared.rkValid {i : Instr} {s u : State} (hp : Prepared i s u) (h : s.rkValid = true) : u.rkValid = true := by
  cases hp <;> simp [h]

theorem Prepared.tblValid {i : Instr} {s u : State} (hp : Prepared i s u) (h : s.tblValid = true) :
    u.tblValid = true := by
  have hl : (lazyTables i.strategy s).tblValid = true := (lazyTables_sameTables (.inr h)).2.2.trans h
  cases hp with
  | build => rfl
  | lazy => exact hl
  | key => exact hl

/-- After a command, `RK` and the tables are as prepared, and so is `TAG_OUT` unless a `GCMENC` succeeded. -/
theorem exec_persistent {i : Instr} {s t : State} (h : exec i s = .next t) :
    ∃ u, Prepared i s u ∧ t.rk = u.rk ∧ t.rkValid = u.rkValid ∧ SameTables u t ∧
      (i.op ≠ .gcmenc ∨ t.err ≠ .noError → SameTagOut u t) := by
  obtain ⟨u, hp, ⟨e, rfl⟩ | ⟨r, hb, rfl⟩⟩ := exec_ends h
  · obtain ⟨hrk, hv, htab, htag⟩ := abort_persistent u e
    exact ⟨u, hp, hrk, hv, htab, fun _ => htag⟩
  · obtain ⟨hrk, hv, htab, htag⟩ := commit_persistent r u
    refine ⟨u, hp, hrk, hv, htab, fun hor => htag ((bodyOf_ok hb).2 ?_)⟩
    exact hor.resolve_right fun hne => hne (commit_err r u)

/-- Settles O53: each part is as prepared, and the preparation writes it only under the part's own condition. -/
theorem persistentStateHasOneWriterEach : Obligations.PersistentStateHasOneWriterEach := by
  intro i s t he
  obtain ⟨u, hp, hrk, hv, ⟨hd, hk, htv⟩, htag⟩ := exec_persistent he
  refine ⟨fun hkx hop => ?_, fun hop hst => ?_, fun hor => ?_, fun h => hv.trans (hp.rkValid h),
    fun h => htv.trans (hp.tblValid h)⟩
  · obtain ⟨hrk', hv'⟩ := hp.rk hkx hop
    exact ⟨hrk.trans hrk', hv.trans hv'⟩
  · obtain ⟨hd', hk', htv'⟩ := hp.sameTables hop hst
    exact ⟨hd.trans hd', hk.trans hk', htv.trans htv'⟩
  · obtain ⟨hout, hw⟩ := htag hor
    obtain ⟨hout', hw'⟩ := hp.sameTagOut
    exact ⟨hout.trans hout', hw.trans hw'⟩

/-! ## Accesses that leave the block alone (R26, R46) -/

theorem SameBlockState.refl (s : State) : SameBlockState s s := by
  simp [SameBlockState, SameRegisters, SameTables, SameBuffers, SameSetting, SameEngine]

theorem sameBlockState_respond (s : State) (d : PortData) : SameBlockState s (s.respond d) :=
  SameBlockState.refl s

theorem sameBlockState_respondFreeWord (s : State) : SameBlockState s s.respondFreeWord :=
  SameBlockState.refl s

theorem sameBlockState_respondFreeByte (s : State) : SameBlockState s s.respondFreeByte :=
  SameBlockState.refl s

/-- A register read, idle or busy, returns some word and changes nothing in the block. -/
theorem hostReadReg_powerless (r : Reg) (s : State) :
    SameBlockState s (hostReadReg r s) ∧ ∃ w, (hostReadReg r s).responses = .word w :: s.responses := by
  rcases hostReadReg_cases r s with h | h <;> rw [h]
  · exact ⟨sameBlockState_respondFreeWord s, _, rfl⟩
  · exact ⟨sameBlockState_respond s _, _, rfl⟩

/-- A buffer read, idle or busy, returns some byte and changes nothing in the block. -/
theorem hostReadBuf_powerless (b : Buffer) (i : Nat) (s : State) :
    SameBlockState s (hostReadBuf b i s) ∧ ∃ v, (hostReadBuf b i s).responses = .byte v :: s.responses := by
  rcases hostReadBuf_cases b i s with h | h <;> rw [h]
  · exact ⟨sameBlockState_respondFreeByte s, _, rfl⟩
  · exact ⟨sameBlockState_respond s _, _, rfl⟩

/-- `STATUS` returns its true value even while busy. -/
theorem hostReadReg_status (s : State) : hostReadReg .status s = s.respond (.word s.status) := by
  simp [hostReadReg, State.regValue]

theorem hostWriteReg_busy {s : State} (hb : s.busy = true) (r : Reg) (v : Word) : hostWriteReg r v s = s := by
  simp [hostWriteReg, hb]

theorem hostWriteBuf_busy {s : State} (hb : s.busy = true) (b : Buffer) (i : Nat) (v : Byte) :
    hostWriteBuf b i v s = s := by
  simp [hostWriteBuf, hb]

/-- Settles O12, by the four kinds of defined access. -/
theorem busyWindowAccessesArePowerless : Obligations.BusyWindowAccessesArePowerless := by
  intro s a hb ha
  rcases accessDefined_cases ha with ⟨o, r, rfl, hr⟩ | ⟨o, r, v, rfl, hr⟩ | ⟨b, i, rfl, hi⟩ | ⟨b, i, v, rfl, hi⟩
  · obtain ⟨hsame, hword⟩ := hostReadReg_powerless r s
    refine ⟨_, hostAccess_readReg hr, hsame, nofun, fun ho => ?_, fun _ _ => hword, nofun⟩
    cases ho
    cases (show some Reg.status = some r from hr)
    rw [hostReadReg_status, State.respond_responses]
  · exact ⟨s, by rw [hostAccess_writeReg v hr, hostWriteReg_busy hb], .refl s, fun _ => rfl, nofun, nofun, nofun⟩
  · obtain ⟨hsame, hbyte⟩ := hostReadBuf_powerless b i s
    exact ⟨_, hostAccess_readBuf hi, hsame, nofun, nofun, nofun, fun _ _ _ => hbyte⟩
  · exact ⟨s, by rw [hostAccess_writeBuf v hi, hostWriteBuf_busy hb], .refl s, fun _ => rfl, nofun, nofun, nofun⟩

/-! ## Idle accesses (R19 to R24) -/

theorem hostAccess_readReg_idle {s : State} (hb : s.busy = false) {offset : Nat} {r : Reg} (h : regAt offset = some r) :
    hostAccess (.readReg 4 offset) s = .next (s.respond (.word (s.regValue r))) := by
  rw [hostAccess_readReg h]
  simp [hostReadReg, hb]

theorem hostAccess_writeReg_idle {s : State} (hb : s.busy = false) {offset : Nat} {r : Reg} (v : Word)
    (h : regAt offset = some r) : hostAccess (.writeReg 4 offset v) s = .next (s.regWrite r v) := by
  rw [hostAccess_writeReg v h]
  simp [hostWriteReg, hb]

/-- Settles O15: the register map gives the register of each offset, and its value is read. -/
theorem idleRegisterReadsReturnTheRegister : Obligations.IdleRegisterReadsReturnTheRegister := by
  intro s hb
  have hread : ∀ {offset} r, regAt offset = some r →
      hostAccess (.readReg 4 offset) s = .next (s.respond (.word (s.regValue r))) :=
    fun _ => hostAccess_readReg_idle hb
  refine ⟨hread .cmd rfl, hread .status rfl, hread .keyLen rfl, hread .ivLen rfl, hread .aadLen rfl, hread .inLen rfl,
    hread .outLen rfl, hread .reserved rfl, fun j => hread _ (regAt_tagIn j), fun j hw => ?_, fun i hv => ?_,
    fun k => hread _ (regAt_reserved k)⟩
  · rw [hread _ (regAt_tagOut j), State.regValue, if_pos hw]
  · rw [hread _ (regAt_rk i), State.regValue, if_pos hv]

/-- Settles O16: the register map gives the register of each offset, and the write is what that register's is. -/
theorem idleRegisterWritesStoreOrAreDropped : Obligations.IdleRegisterWritesStoreOrAreDropped := by
  intro s v hb
  have hwrite : ∀ {offset} r, regAt offset = some r →
      hostAccess (.writeReg 4 offset v) s = .next (s.regWrite r v) := fun _ => hostAccess_writeReg_idle hb v
  refine ⟨hwrite .keyLen rfl, hwrite .ivLen rfl, hwrite .aadLen rfl, hwrite .inLen rfl, fun j => ?_,
    hwrite .status rfl, hwrite .outLen rfl, hwrite .reserved rfl, fun j => hwrite _ (regAt_tagOut j),
    fun i => hwrite _ (regAt_rk i), fun k => hwrite _ (regAt_reserved k)⟩
  refine ⟨_, hwrite _ (regAt_tagIn j), ?_, fun k hk => ?_, rfl⟩
  · simp [State.regWrite, Vector.get_eq_getElem]
  · have hne : j.val ≠ k.val := fun h => hk (Fin.ext h.symm)
    simp [State.regWrite, Vector.get_eq_getElem, Vector.getElem_set_ne _ _ hne]

/-- Settles O11: the write is `State.accept`. -/
theorem acceptedCmdWriteStartsACommand : Obligations.AcceptedCmdWriteStartsACommand := by
  intro s w hb
  refine ⟨s.accept w, hostAccess_writeReg_idle (r := .cmd) hb w rfl, ?_⟩
  simp [SameRegisters, SameTables, SameBuffers, SameSetting]

/-- A byte written into a buffer is read back there, and every other byte of every buffer is as before. -/
theorem byteAt_setBuffer_write (s : State) (b c : Buffer) (i a : Nat) (v : Byte) :
    (s.setBuffer b (Memory.write (s.buffer b) i v)).byteAt c a = if c = b ∧ a = i then v else s.byteAt c a := by
  simp only [State.byteAt, State.setBuffer_buffer, State.setBuffer_epoch]
  by_cases hc : c = b
  · subst hc
    by_cases ha : a = i <;> simp [Memory.read_write, ha]
  · simp [hc]

/-- Settles O17, by the kind of access and the buffer. -/
theorem idleBufferAccesses : Obligations.IdleBufferAccesses := by
  intro s b i v hb hi
  refine ⟨fun hout => ?_, fun hout => ?_, fun hkey => ?_, fun hkey => ?_⟩
  · refine ⟨s.setBuffer b (Memory.write (s.buffer b) i v), ?_, ?_, fun c a hne => ?_, ?_⟩
    · rw [hostAccess_writeBuf v hi]
      simp [hostWriteBuf, hb, hout]
    · simp [byteAt_setBuffer_write]
    · rw [byteAt_setBuffer_write, if_neg (by tauto)]
    · simp [SameRegisters, SameTables, SameSetting, SameEngine]
  · rw [hostAccess_writeBuf v hi]
    simp [hostWriteBuf, hout]
  · rw [hostAccess_readBuf hi]
    simp [hostReadBuf, hb, hkey]
  · obtain ⟨hsame, d, hd⟩ := hostReadBuf_powerless b i s
    exact ⟨_, d, hostAccess_readBuf hi, hsame, hd⟩

/-! ## `STATUS` (R21) -/

/-- The bits of `STATUS`, from the flags upwards. -/
theorem status_getLsbD (s : State) (i : Nat) : s.status.getLsbD i =
    if i = 0 then s.busy else if i = 1 then s.done else if i = 2 then s.rkValid else if i = 3 then s.tblValid
    else if 8 ≤ i ∧ i < 12 then s.err.code.getLsbD (i - 8) else false := by
  unfold State.status
  rw [BitVec.getLsbD_append, BitVec.getLsbD_append, BitVec.getLsbD_append, BitVec.getLsbD_append,
    BitVec.getLsbD_append, BitVec.getLsbD_append]
  simp only [BitVec.getLsbD_ofBool]
  grind

/-- From bit 4 on, only `ERR` is not 0. -/
theorem status_getLsbD_high (s : State) {i : Nat} (hi : 4 ≤ i) :
    s.status.getLsbD i = (decide (8 ≤ i ∧ i < 12) && s.err.code.getLsbD (i - 8)) := by
  rw [status_getLsbD, if_neg (by omega), if_neg (by omega), if_neg (by omega), if_neg (by omega)]
  split <;> simp [*]

/-- Settles O14, bit by bit. -/
theorem statusFieldsAndErrorCodes : Obligations.StatusFieldsAndErrorCodes := by
  refine ⟨fun s => ⟨status_getLsbD s 0, status_getLsbD s 1, status_getLsbD s 2, status_getLsbD s 3, ?_, ?_, ?_⟩,
    rfl, rfl, rfl, rfl, rfl, rfl, rfl, rfl⟩
  all_goals
    apply BitVec.eq_of_getLsbD_eq
    intro i hi
    rw [BitVec.getLsbD_extractLsb', status_getLsbD_high s (by omega)]
  · have hlow : ¬(8 ≤ 4 + i ∧ 4 + i < 12) := by omega
    simp [hlow]
  · have herr : 8 + i < 12 := by omega
    simp [hi, herr]
  · simp

end Sys2Proof.Machine

/-!
# Proofs about the memory and the host port (`20_memory.md`)

The host port is settled from what one access can do (`hostAccess_next`, `accessDefined_cases`). That the results of a
command depend on its inputs alone is a two-run argument: after the lazy table build the two states agree on all that a
body reads (`SameRun`), so `KeyPrefix` and the body answer alike, and both runs end in the same abort or commit.
-/

namespace Sys2Proof.Machine

/-! ## The host's steps (R49, R69, R241) -/

theorem step_eq_hostTurn {s : State} (h : ¬MayComplete s) : step s = hostTurn s :=
  if_neg fun hr => h ((engineReady_iff s).1 hr)

theorem hostTurn_nil {s : State} (h : s.inputs = []) : hostTurn s = .next s := by
  simp [hostTurn, h]

theorem hostTurn_access {s : State} {a : Access} {rest : List Input} (h : s.inputs = .access a :: rest) :
    hostTurn s = hostAccess a { s with inputs := rest, delay := s.delay - 1 } := by
  simp [hostTurn, h]

theorem hostTurn_wait {s : State} {rest : List Input} (h : s.inputs = .wait :: rest) :
    hostTurn s = if s.done then .next { s.respond (.word s.status) with inputs := rest } else .next s := by
  simp [hostTurn, h]

/-- Settles O8: the step is the host's turn, which goes by the first input. -/
theorem hostStepsTakeTheNextInput : Obligations.HostStepsTakeTheNextInput := by
  intro s rest hm
  rw [step_eq_hostTurn hm]
  refine ⟨hostTurn_nil, fun a ha => hostTurn_access ha, fun hw hd => ?_, fun hw hd => ?_⟩
  · exact ⟨_, (hostTurn_wait hw).trans (if_pos hd), SameBlockState.refl s, rfl, rfl⟩
  · exact (hostTurn_wait hw).trans (if_neg (by simp [hd]))

/-! ## Reads (R46) -/

theorem hostReadReg_pending (r : Reg) (s : State) :
    (hostReadReg r s).inputs = s.inputs ∧ (hostReadReg r s).delay = s.delay := by
  rcases hostReadReg_cases r s with h | h <;> rw [h] <;> exact ⟨rfl, rfl⟩

theorem hostReadBuf_pending (b : Buffer) (i : Nat) (s : State) :
    (hostReadBuf b i s).inputs = s.inputs ∧ (hostReadBuf b i s).delay = s.delay := by
  rcases hostReadBuf_cases b i s with h | h <;> rw [h] <;> exact ⟨rfl, rfl⟩

/-- Settles O13: of the four accesses that answer, the two reads are powerless; the writes are no reads. -/
theorem hostReadsHaveNoSideEffect : Obligations.HostReadsHaveNoSideEffect := by
  intro s t a hread ha
  rcases hostAccess_next ha with ⟨_, r, -, -, rfl⟩ | ⟨_, _, _, rfl, -⟩ | ⟨b, i, -, -, rfl⟩ | ⟨_, _, _, rfl, -⟩
  · exact ⟨(hostReadReg_powerless r s).1, hostReadReg_pending r s⟩
  · cases hread
  · exact ⟨(hostReadBuf_powerless b i s).1, hostReadBuf_pending b i s⟩
  · cases hread

/-! ## Defined accesses (R45, U17) -/

theorem accessDefined_of_regAt {offset : Nat} {r : Reg} (c : Config) (h : regAt offset = some r) :
    accessDefined c (.readReg 4 offset) = true ∧ ∀ v, accessDefined c (.writeReg 4 offset v) = true := by
  have hmap := (regAt_isSome offset).1 (Option.isSome_iff_exists.2 ⟨r, h⟩)
  simpa [accessDefined] using hmap

/-- The port answers exactly the accesses R45 defines. -/
theorem hostAccess_next_iff (s : State) (a : Access) :
    (∃ t, hostAccess a s = .next t) ↔ accessDefined s.cfg a = true := by
  constructor
  · rintro ⟨t, ht⟩
    rcases hostAccess_next ht with ⟨_, _, rfl, hr, -⟩ | ⟨_, _, v, rfl, hr, -⟩ | ⟨_, _, rfl, hi, -⟩ |
      ⟨_, _, _, rfl, hi, -⟩
    · exact (accessDefined_of_regAt s.cfg hr).1
    · exact (accessDefined_of_regAt s.cfg hr).2 v
    · simpa [accessDefined] using hi
    · simpa [accessDefined] using hi
  · intro h
    rcases accessDefined_cases h with ⟨_, _, rfl, hr⟩ | ⟨_, _, v, rfl, hr⟩ | ⟨_, _, rfl, hi⟩ | ⟨_, _, v, rfl, hi⟩
    · exact ⟨_, hostAccess_readReg hr⟩
    · exact ⟨_, hostAccess_writeReg v hr⟩
    · exact ⟨_, hostAccess_readBuf hi⟩
    · exact ⟨_, hostAccess_writeBuf v hi⟩

/-- Settles O18: an access that is not answered is refused, since the machine has no faults. -/
theorem exactlyTheUndefinedAccessesAreRefused : Obligations.ExactlyTheUndefinedAccessesAreRefused := by
  intro s a
  rw [← Bool.not_eq_true, ← hostAccess_next_iff]
  cases hostAccess a s with
  | next t => simp
  | fault r => cases r
  | refused r => simp

/-! ## What two states with the same inputs give a command (R47) -/

section
variable {s s' : State} {st : Strategy}

/-- The buffers whose first `LEN` bytes a command reads. -/
def IsMessageBuffer (b : Buffer) : Prop :=
  b ≠ .keyBuf ∧ b ≠ .outBuf

theorem SameCommandInputs.lengthReg (h : SameCommandInputs s s') {b : Buffer} (hb : b ≠ .outBuf) :
    s'.lengthReg b = s.lengthReg b := by
  obtain ⟨-, -, -, -, hkey, hiv, haad, hin, -⟩ := h
  cases b with
  | keyBuf => exact hkey
  | ivBuf => exact hiv
  | aadBuf => exact haad
  | inBuf => exact hin
  | outBuf => exact absurd rfl hb

theorem SameCommandInputs.byteAt (h : SameCommandInputs s s') {b : Buffer} (hb : IsMessageBuffer b) :
    ∀ a < (s.lengthReg b).toNat, s'.byteAt b a = s.byteAt b a := by
  obtain ⟨-, -, -, -, -, -, -, -, -, -, hiv, haad, hin⟩ := h
  cases b with
  | keyBuf => exact absurd rfl hb.1
  | ivBuf => exact hiv
  | aadBuf => exact haad
  | inBuf => exact hin
  | outBuf => exact absurd rfl hb.2

theorem SameCommandInputs.operand (h : SameCommandInputs s s') {b : Buffer} (hb : IsMessageBuffer b) :
    s'.operand b = s.operand b := by
  rw [State.operand, State.operand, h.lengthReg hb.2]
  exact State.readBytes_congr (h.byteAt hb)

theorem SameCommandInputs.cfg (h : SameCommandInputs s s') : s'.cfg = s.cfg :=
  h.1

theorem SameCommandInputs.rkValid (h : SameCommandInputs s s') : s'.rkValid = s.rkValid :=
  h.2.2.1

theorem SameCommandInputs.fits (h : SameCommandInputs s s') {b : Buffer} (hb : b ≠ .outBuf) : s'.fits b = s.fits b := by
  rw [State.fits, State.fits, h.lengthReg hb, h.cfg]

theorem SameCommandInputs.outFits (h : SameCommandInputs s s') : s'.outFits = s.outFits := by
  funext n
  rw [State.outFits, State.outFits, h.cfg]

theorem SameCommandInputs.inLen (h : SameCommandInputs s s') : s'.inLen = s.inLen :=
  h.lengthReg (b := .inBuf) nofun

theorem SameCommandInputs.keyLen (h : SameCommandInputs s s') : s'.keyLen = s.keyLen :=
  h.lengthReg (b := .keyBuf) nofun

theorem SameCommandInputs.keyBlock (h : SameCommandInputs s s') : s'.keyBlock = s.keyBlock := by
  obtain ⟨-, -, -, -, -, -, -, -, -, hkey, -⟩ := h
  rw [State.keyBlock, State.keyBlock, State.readBytes_congr hkey]

theorem SameCommandInputs.loadRk (h : SameCommandInputs s s') (rk : Vector Word 32) :
    SameCommandInputs (s.loadRk rk) (s'.loadRk rk) := by
  obtain ⟨hcfg, -, -, htbl, hrest⟩ := h
  exact ⟨hcfg, rfl, rfl, htbl, by simpa using hrest⟩

theorem lazyTables_tblValid (st : Strategy) (s : State) :
    (lazyTables st s).tblValid = (s.tblValid || st == .table) := by
  cases st with
  | direct => simp
  | batch => simp
  | table => cases hv : s.tblValid <;> simp [lazyTables, hv]

theorem SameCommandInputs.lazyTables (h : SameCommandInputs s s') (st : Strategy) :
    SameCommandInputs (lazyTables st s) (lazyTables st s') := by
  obtain ⟨hcfg, hrk, hrkv, htbl, hrest⟩ := h
  refine ⟨by simpa using hcfg, by simpa using hrk, by simpa using hrkv, ?_, by simpa using hrest⟩
  rw [lazyTables_tblValid, lazyTables_tblValid, htbl]

/-- After the lazy build a TABLE command finds the table of R125. -/
theorem lazyTables_tblD (h : s.tablesSound) : (lazyTables .table s).tblD = tableD := by
  cases hv : s.tblValid with
  | true => simpa [Machine.lazyTables, hv] using (h hv).1
  | false => simp [Machine.lazyTables, hv]

/-- All that a command under a strategy reads is the same in two states: its inputs, and its transforms. -/
structure SameRun (st : Strategy) (s s' : State) : Prop where
  inputs : SameCommandInputs s s'
  roundT : s'.roundT st = s.roundT st
  keyT : s'.keyT st = s.keyT st

/-- The tables may differ as long as they are not valid: the lazy build comes before their use (R128). -/
theorem SameRun.lazyTables (h : SameCommandInputs s s') (hs : s.tablesSound) (hs' : s'.tablesSound) (st : Strategy) :
    SameRun st (lazyTables st s) (lazyTables st s') where
  inputs := h.lazyTables st
  roundT := by
    funext a
    cases st with
    | direct => rfl
    | batch => rfl
    | table => rw [State.roundT, State.roundT, lazyTables_tblD hs, lazyTables_tblD hs']
  keyT := by rw [lazyTables_keyT hs, lazyTables_keyT hs']

theorem SameRun.loadRk (h : SameRun st s s') (rk : Vector Word 32) : SameRun st (s.loadRk rk) (s'.loadRk rk) where
  inputs := h.inputs.loadRk rk
  roundT := by cases st <;> exact h.roundT
  keyT := by cases st <;> exact h.keyT

/-! ## The bodies on the same inputs -/

theorem SameRun.cryptBlocks (h : SameRun st s s') : s'.cryptBlocks st = s.cryptBlocks st := by
  obtain ⟨⟨hcfg, hrk, -⟩, hround, -⟩ := h
  funext dir bs
  cases st <;> simp only [State.cryptBlocks, hround, hrk, hcfg]

theorem SameRun.encryptOne (h : SameRun st s s') : s'.encryptOne st = s.encryptOne st := by
  funext b
  rw [State.encryptOne, State.encryptOne, h.cryptBlocks]

theorem SameRun.hashSubkey (h : SameRun st s s') : s'.hashSubkey st = s.hashSubkey st := by
  rw [State.hashSubkey, State.hashSubkey, h.encryptOne]

theorem SameRun.counter0 (h : SameRun st s s') : s'.counter0 st = s.counter0 st := by
  rw [State.counter0, State.counter0, h.hashSubkey, h.inputs.operand (b := .ivBuf) ⟨nofun, nofun⟩]

theorem SameRun.gctr (h : SameRun st s s') : s'.gctr st = s.gctr st := by
  funext d
  rw [State.gctr, State.gctr, h.cryptBlocks, h.counter0]

theorem SameRun.gcmTag (h : SameRun st s s') : s'.gcmTag st = s.gcmTag st := by
  funext ct
  rw [State.gcmTag, State.gcmTag, h.hashSubkey, h.encryptOne, h.counter0,
    h.inputs.operand (b := .aadBuf) ⟨nofun, nofun⟩]

theorem SameCommandInputs.tagInBlock (h : SameCommandInputs s s') : s'.tagInBlock = s.tagInBlock := by
  obtain ⟨-, -, -, -, -, -, -, -, htag, -⟩ := h
  rw [State.tagInBlock, State.tagInBlock, htag]

theorem SameCommandInputs.blockLengthOk (h : SameCommandInputs s s') (st : Strategy) :
    blockLengthOk st s' = blockLengthOk st s := by
  simp only [Machine.blockLengthOk, h.fits (b := .inBuf) nofun, h.outFits, h.inLen]

theorem SameCommandInputs.gcmLengthsOk (h : SameCommandInputs s s') : gcmLengthsOk s' = gcmLengthsOk s := by
  simp only [Machine.gcmLengthsOk, h.fits (b := .ivBuf) nofun, h.fits (b := .aadBuf) nofun,
    h.fits (b := .inBuf) nofun, h.outFits, h.inLen]

/-- A body reads nothing but what two states of the same run agree on. -/
theorem SameRun.opBody (h : SameRun st s s') (p : Padding) (op : Op) : opBody st p op s' = opBody st p op s := by
  have hop : s'.operand .inBuf = s.operand .inBuf := h.inputs.operand ⟨nofun, nofun⟩
  have hfits : s'.fits .inBuf = s.fits .inBuf := h.inputs.fits nofun
  cases op with
  | keyexp => rfl
  | tblgen => rfl
  | encblk | decblk =>
    simp only [Machine.opBody, blockBody, h.inputs.blockLengthOk, h.cryptBlocks, h.inputs.inLen, hop]
  | enc => simp only [Machine.opBody, encBody, hfits, h.inputs.outFits, h.cryptBlocks, hop]
  | dec => simp only [Machine.opBody, decBody, hfits, h.inputs.outFits, h.cryptBlocks, h.inputs.inLen, hop]
  | gcmenc => simp only [Machine.opBody, gcmencBody, h.inputs.gcmLengthsOk, h.gctr, h.gcmTag, hop]
  | gcmdec =>
    simp only [Machine.opBody, gcmdecBody, h.inputs.gcmLengthsOk, h.gctr, h.gcmTag, h.inputs.tagInBlock, hop]

theorem SameRun.bodyOf {i : Instr} (h : SameRun i.strategy s s') : bodyOf i s' = bodyOf i s := by
  rw [bodyOf_eq_opBody, h.opBody]

theorem loadKey_ok (st : Strategy) {s : State} (h : s.keyLen = 16) :
    loadKey st s = .ok (s.loadRk (keySchedule (s.keyT st) s.keyBlock)) :=
  if_neg (not_not.2 h)

theorem loadKey_error (st : Strategy) {s : State} (h : s.keyLen ≠ 16) : loadKey st s = .error .invalidKeyLength :=
  if_pos h

theorem keyPrefix_true (st : Strategy) (s : State) : keyPrefix st true s = loadKey st s := rfl

theorem keyPrefix_false (st : Strategy) (s : State) :
    keyPrefix st false s = if s.rkValid then .ok s else .error .keyNotLoaded := rfl

/-- `KeyPrefix` fails in both states with the same error, or succeeds in both (R105). -/
theorem SameRun.keyPrefix (h : SameRun st s s') (kx : Bool) :
    (∃ e, keyPrefix st kx s = .error e ∧ keyPrefix st kx s' = .error e) ∨
      ∃ u u', keyPrefix st kx s = .ok u ∧ keyPrefix st kx s' = .ok u' ∧ SameRun st u u' := by
  cases kx with
  | true =>
    simp only [keyPrefix_true]
    by_cases hk : s.keyLen = 16
    · have hk' : s'.keyLen = 16 := h.inputs.keyLen.trans hk
      refine .inr ⟨_, _, loadKey_ok st hk, loadKey_ok st hk', ?_⟩
      rw [h.keyT, h.inputs.keyBlock]
      exact h.loadRk _
    · have hk' : s'.keyLen ≠ 16 := h.inputs.keyLen ▸ hk
      exact .inl ⟨_, loadKey_error st hk, loadKey_error st hk'⟩
  | false =>
    simp only [keyPrefix_false, h.inputs.rkValid]
    cases s.rkValid with
    | true => exact .inr ⟨s, s', rfl, rfl, h⟩
    | false => exact .inl ⟨.keyNotLoaded, rfl, rfl⟩

end

/-! ## Two runs end alike -/

/-- What R47 compares after a command in two runs; the tag only after a `GCMENC` that succeeded. -/
def SameOutcome (i : Instr) (t t' : State) : Prop :=
  t'.err = t.err ∧ t'.outLen = t.outLen ∧ t'.rk = t.rk ∧ t'.rkValid = t.rkValid ∧ t'.tblValid = t.tblValid ∧
    (∀ a < t.outLen.toNat, t'.byteAt .outBuf a = t.byteAt .outBuf a) ∧
    (i.op = .gcmenc → t.err = .noError → t'.tagOut = t.tagOut)

theorem SameOutcome.abort {s s' : State} (h : SameCommandInputs s s') {i : Instr} {e : Err}
    (he : i.op = .gcmenc → e ≠ .noError) : SameOutcome i (s.abort e) (s'.abort e) := by
  obtain ⟨-, hrk, hrkv, htbl, -⟩ := h
  exact ⟨rfl, rfl, hrk, hrkv, htbl, fun a ha => absurd ha (Nat.not_lt_zero a), fun hop hn => absurd hn (he hop)⟩

/-- Below `OUT_LEN` the output buffer holds the result's bytes, whatever it held before. -/
theorem commit_byteAt_out_congr (r : Result) (s s' : State) {a : Nat} (ha : a < (commit r s).outLen.toNat) :
    (commit r s').byteAt .outBuf a = (commit r s).byteAt .outBuf a := by
  rw [commit_outLen, BitVec.toNat_ofNat] at ha
  have hlen : a < r.out.length := lt_of_lt_of_le ha (Nat.mod_le _ _)
  simp [commit_byteAt_out, hlen]

theorem commit_tagOut_congr {r : Result} (h : r.tag.isSome = true) (s s' : State) :
    (commit r s').tagOut = (commit r s).tagOut := by
  obtain ⟨out, _ | t⟩ := r
  · cases h
  · rfl

theorem SameOutcome.commit {s s' : State} (h : SameCommandInputs s s') {i : Instr} {r : Result}
    (hr : i.op = .gcmenc → r.tag.isSome = true) : SameOutcome i (commit r s) (commit r s') := by
  obtain ⟨-, hrk, hrkv, htbl, -⟩ := h
  exact ⟨by simp, by simp, by simpa using hrk, by simpa using hrkv, by simpa using htbl,
    fun a => commit_byteAt_out_congr r s s', fun hop _ => commit_tagOut_congr (hr hop) s s'⟩

theorem keyPrefix_error_ne {st : Strategy} {kx : Bool} {s : State} {e : Err} (h : keyPrefix st kx s = .error e) :
    e ≠ .noError := by
  rcases keyPrefix_error h with ⟨-, -, rfl⟩ | ⟨-, -, rfl⟩ <;> exact nofun

theorem bodyOf_gcmenc {i : Instr} (h : i.op = .gcmenc) : bodyOf i = gcmencBody i.strategy := by
  funext s
  rw [bodyOf_eq_opBody, h, opBody]

theorem gcmencBody_error {st : Strategy} {s : State} {e : Err} (h : gcmencBody st s = .error e) : e = .lengthRange := by
  unfold gcmencBody at h
  split at h
  · cases h
  · cases h
    rfl

theorem gcmencBody_tag {st : Strategy} {s : State} {r : Result} (h : gcmencBody st s = .ok r) :
    r.tag.isSome = true := by
  unfold gcmencBody at h
  split at h
  · cases h
    rfl
  · cases h

/-- `KEYEXP` is a data command that runs the key schedule and has no data: it commits the empty result (R104). -/
theorem keyexp_eq_runData {i : Instr} (h : i.op = .keyexp) (s : State) :
    keyexp i.strategy s = runData i.strategy true (bodyOf i) s := by
  simp only [keyexp, runData, keyPrefix_true, bodyOf_keyexp h]
  rfl

theorem exec_of_tblgen {i : Instr} (h : i.op = .tblgen) (s : State) :
    exec i s = .next (s.buildTables.settle .noError 0) := by
  rcases exec_cases i s with ⟨hop, -⟩ | ⟨-, -, he⟩ | ⟨-, hop, -⟩
  · cases hop.symm.trans h
  · exact he
  · exact absurd h hop

/-- Every command but `TBLGEN` is `KeyPrefix` and a body (R209). -/
theorem exec_of_ne_tblgen {i : Instr} (h : i.op ≠ .tblgen) (s : State) :
    exec i s = .next (runData i.strategy (i.kx || i.op == .keyexp) (bodyOf i) s) := by
  rcases exec_cases i s with ⟨hop, -, he⟩ | ⟨hop, -⟩ | ⟨hop, -, he⟩
  · simp [he, keyexp_eq_runData hop, hop]
  · exact absurd hop h
  · simp [he, beq_false_of_ne hop]

/-- Two data commands on the same inputs end in the same abort or in the commit of the same result. -/
theorem SameOutcome.runData {i : Instr} {s s' : State} (h : SameCommandInputs s s') (hs : s.tablesSound)
    (hs' : s'.tablesSound) (kx : Bool) :
    SameOutcome i (runData i.strategy kx (bodyOf i) s) (runData i.strategy kx (bodyOf i) s') := by
  have hrun := SameRun.lazyTables h hs hs' i.strategy
  rcases hrun.keyPrefix kx with ⟨e, he, he'⟩ | ⟨u, u', hu, hu', hsame⟩
  · simp only [Machine.runData, he, he']
    exact .abort hrun.inputs fun _ => keyPrefix_error_ne he
  · simp only [Machine.runData, hu, hu', hsame.bodyOf]
    cases hb : bodyOf i u with
    | error e =>
      refine .abort hsame.inputs fun hop => ?_
      rw [bodyOf_gcmenc hop] at hb
      exact gcmencBody_error hb ▸ nofun
    | ok r =>
      refine .commit hsame.inputs fun hop => ?_
      rw [bodyOf_gcmenc hop] at hb
      exact gcmencBody_tag hb

/-- `TBLGEN` ends in the commit of the empty result. -/
theorem SameOutcome.tblgen {i : Instr} (hop : i.op = .tblgen) {s s' : State} (h : SameCommandInputs s s') :
    SameOutcome i (s.buildTables.settle .noError 0) (s'.buildTables.settle .noError 0) := by
  obtain ⟨-, hrk, hrkv, -⟩ := h
  exact ⟨rfl, rfl, hrk, hrkv, rfl, fun a ha => absurd ha (Nat.not_lt_zero a), fun hgcm => by cases hop.symm.trans hgcm⟩

/-- Settles O55: `TBLGEN` reads no input, and every other command is `KeyPrefix` and a body on the same inputs. -/
theorem resultsDependOnlyOnTheInputs : Obligations.ResultsDependOnlyOnTheInputs := by
  intro i s s' hs hs' h
  by_cases hop : i.op = .tblgen
  · exact ⟨_, _, exec_of_tblgen hop s, exec_of_tblgen hop s', SameOutcome.tblgen hop h⟩
  · exact ⟨_, _, exec_of_ne_tblgen hop s, exec_of_ne_tblgen hop s', SameOutcome.runData h hs hs' _⟩

end Sys2Proof.Machine

/-!
# Proofs about the encoding (`30_encoding.md`)

A command word is its five fields (R60), and decoding reads exactly the fields of one command (`decode_eq_ok_iff`).
Both round trips, the table of R66 and the count of 51 words follow from these two facts.
-/

namespace Sys2Proof

/-! ## A word is its fields (R60) -/

/-- The word with these fields (R60). -/
def CommandFields.word (f : CommandFields) : Word :=
  f.rsv ++ f.kx ++ f.pad ++ f.strat ++ f.op

/-- The bits of the word, from `OP` upwards. -/
theorem CommandFields.word_getLsbD (f : CommandFields) (i : Nat) : f.word.getLsbD i =
    if i < 8 then f.op.getLsbD i else if i < 10 then f.strat.getLsbD (i - 8)
    else if i < 11 then f.pad.getLsbD (i - 10) else if i < 12 then f.kx.getLsbD (i - 11)
    else f.rsv.getLsbD (i - 12) := by
  unfold CommandFields.word
  rw [BitVec.getLsbD_append, BitVec.getLsbD_append, BitVec.getLsbD_append, BitVec.getLsbD_append]
  grind

theorem fieldsOf_word (f : CommandFields) : fieldsOf f.word = f := by
  obtain ⟨op, strat, pad, kx, rsv⟩ := f
  simp only [fieldsOf, CommandFields.mk.injEq]
  refine ⟨?_, ?_, ?_, ?_, ?_⟩
  all_goals
    apply BitVec.eq_of_getLsbD_eq
    intro i hi
    rw [BitVec.getLsbD_extractLsb', CommandFields.word_getLsbD]
    grind

theorem word_fieldsOf (w : Word) : (fieldsOf w).word = w := by
  apply BitVec.eq_of_getLsbD_eq
  intro i hi
  rw [CommandFields.word_getLsbD]
  simp only [fieldsOf, BitVec.getLsbD_extractLsb']
  grind

/-- The fields a command is encoded with (R61 to R65). -/
def Instr.fields (i : Instr) : CommandFields :=
  ⟨opcode i.op, stratBits i.strategy, padBit i.pad, BitVec.ofBool i.kx, 0⟩

/-- The shifted fields of R69 do not overlap, so that their OR is the word of the fields. -/
theorem encode_eq_word (i : Instr) : encode i = i.fields.word := by
  apply BitVec.eq_of_getLsbD_eq
  intro n hn
  rw [CommandFields.word_getLsbD]
  simp only [encode, Instr.fields, BitVec.getLsbD_or, BitVec.getLsbD_shiftLeft, BitVec.getLsbD_setWidth]
  grind

/-! ## Reading each field (R61 to R64, R66) -/

theorem opOf_eq_some_iff {b : BitVec 8} {op : Op} : opOf b = some op ↔ b = opcode op := by
  constructor
  · intro h
    simp only [opOf] at h
    split_ifs at h <;> cases h <;> assumption
  · rintro rfl
    cases op <;> rfl

theorem stratOf_eq_some_iff {b : BitVec 2} {st : Strategy} : stratOf b = some st ↔ b = stratBits st := by
  constructor
  · intro h
    simp only [stratOf] at h
    split_ifs at h <;> cases h <;> assumption
  · rintro rfl
    cases st <;> rfl

theorem padOf_eq_iff {b : BitVec 1} {p : Padding} : padOf b = p ↔ b = padBit p := by
  revert b
  cases p <;> decide

theorem kxOf_eq_iff {b : BitVec 1} {kx : Bool} : kxOf b = kx ↔ b = BitVec.ofBool kx := by
  revert b
  cases kx <;> decide

/-- The combination R66 lists for a command is that of the command's own fields. -/
theorem combine_eq_some_iff {op : Op} {st : Strategy} {p : Padding} {kx : Bool} {i : Instr} :
    combine op st p kx = some i ↔ op = i.op ∧ st = i.strategy ∧ p = i.pad ∧ kx = i.kx := by
  constructor
  · intro h
    unfold combine at h
    split at h <;> cases h <;> exact ⟨rfl, rfl, rfl, rfl⟩
  · rintro ⟨rfl, rfl, rfl, rfl⟩
    cases i <;> rfl

/-- The check of `RSV` comes first (R68). -/
theorem decode_of_rsv {w : Word} (h : (fieldsOf w).rsv ≠ 0) : decode w = .error .reservedBits := by
  rw [decode, if_pos h]

/-- The checks of R68 in their order: a word decodes when none of them fails. -/
theorem decode_eq_ok_iff_checks {w : Word} {i : Instr} : decode w = .ok i ↔
    (fieldsOf w).rsv = 0 ∧ ∃ op, opOf (fieldsOf w).op = some op ∧ ∃ st, stratOf (fieldsOf w).strat = some st ∧
      combine op st (padOf (fieldsOf w).pad) (kxOf (fieldsOf w).kx) = some i := by
  by_cases hr : (fieldsOf w).rsv = 0
  · cases hop : opOf (fieldsOf w).op with
    | none => simp [decode, hr, hop]
    | some op =>
      cases hst : stratOf (fieldsOf w).strat with
      | none => simp [decode, hr, hop, hst]
      | some st =>
        cases hc : combine op st (padOf (fieldsOf w).pad) (kxOf (fieldsOf w).kx) <;> simp [decode, hr, hop, hst, hc]
  · rw [decode_of_rsv hr]
    exact ⟨nofun, fun h => absurd h.1 hr⟩

/-- A word decodes to a command exactly when its fields are those of the command. -/
theorem decode_eq_ok_iff {w : Word} {i : Instr} : decode w = .ok i ↔ fieldsOf w = i.fields := by
  rw [decode_eq_ok_iff_checks]
  simp only [opOf_eq_some_iff, stratOf_eq_some_iff, combine_eq_some_iff, padOf_eq_iff, kxOf_eq_iff, Instr.fields]
  constructor
  · rintro ⟨hrsv, _, hop, _, hst, rfl, rfl, hpad, hkx⟩
    cases hf : fieldsOf w
    simp_all
  · intro h
    exact ⟨by rw [h], _, by rw [h], _, by rw [h], rfl, rfl, by rw [h], by rw [h]⟩

theorem fieldsOf_encode (i : Instr) : fieldsOf (encode i) = i.fields := by
  rw [encode_eq_word, fieldsOf_word]

theorem decode_encode (i : Instr) : decode (encode i) = .ok i :=
  decode_eq_ok_iff.2 (fieldsOf_encode i)

theorem encode_of_decode {w : Word} {i : Instr} (h : decode w = .ok i) : encode i = w := by
  rw [encode_eq_word, ← decode_eq_ok_iff.1 h, word_fieldsOf]

theorem encode_injective : Function.Injective encode := by
  intro i j h
  have hd := decode_encode i
  rw [h, decode_encode] at hd
  exact (Except.ok.inj hd).symm

/-- Settles O2: the fields of the encoded word are the command's. -/
theorem decodeOfEncodeIsTheCommand : Obligations.DecodeOfEncodeIsTheCommand :=
  decode_encode

/-- Settles O3: the decoded word's fields are the command's, and a word is its fields. -/
theorem encodeOfDecodeIsTheWord : Obligations.EncodeOfDecodeIsTheWord :=
  fun _ _ => encode_of_decode

/-- Settles O1: each word is the encoding of its command. -/
theorem exampleWordsDecode : Obligations.ExampleWordsDecode :=
  ⟨decode_encode .keyexpD, decode_encode .keyexpT, decode_encode .tblgen, decode_encode (.encblkD false),
    decode_encode (.encblkT true), decode_encode (.decblkB false), decode_encode (.encD .pkcs7 true),
    decode_encode (.decT .pkcs7 false), decode_encode (.gcmencD true), decode_encode (.gcmdecB false)⟩

/-- Settles O6: bits 31:12 are the field `RSV`, which is checked first. -/
theorem reservedBitsMakeAWordIllegal : Obligations.ReservedBitsMakeAWordIllegal :=
  fun _ h => decode_of_rsv h

/-! ## The table of R66 and the legal words -/

/-- The commands, row by row of the opcode table. -/
def allCommands : List Instr :=
  [.keyexpD, .keyexpT, .tblgen] ++ [false, true].flatMap fun kx =>
    [.encblkD kx, .encblkT kx, .encblkB kx, .decblkD kx, .decblkT kx, .decblkB kx,
      .gcmencD kx, .gcmencT kx, .gcmencB kx, .gcmdecD kx, .gcmdecT kx, .gcmdecB kx] ++
    [Padding.none, .pkcs7].flatMap fun p => [.encD p kx, .encT p kx, .encB p kx, .decD p kx, .decT p kx, .decB p kx]

theorem mem_allCommands (i : Instr) : i ∈ allCommands := by
  cases i with
  | keyexpD | keyexpT | tblgen => decide
  | encblkD kx | encblkT kx | encblkB kx | decblkD kx | decblkT kx | decblkB kx
  | gcmencD kx | gcmencT kx | gcmencB kx | gcmdecD kx | gcmdecT kx | gcmdecB kx => cases kx <;> decide
  | encD p kx | encT p kx | encB p kx | decD p kx | decT p kx | decB p kx => cases p <;> cases kx <;> decide

theorem allCommands_length : allCommands.length = 51 := rfl

theorem allCommands_nodup : allCommands.Nodup := by decide

theorem wellFormed_fields (i : Instr) : i.fields.wellFormed = true := by
  have h : ∀ j ∈ allCommands, j.fields.wellFormed = true := by decide
  exact h i (mem_allCommands i)

/-- Every combination a row of R66 allows is the fields of a command. -/
theorem exists_fields_of_fits : ∀ r ∈ legalRows, ∀ (strat : BitVec 2) (pad kx : BitVec 1),
    CommandFields.fits ⟨r.op, strat, pad, kx, 0⟩ r = true →
      ∃ i ∈ allCommands, i.fields = ⟨r.op, strat, pad, kx, 0⟩ := by
  decide

theorem wellFormed_iff_exists_fields (f : CommandFields) : f.wellFormed = true ↔ ∃ i : Instr, f = i.fields := by
  constructor
  · intro h
    simp only [CommandFields.wellFormed, Bool.and_eq_true, decide_eq_true_eq, List.any_eq_true] at h
    obtain ⟨hrsv, r, hr, hfits⟩ := h
    have hop : f.op = r.op := by
      simp only [CommandFields.fits, Bool.and_eq_true, decide_eq_true_eq] at hfits
      obtain ⟨⟨⟨hop, -⟩, -⟩, -⟩ := hfits
      exact hop
    obtain ⟨op, strat, pad, kx, rsv⟩ := f
    dsimp only at hrsv hop
    subst hrsv hop
    obtain ⟨i, -, hi⟩ := exists_fields_of_fits r hr strat pad kx hfits
    exact ⟨i, hi.symm⟩
  · rintro ⟨i, rfl⟩
    exact wellFormed_fields i

/-- Settles O4: a word decodes when its fields are a command's, and those are the fields the table allows. -/
theorem decodeAcceptsExactlyTheLegalFields : Obligations.DecodeAcceptsExactlyTheLegalFields := by
  intro w
  simp only [decode_eq_ok_iff, wellFormed_iff_exists_fields]

/-- Settles O5: the legal words are the encodings of the commands, and encoding is injective. -/
theorem exactlyFiftyOneLegalWords : Obligations.ExactlyFiftyOneLegalWords := by
  refine ⟨allCommands.map encode, ?_, allCommands_nodup.map encode_injective, fun w => ?_⟩
  · rw [List.length_map, allCommands_length]
  · rw [List.mem_map]
    constructor
    · rintro ⟨i, -, rfl⟩
      exact ⟨i, decode_encode i⟩
    · rintro ⟨i, h⟩
      exact ⟨i, mem_allCommands i, encode_of_decode h⟩

end Sys2Proof

namespace Sys2Proof.Machine

/-- When the engine may complete, the step is its `complete` step. -/
theorem step_eq_engineComplete {s : State} (h : MayComplete s) : step s = engineComplete s :=
  if_pos ((engineReady_iff s).2 h)

/-- Settles O9: a word without legal fields does not decode, and the engine then only aborts. -/
theorem illegalWordOnlyReportsIllegalCommand : Obligations.IllegalWordOnlyReportsIllegalCommand := by
  intro s hm hf
  rw [step_eq_engineComplete hm]
  rcases engineComplete_cases s with ⟨i, hd, -⟩ | ⟨e, -, he⟩
  · have hw := (decodeAcceptsExactlyTheLegalFields s.cmdw).1 ⟨i, hd⟩
    rw [hf] at hw
    cases hw
  · refine ⟨_, he, ?_⟩
    simp [SameTagOut, SameTables, SameBuffers, SameSetting]

end Sys2Proof.Machine

/-!
# Proofs about the source's calls (`30_encoding.md` R70)

A call loads its operands and issues its command (`exists_issued`); the command finds them after `KeyPrefix`
(`AfterPrefix`) and computes with them what the source defines, under every strategy alike; and the host reads that
back (`callReturns_of_yields`).
-/

namespace Sys2Proof.Machine

/-! ## Every strategy computes the direct cipher (R131, R143) -/

theorem linL_xor (a b : Word) : linL (a ^^^ b) = linL a ^^^ linL b := by
  simp only [linL, rotl32_xor _ _ (show 2 < 32 by decide), rotl32_xor _ _ (show 10 < 32 by decide),
    rotl32_xor _ _ (show 18 < 32 by decide), rotl32_xor _ _ (show 24 < 32 by decide)]
  ac_rfl

theorem linL_rotl32 (a : Word) {n : Nat} (hn : n < 32) : linL (rotl32 a n) = rotl32 (linL a) n := by
  simp only [linL, rotl32_xor _ _ hn, rotl32_comm a hn (show 2 < 32 by decide),
    rotl32_comm a hn (show 10 < 32 by decide), rotl32_comm a hn (show 18 < 32 by decide),
    rotl32_comm a hn (show 24 < 32 by decide)]

/-- `T_tab = T` on the table of R125 (R131). -/
theorem tabLookup_tableD (a : Word) : tabLookup tableD a = transT a :=
  tabLookup_ofFn linL_xor (fun a _ hn => linL_rotl32 a hn) a

/-- After the lazy build every strategy's round transform is `T`. -/
theorem lazyTables_roundT {s : State} (h : s.tablesSound) (st : Strategy) : (lazyTables st s).roundT st = transT := by
  funext a
  cases st with
  | direct => rfl
  | batch => rfl
  | table => rw [State.roundT, lazyTables_tblD h, tabLookup_tableD]

theorem loadRk_roundT (s : State) (rk : Vector Word 32) (st : Strategy) : (s.loadRk rk).roundT st = s.roundT st := by
  cases st <;> rfl

/-- Lanes in lock-step do not interact (R141). -/
theorem lockStep_eq_map (t : Word → Word) (keys : List Word) (xs : List Quad) :
    lockStep t keys xs = xs.map fun x => keys.foldl (cryptRound t) x := by
  induction keys generalizing xs with
  | nil => simp [lockStep]
  | cons k ks ih =>
    have hk : lockStep t (k :: ks) xs = lockStep t ks (xs.map fun x => cryptRound t x k) := rfl
    rw [hk, ih, List.map_map]
    rfl

theorem cryptGroups_eq_map (t : Word → Word) (rk : Vector Word 32) (dir : Direction) {lanes : Nat} (hl : 1 ≤ lanes)
    {fuel : Nat} {bs : List Block} (h : bs.length ≤ fuel) :
    cryptGroups t (subkeys rk dir) lanes fuel bs = bs.map (crypt t rk dir) := by
  induction fuel generalizing bs with
  | zero =>
    rw [List.length_eq_zero_iff.1 (Nat.le_zero.1 h)]
    rfl
  | succ n ih =>
    cases bs with
    | nil => rfl
    | cons b bs =>
      have hrest : ((b :: bs).drop lanes).length ≤ n := by
        simp only [List.length_drop, List.length_cons] at h ⊢
        omega
      have hgroup : ∀ ys : List Block, (lockStep t (subkeys rk dir) (ys.map wordsOfBlock)).map outputBlock =
          ys.map (crypt t rk dir) := by
        intro ys
        rw [lockStep_eq_map, List.map_map, List.map_map]
        rfl
      rw [cryptGroups, ih hrest, hgroup, ← List.map_append, List.take_append_drop]

theorem cryptBatch_eq_map (t : Word → Word) (rk : Vector Word 32) (dir : Direction) (lanes : Nat) (bs : List Block) :
    cryptBatch t rk dir lanes bs = bs.map (crypt t rk dir) :=
  cryptGroups_eq_map t rk dir (le_max_left 1 _) le_rfl

/-- With the round transform `T`, a strategy computes the direct cipher, block by block. -/
theorem cryptBlocks_eq_map {u : State} {st : Strategy} (h : u.roundT st = transT) (dir : Direction) (bs : List Block) :
    u.cryptBlocks st dir bs = bs.map (crypt transT u.rk dir) := by
  cases st with
  | direct => rw [State.cryptBlocks, h]
  | table => rw [State.cryptBlocks, h]
  | batch => rw [State.cryptBlocks, h, cryptBatch_eq_map]

section
variable {u : State} {st : Strategy} (h : u.roundT st = transT)
include h

theorem encryptOne_eq_encE (b : Block) : u.encryptOne st b = encE u.rk b := by
  rw [State.encryptOne, cryptBlocks_eq_map h]
  rfl

theorem counter0_eq_gcmJ0 : u.counter0 st = gcmJ0 u.rk (u.operand .ivBuf) := by
  rw [State.counter0, State.hashSubkey, encryptOne_eq_encE h, gcmJ0]

theorem gctr_eq_gcmStream (d : List Byte) : u.gctr st d = gcmStream u.rk (u.operand .ivBuf) d := by
  rw [State.gctr, cryptBlocks_eq_map h, counter0_eq_gcmJ0 h]
  rfl

theorem gcmTag_eq_gcmTagOf (ct : List Byte) :
    u.gcmTag st ct = gcmTagOf u.rk (u.operand .ivBuf) (u.operand .aadBuf) ct := by
  rw [State.gcmTag, State.hashSubkey, encryptOne_eq_encE h, encryptOne_eq_encE h, counter0_eq_gcmJ0 h, gcmTagOf]

end

/-! ## `KeyPrefix` and what follows it (R105, R209) -/

/-- The state that the checks and the computation of a command find, once steps 2 and 3 of R209 have put the subkeys
`rk` in force. -/
structure AfterPrefix (st : Strategy) (v : State) (rk : Vector Word 32) (u : State) : Prop where
  cfg : u.cfg = v.cfg
  operand : ∀ b, u.operand b = v.operand b
  tagIn : u.tagInBlock = v.tagInBlock
  rk : u.rk = rk
  rkValid : u.rkValid = true
  roundT : u.roundT st = transT

/-- How a command ends after `KeyPrefix`: its checks have failed, or it commits its result. -/
def conclude : Except Err Result → State → State
  | .error e, u => u.abort e
  | .ok r, u => commit r u

section
variable {v : State} {st : Strategy} {kx : Bool} (body : State → Except Err Result)

theorem runData_of_prefix_ok {u : State} (h : keyPrefix st kx (lazyTables st v) = .ok u) :
    runData st kx body v = conclude (body u) u := by
  simp only [runData, h]
  cases body u <;> rfl

theorem runData_of_prefix_error {e : Err} (h : keyPrefix st kx (lazyTables st v) = .error e) :
    runData st kx body v = (lazyTables st v).abort e := by
  simp only [runData, h]

theorem runData_key (hs : v.tablesSound) (hk : v.keyLen = 16) :
    ∃ u, AfterPrefix st v (keySchedule transTk v.keyBlock) u ∧ runData st true body v = conclude (body u) u := by
  have hload := loadKey_ok st (s := lazyTables st v) (by simpa using hk)
  rw [lazyTables_keyT hs, lazyTables_keyBlock] at hload
  refine ⟨_, ?_, runData_of_prefix_ok body hload⟩
  constructor <;> simp [State.tagInBlock, loadRk_roundT, lazyTables_roundT hs]

theorem runData_keyLength (hk : v.keyLen ≠ 16) :
    runData st true body v = (lazyTables st v).abort .invalidKeyLength :=
  runData_of_prefix_error body (loadKey_error st (by simpa using hk))

theorem runData_subkeys (hs : v.tablesSound) (hv : v.rkValid = true) :
    ∃ u, AfterPrefix st v v.rk u ∧ runData st false body v = conclude (body u) u := by
  refine ⟨lazyTables st v, ?_, runData_of_prefix_ok body (by simp [keyPrefix, hv])⟩
  constructor <;> simp [State.tagInBlock, hv, lazyTables_roundT hs]

theorem runData_keyNotLoaded (hv : v.rkValid = false) :
    runData st false body v = (lazyTables st v).abort .keyNotLoaded :=
  runData_of_prefix_error body (by simp [keyPrefix, hv])

end

/-! ## What a host can read after a command -/

/-- After the command of a call that answers `x`: on a success `OUTBUF[0..OUT_LEN)` holds the bytes of the answer and
the registers `rs` its words; on a failure `ERR` is its error, and there is no output. -/
def Yields (t : State) (rs : List Reg) : Except Err CallOutput → Prop
  | .error e => t.err = e ∧ e ≠ .noError ∧ t.outLen = 0
  | .ok o => t.err = .noError ∧ t.outLen.toNat = o.bytes.length ∧ o.bytes.length ≤ t.cfg.outCap ∧
      t.readBytes .outBuf o.bytes.length = o.bytes ∧ rs.map t.regValue = o.words

theorem Yields.outLen_le {t : State} {rs : List Reg} {x : Except Err CallOutput} (h : Yields t rs x) :
    t.outLen.toNat ≤ t.cfg.outCap := by
  cases x with
  | error e =>
    obtain ⟨-, -, h0⟩ := h
    simp [h0]
  | ok o =>
    obtain ⟨-, hlen, hcap, -⟩ := h
    rwa [hlen]

theorem yields_abort {e : Err} (he : e ≠ .noError) (u : State) (rs : List Reg) : Yields (u.abort e) rs (.error e) :=
  ⟨rfl, he, rfl⟩

theorem commit_readBytes_out (r : Result) (u : State) : (commit r u).readBytes .outBuf r.out.length = r.out := by
  apply List.ext_getElem (by simp)
  intro i _ hi
  simp [commit_byteAt_out, hi]

/-- The bounds of R7 hold an output up to 16 bytes longer than the longest input in `OUTBUF` and in `OUT_LEN`. -/
theorem output_fits_of_wellFormed {c : Config} (hc : c.wellFormed = true) {n : Nat} (hn : n ≤ c.inCap + 16) :
    n ≤ c.outCap ∧ n < 2 ^ 32 := by
  simp only [Config.wellFormed, Bool.and_eq_true, decide_eq_true_eq] at hc
  omega

theorem yields_commit {u : State} {r : Result} {rs : List Reg} {words : List Word} (hc : u.cfg.wellFormed = true)
    (hlen : r.out.length ≤ u.cfg.inCap + 16) (hw : rs.map (commit r u).regValue = words) :
    Yields (commit r u) rs (.ok ⟨r.out, words⟩) := by
  obtain ⟨hcap, h32⟩ := output_fits_of_wellFormed hc hlen
  refine ⟨commit_err r u, ?_, by simpa using hcap, commit_readBytes_out r u, hw⟩
  rw [commit_outLen, BitVec.toNat_ofNat, Nat.mod_eq_of_lt h32]

/-- The bytes of an answer, as the result of a command without a tag. -/
def bytesResult (x : Except Err CallOutput) : Except Err Result :=
  x.map fun o => ⟨o.bytes, none⟩

/-- An answer of bytes alone, that a command can give. -/
def PlainAnswer (c : Config) : Except Err CallOutput → Prop
  | .error e => e ≠ .noError
  | .ok o => o.words = [] ∧ o.bytes.length ≤ c.inCap + 16

theorem yields_bytesResult {u : State} {x : Except Err CallOutput} (hc : u.cfg.wellFormed = true)
    (hx : PlainAnswer u.cfg x) : Yields (conclude (bytesResult x) u) [] x := by
  cases x with
  | error e => exact yields_abort hx u []
  | ok o =>
    obtain ⟨bytes, words⟩ := o
    obtain ⟨hw, hlen⟩ := hx
    exact yields_commit hc hlen hw.symm

section
variable {v : State} {st : Strategy} {body : State → Except Err Result} {rs : List Reg}
  {f : Vector Word 32 → Except Err CallOutput}

/-- A call that is given a key fails with a key of the wrong length, and else its body decides. -/
theorem yields_withKey {key : List Byte} (hs : v.tablesSound) (hkey : v.operand .keyBuf = key)
    (hbody : ∀ u rk, AfterPrefix st v rk u → Yields (conclude (body u) u) rs (f rk)) :
    Yields (runData st true body v) rs (withKey key f) := by
  have hlen : v.keyLen.toNat = key.length := by
    rw [← hkey, State.operand_length]
    rfl
  by_cases hk : key.length = 16
  · have hk16 : v.keyLen = 16 := BitVec.eq_of_toNat_eq (by rw [hlen, hk]; rfl)
    have hblock : v.keyBlock = be128 key := by
      rw [State.keyBlock, ← hkey, State.operand]
      simp [State.lengthReg, hk16]
    obtain ⟨u, hu, hrun⟩ := runData_key (st := st) body hs hk16
    rw [withKey, if_pos hk, hrun, ← hblock]
    exact hbody u _ hu
  · have hk16 : v.keyLen ≠ 16 := fun h => hk (by rw [← hlen, h]; rfl)
    rw [withKey, if_neg hk, runData_keyLength body hk16]
    exact yields_abort (by decide) _ rs

/-- A call that is given subkeys fails if none are loaded, and else its body decides. -/
theorem yields_withSubkeys (hs : v.tablesSound)
    (hbody : ∀ u rk, AfterPrefix st v rk u → Yields (conclude (body u) u) rs (f rk)) :
    Yields (runData st false body v) rs (withSubkeys v f) := by
  cases hv : v.rkValid with
  | true =>
    obtain ⟨u, hu, hrun⟩ := runData_subkeys (st := st) body hs hv
    rw [withSubkeys, if_pos hv, hrun]
    exact hbody u _ hu
  | false =>
    rw [withSubkeys, if_neg (by simp [hv]), runData_keyNotLoaded body hv]
    exact yields_abort (by decide) _ rs

end

/-! ## What the commands compute (R114, R115, R142, R150 to R154, R170 to R180) -/

section
variable {st : Strategy} {v u : State} {rk : Vector Word 32} {m iv aad : List Byte}

theorem AfterPrefix.inLen (h : AfterPrefix st v rk u) (hm : v.operand .inBuf = m) : u.inLen.toNat = m.length := by
  rw [← hm, ← h.operand, State.operand_length]
  rfl

/-- An operand that has been loaded fits its buffer. -/
theorem AfterPrefix.fits (h : AfterPrefix st v rk u) {b : Buffer} (hm : v.operand b = m)
    (hb : m.length ≤ capacity v.cfg b) : u.fits b = true := by
  rwa [fits_iff, ← State.operand_length, h.operand, hm, h.cfg]

theorem AfterPrefix.outFits (h : AfterPrefix st v rk u) (hc : v.cfg.wellFormed = true) {n : Nat}
    (hn : n ≤ v.cfg.inCap + 16) : u.outFits n = true := by
  rw [outFits_iff, h.cfg]
  exact (output_fits_of_wellFormed hc hn).1

/-- The block commands, on a list of blocks or on the one block that DIRECT and TABLE take. -/
theorem AfterPrefix.blockBody (h : AfterPrefix st v rk u) (hc : v.cfg.wellFormed = true) (dir : Direction)
    {bs : List Block} (hm : v.operand .inBuf = bytesOf bs) (hb : (bytesOf bs).length ≤ v.cfg.inCap)
    (hst : st = .batch ∨ bs.length = 1) :
    blockBody st dir u = .ok ⟨bytesOf (bs.map (crypt transT rk dir)), none⟩ := by
  have hlen : u.inLen.toNat = 16 * bs.length := by rw [h.inLen hm, bytesOf_length]
  have hok : blockLengthOk st u = true := by
    have hout : u.outFits u.inLen.toNat = true := h.outFits hc (by rw [h.inLen hm]; omega)
    have hone : st ≠ .batch → u.inLen = 16 := fun hne =>
      BitVec.eq_of_toNat_eq (by rw [hlen, hst.resolve_left hne]; rfl)
    have hfits : u.fits .inBuf = true := h.fits hm hb
    cases st with
    | direct => simpa [blockLengthOk, hfits, hone nofun] using hout
    | table => simpa [blockLengthOk, hfits, hone nofun] using hout
    | batch => simpa [blockLengthOk, hfits, hlen] using hout
  have hn : u.inLen.toNat / 16 = bs.length := by omega
  rw [Machine.blockBody, if_pos hok, cryptBlocks_eq_map h.roundT, h.rk, h.operand, hm, hn, blocksOf_bytesOf]

@[simp] theorem ecbBytes_length (rk : Vector Word 32) (dir : Direction) (m : List Byte) :
    (ecbBytes rk dir m).length = 16 * (m.length / 16) := by
  simp [ecbBytes]

theorem pad_length (m : List Byte) : (pad m).length = m.length + (16 - m.length % 16) := by
  simp [pad]

/-- The blocks of an aligned string under a strategy are those of R150. -/
theorem AfterPrefix.bytesOf_cryptBlocks (h : AfterPrefix st v rk u) (dir : Direction) (m : List Byte) :
    bytesOf (u.cryptBlocks st dir (blocksOf (m.length / 16) m)) = ecbBytes rk dir m := by
  rw [cryptBlocks_eq_map h.roundT, h.rk, ecbBytes]

/-- `ENC` computes `encrypt`. -/
theorem AfterPrefix.encBody (h : AfterPrefix st v rk u) (hc : v.cfg.wellFormed = true) (p : Padding)
    (hm : v.operand .inBuf = m) (hb : m.length ≤ v.cfg.inCap) :
    encBody st p u = bytesResult (messageResult .enc p rk m) := by
  rw [Machine.encBody, if_pos (h.fits hm hb), h.operand, hm]
  cases p with
  | none =>
    by_cases ha : m.length % 16 = 0
    · simp [encMessage, messageResult, bytesResult, ha, h.outFits hc (n := m.length) (by omega),
        h.bytesOf_cryptBlocks, Except.map]
    · simp [encMessage, messageResult, bytesResult, ha, Except.map]
  | pkcs7 =>
    have hout : u.outFits (pad m).length = true := h.outFits hc (by rw [pad_length]; omega)
    simp [encMessage, messageResult, bytesResult, hout, h.bytesOf_cryptBlocks, Except.map]

/-- `DEC` computes `decrypt`. -/
theorem AfterPrefix.decBody (h : AfterPrefix st v rk u) (hc : v.cfg.wellFormed = true) (p : Padding)
    (hm : v.operand .inBuf = m) (hb : m.length ≤ v.cfg.inCap) :
    decBody st p u = bytesResult (messageResult .dec p rk m) := by
  have hlen := h.inLen hm
  have hok : (u.fits .inBuf && u.outFits u.inLen.toNat) = true := by
    rw [h.fits hm hb, h.outFits hc (by omega), Bool.and_self]
  rw [Machine.decBody, if_pos hok, h.operand, hm, hlen, h.bytesOf_cryptBlocks]
  by_cases ha : m.length % 16 = 0
  · cases p with
    | none => simp [decMessage, messageResult, bytesResult, ha, Except.map]
    | pkcs7 => cases hu : unpad (ecbBytes rk .dec m) <;>
        simp [decMessage, messageResult, bytesResult, ha, hu, Except.map]
  · cases p <;> simp [messageResult, bytesResult, ha, Except.map]

theorem unpad_ecbBytes_length {rk : Vector Word 32} {dir : Direction} {m v : List Byte}
    (h : unpad (ecbBytes rk dir m) = some v) : v.length ≤ m.length := by
  have hle := unpad_length_le h
  rw [ecbBytes_length] at hle
  omega

/-- What `encrypt` and `decrypt` answer is at most the padded message, or one of three errors. -/
theorem messageResult_plain {c : Config} (dir : Direction) (p : Padding) (rk : Vector Word 32)
    (hb : m.length ≤ c.inCap) : PlainAnswer c (messageResult dir p rk m) := by
  have hecb : ∀ d, (ecbBytes rk d m).length ≤ c.inCap + 16 := fun d => by
    rw [ecbBytes_length]
    omega
  cases dir <;> cases p
  case enc.pkcs7 =>
    refine ⟨rfl, ?_⟩
    rw [ecbBytes_length, pad_length]
    omega
  all_goals
    simp only [messageResult]
    split
  case enc.none.isTrue => exact ⟨rfl, hecb _⟩
  case dec.none.isTrue => exact ⟨rfl, hecb _⟩
  case dec.pkcs7.isTrue =>
    split
    next v hv => exact ⟨rfl, by have := unpad_ecbBytes_length hv; dsimp only; omega⟩
    next => exact nofun
  all_goals exact nofun

/-- The operands of a GCM command, within their capacities. -/
structure GcmOperands (v : State) (iv aad m : List Byte) : Prop where
  ivBuf : v.operand .ivBuf = iv
  aadBuf : v.operand .aadBuf = aad
  inBuf : v.operand .inBuf = m
  ivFits : iv.length ≤ v.cfg.ivCap
  aadFits : aad.length ≤ v.cfg.aadCap
  inFits : m.length ≤ v.cfg.inCap

theorem AfterPrefix.gcmLengthsOk (h : AfterPrefix st v rk u) (hc : v.cfg.wellFormed = true)
    (hv : GcmOperands v iv aad m) : gcmLengthsOk u = true := by
  have hlen : u.inLen.toNat ≤ v.cfg.inCap + 16 := by
    rw [h.inLen hv.inBuf]
    exact hv.inFits.trans (Nat.le_add_right _ _)
  have hout : u.outFits u.inLen.toNat = true := h.outFits hc hlen
  simp only [Machine.gcmLengthsOk, h.fits hv.ivBuf hv.ivFits, h.fits hv.aadBuf hv.aadFits, h.fits hv.inBuf hv.inFits,
    hout, Bool.and_self]

theorem AfterPrefix.gctr (h : AfterPrefix st v rk u) (hv : GcmOperands v iv aad m) (d : List Byte) :
    u.gctr st d = gcmStream rk iv d := by
  rw [gctr_eq_gcmStream h.roundT, h.rk, h.operand, hv.ivBuf]

theorem AfterPrefix.gcmTag (h : AfterPrefix st v rk u) (hv : GcmOperands v iv aad m) (ct : List Byte) :
    u.gcmTag st ct = gcmTagOf rk iv aad ct := by
  rw [gcmTag_eq_gcmTagOf h.roundT, h.rk, h.operand, h.operand, hv.ivBuf, hv.aadBuf]

/-- `GCMENC` computes `gcm_encrypt`. -/
theorem AfterPrefix.gcmencBody (h : AfterPrefix st v rk u) (hc : v.cfg.wellFormed = true)
    (hv : GcmOperands v iv aad m) :
    gcmencBody st u = .ok ⟨gcmStream rk iv m, some (gcmTagOf rk iv aad (gcmStream rk iv m))⟩ := by
  simp only [Machine.gcmencBody, h.gcmLengthsOk hc hv, if_true, h.operand, hv.inBuf, h.gctr hv, h.gcmTag hv]

/-- `GCMDEC` computes `gcm_decrypt` with the tag in `TAG_IN`. -/
theorem AfterPrefix.gcmdecBody (h : AfterPrefix st v rk u) (hc : v.cfg.wellFormed = true)
    (hv : GcmOperands v iv aad m) :
    gcmdecBody st u = bytesResult (if gcmTagOf rk iv aad m = v.tagInBlock then .ok ⟨gcmStream rk iv m, []⟩
      else .error .authenticationFailed) := by
  simp only [Machine.gcmdecBody, h.gcmLengthsOk hc hv, if_true, h.operand, hv.inBuf, h.gctr hv, h.gcmTag hv, h.tagIn]
  split <;> rfl

theorem gcmStream_length (rk : Vector Word 32) (iv d : List Byte) : (gcmStream rk iv d).length = d.length := by
  simp only [gcmStream, List.length_zipWith, bytesOf_length, List.length_map, counterBlocks_length]
  omega

end

/-! ## A call's operands and its command (R69, R70) -/

/-- The byte strings a call loads, each with its buffer. -/
def Call.operands : Call → List (Buffer × List Byte)
  | .deriveSubkeys _ key => [(.keyBuf, key)]
  | .block _ _ b => [(.inBuf, bytes128 b)]
  | .keyedBlock _ _ key b => [(.keyBuf, key), (.inBuf, bytes128 b)]
  | .batch _ bs => [(.inBuf, bytesOf bs)]
  | .message _ _ _ key m => [(.keyBuf, key), (.inBuf, m)]
  | .gcmEncrypt _ key nonce m aad => [(.keyBuf, key), (.ivBuf, nonce), (.aadBuf, aad), (.inBuf, m)]
  | .gcmDecrypt _ key nonce c _ aad => [(.keyBuf, key), (.ivBuf, nonce), (.aadBuf, aad), (.inBuf, c)]

/-- The tag a call supplies. -/
def Call.suppliedTag : Call → Option Block
  | .deriveSubkeys _ _ | .block _ _ _ | .keyedBlock _ _ _ _ | .batch _ _ | .message _ _ _ _ _
  | .gcmEncrypt _ _ _ _ _ => none
  | .gcmDecrypt _ _ _ _ tag _ => some tag

/-- The steps that load a supplied tag, if there is one. -/
def tagSteps : Option Block → List Input
  | none => []
  | some tag => loadTagSteps tag

theorem Call.loads_eq (c : Call) :
    c.loads = (c.operands.flatMap fun p => loadSteps p.1 p.2) ++ tagSteps c.suppliedTag := by
  cases c <;> simp [Call.loads, Call.operands, Call.suppliedTag, tagSteps]

theorem Call.operands_ne_outBuf (c : Call) : ∀ p ∈ c.operands, p.1 ≠ .outBuf := by
  cases c <;> simp [Call.operands]

theorem Call.operands_nodup (c : Call) : (c.operands.map (·.1)).Nodup := by
  cases c <;> simp [Call.operands]

/-- The four words of a tag are the tag (R42). -/
theorem tagOfWords_tagWords (t : Block) : tagOfWords (tagWords t) = t := by
  apply BitVec.eq_of_getLsbD_eq
  intro i hi
  simp only [tagOfWords, tagWords, Vector.getElem_mk, List.getElem_toArray, List.getElem_cons_zero,
    List.getElem_cons_succ, BitVec.getLsbD_append, BitVec.getLsbD_extractLsb']
  grind

theorem tagInBlock_of_tagIn {s : State} {tag : Block} (h : s.tagIn = tagWords tag) : s.tagInBlock = tag := by
  rw [State.tagInBlock, h, tagOfWords_tagWords]

theorem operand_congr {s t : State} {b : Buffer} (hl : t.lengthReg b = s.lengthReg b)
    (hb : ∀ a, t.byteAt b a = s.byteAt b a) : t.operand b = s.operand b := by
  rw [State.operand, State.operand, hl]
  exact State.readBytes_congr fun a _ => hb a

/-- A length register and the bytes below it are an operand. -/
theorem operand_of_load {u : State} {b : Buffer} {m : List Byte} (h32 : m.length < 2 ^ 32)
    (hl : u.lengthReg b = BitVec.ofNat 32 m.length) (hb : ∀ a < m.length, u.byteAt b a = m.getD a 0) :
    u.operand b = m := by
  have hlen : (u.lengthReg b).toNat = m.length := by rw [hl, BitVec.toNat_ofNat, Nat.mod_eq_of_lt h32]
  apply List.ext_getElem (by rw [State.operand_length, hlen])
  intro i _ hi
  simp only [State.operand, State.readBytes_getElem, hb i hi]
  simp [hi]

/-- The operands of a call are in place, and so is its tag. -/
structure OperandsIn (c : Call) (v : State) : Prop where
  operand : ∀ p ∈ c.operands, v.operand p.1 = p.2
  tag : ∀ tag, c.suppliedTag = some tag → v.tagInBlock = tag

/-- The steps that load the tag keep what has been loaded. -/
theorem run_tagSteps {s : State} (tag : Option Block) {rest : List Input} (hb : s.busy = false)
    (hi : s.inputs = tagSteps tag ++ rest) :
    ∃ t, core.run (tagSteps tag).length s = .next t ∧ t.inputs = rest ∧ Loaded s t ∧
      (∀ x, tag = some x → t.tagIn = tagWords x) ∧
      ∀ c, t.lengthReg c = s.lengthReg c ∧ ∀ a, t.byteAt c a = s.byteAt c a := by
  cases tag with
  | none => exact ⟨s, rfl, hi, ⟨rfl, rfl, rfl, rfl, rfl, rfl, rfl, rfl⟩, nofun, fun c => ⟨rfl, fun _ => rfl⟩⟩
  | some tag =>
    obtain ⟨t, hr, hin, hl, htag, ho⟩ := run_loadTag tag hb hi
    exact ⟨t, hr, hin, hl, fun x hx => by cases hx; exact htag, ho⟩

/-- The loads of a call put its operands in place. -/
theorem run_callLoads {c : Call} {s : State} {rest : List Input} (hb : s.busy = false)
    (hfit : ∀ p ∈ c.operands, Fits s.cfg p.1 p.2) (hi : s.inputs = c.loads ++ rest) :
    ∃ u, core.run c.loads.length s = .next u ∧ u.inputs = rest ∧ Loaded s u ∧ OperandsIn c u := by
  rw [c.loads_eq, List.append_assoc] at hi
  obtain ⟨t, hrun, hin, hl, -, hops, -⟩ :=
    run_loads c.operands hb c.operands_ne_outBuf c.operands_nodup (fun p hp => (hfit p hp).1) hi
  obtain ⟨u, hrun', hin', hl', htag, hsame⟩ := run_tagSteps c.suppliedTag (hl.busy.trans hb) hin
  refine ⟨u, ?_, hin', hl.trans hl', fun p hp => ?_, fun tag ht => ?_⟩
  · rw [c.loads_eq, List.length_append]
    exact run_trans hrun hrun'
  · obtain ⟨hlen, hbytes⟩ := hops p hp
    obtain ⟨hlen', hbytes'⟩ := hsame p.1
    exact operand_of_load (hfit p hp).2 (hlen'.trans hlen) fun a ha => (hbytes' a).trans (hbytes a ha)
  · exact tagInBlock_of_tagIn (htag tag ht)

/-- The state in which a call's command has been accepted: its operands are in place, and the subkeys and tables are
as before the call. -/
structure Issued (c : Call) (s v : State) : Prop extends OperandsIn c v where
  cfg : v.cfg = s.cfg
  rk : v.rk = s.rk
  rkValid : v.rkValid = s.rkValid
  tables : v.tblD = s.tblD ∧ v.tblK = s.tblK ∧ v.tblValid = s.tblValid

theorem Issued.tablesSound {c : Call} {s v : State} (h : Issued c s v) (hs : s.tablesSound) : v.tablesSound := by
  obtain ⟨hd, hk, hv⟩ := h.tables
  intro hvalid
  rw [hd, hk]
  exact hs (hv ▸ hvalid)

theorem Issued.withSubkeys {c : Call} {s v : State} (h : Issued c s v) : withSubkeys v = withSubkeys s := by
  funext f
  rw [Machine.withSubkeys, Machine.withSubkeys, h.rkValid, h.rk]

theorem exec_idle {i : Instr} {s t : State} (h : exec i s = .next t) : t.busy = false ∧ t.done = true := by
  obtain ⟨u, -, ⟨e, rfl⟩ | ⟨r, -, rfl⟩⟩ := exec_ends h
  · exact ⟨rfl, rfl⟩
  · exact ⟨commit_busy r u, commit_done r u⟩

/-- Accepting the command changes no operand, no subkey and no table. -/
theorem Issued.accept {c : Call} {s u : State} (hl : Loaded s u) (ho : OperandsIn c u) (w : Word) :
    Issued c s ((u.tick wait 1 []).accept w) where
  operand := fun p hp => by
    refine (operand_congr ?_ fun a => ?_).trans (ho.operand p hp)
    · cases p.1 <;> rfl
    · simp
  tag := fun tag ht => ho.tag tag ht
  cfg := hl.cfg
  rk := hl.rk
  rkValid := hl.rkValid
  tables := hl.tables

/-- A call issues its command on its operands, and what the command leaves the call's `wait` reports. -/
theorem exists_issued {c : Call} {s : State} (hb : s.busy = false) (hfit : ∀ p ∈ c.operands, Fits s.cfg p.1 p.2) :
    ∃ v, Issued c s v ∧ ∀ t, exec c.command v = .next t →
      drive c.request s = .next ((t.respond (.word t.status)).withInputs [], [.word t.status]) := by
  obtain ⟨u, hrun, hin, hl, ho⟩ := run_callLoads (c := c) (s := s.withInputs c.request)
    (rest := cmd c.command ++ wait) hb hfit (by simp [Call.request])
  have hl' : Loaded s u := ⟨hl.busy, hl.cfg, hl.responses, hl.rk, hl.rkValid, hl.tables⟩
  refine ⟨_, .accept hl' ho (encode c.command), fun t he => ?_⟩
  obtain ⟨-, -, -, -, -, -, -, hti, htr, -⟩ := commandsWriteNoInput _ _ _ he
  obtain ⟨htb, htd⟩ := exec_idle he
  exact drive_request hrun hin (hl'.busy.trans hb) hl'.responses (decode_encode _) he hti htb htd htr

/-! ## What a call reads back (R70) -/

/-- After its `wait` the call reads `n` bytes of `OUTBUF` and the registers `rs`. -/
def Collects (c : Call) (t : State) (n : Nat) (rs : List Reg) : Prop :=
  ∃ lens : List Reg, c.lengthSteps t.status = lens.flatMap rr ∧
    c.resultSteps t.status ((lens.map t.regValue).headD 0).toNat = rb .outBuf 0 n ++ rs.flatMap rr

theorem flatMap_rr_map {α : Type} (l : List α) (f : α → Reg) :
    (l.map f).flatMap rr = l.flatMap fun x => rr (f x) := by
  rw [List.flatMap_map]

/-- The call reads the registers `rs` and, of what its command yields, every byte. -/
def ReadsAll (c : Call) (s : State) (rs : List Reg) : Prop :=
  ∀ t, t.cfg = s.cfg → Yields t rs (c.expected s) →
    ∃ n, Collects c t n rs ∧ n ≤ t.cfg.outCap ∧ ∀ o, c.expected s = .ok o → n = o.bytes.length

theorem readsAll_fixed {c : Call} {s : State} {rs : List Reg} {n : Nat} (h : ∀ t, Collects c t n rs)
    (hcap : n ≤ s.cfg.outCap) (hn : ∀ o, c.expected s = .ok o → n = o.bytes.length) : ReadsAll c s rs :=
  fun t ht _ => ⟨n, h t, by rwa [ht], hn⟩

theorem readsAll_outLen {c : Call} {s : State} {rs : List Reg}
    (h : ∀ t, (t.err ≠ .noError → t.outLen = 0) → Collects c t t.outLen.toNat rs) : ReadsAll c s rs := by
  intro t _ hy
  refine ⟨_, h t ?_, hy.outLen_le, ?_⟩ <;> cases hx : c.expected s <;> rw [hx] at hy
  case refine_1.error => exact fun _ => hy.2.2
  case refine_1.ok => exact fun hne => absurd hy.1 hne
  case refine_2.error => exact nofun
  case refine_2.ok =>
    rintro o ⟨⟩
    exact hy.2.1

/-- What the command of a call yields is what the call returns, provided it reads all of it. -/
theorem callReturns_of_yields {c : Call} {s : State} {rs : List Reg} (hs : CallReady s)
    (hfit : ∀ p ∈ c.operands, Fits s.cfg p.1 p.2) (hread : ReadsAll c s rs)
    (hrun : ∀ v, Issued c s v → ∃ t, exec c.command v = .next t ∧ Yields t rs (c.expected s)) : CallReturns c s := by
  obtain ⟨-, -, hb, -⟩ := hs
  obtain ⟨v, hv, hdrive⟩ := exists_issued hb hfit
  obtain ⟨t, he, hy⟩ := hrun v hv
  obtain ⟨-, -, -, -, -, -, ⟨hcfg, -⟩, -⟩ := commandsWriteNoInput _ _ _ he
  obtain ⟨n, ⟨lens, hlens, hres⟩, hcap, hn⟩ := hread t (hcfg.trans hv.cfg) hy
  obtain ⟨w, hw, hwb, hwi⟩ := perform_of_request (hdrive t he) (exec_idle he).1 hlens hres hcap
  refine ⟨w, ?_, hwb, hwi⟩
  rw [hw]
  cases hx : c.expected s <;> rw [hx] at hy
  case error e =>
    obtain ⟨rfl, hne, -⟩ := hy
    rw [if_neg hne]
    rfl
  case ok o =>
    obtain ⟨hok, -, -, hbytes, hwords⟩ := hy
    rw [if_pos hok, hn o hx, hbytes, hwords]
    rfl

section
variable {c : Call} {s : State} {rs : List Reg} {st : Strategy} {body : State → Except Err Result}
  {f : Vector Word 32 → Except Err CallOutput}

/-- A call that is given a key (R105). -/
theorem callReturns_withKey {key : List Byte} (hs : CallReady s) (hx : c.expected s = withKey key f)
    (hfit : ∀ p ∈ c.operands, Fits s.cfg p.1 p.2) (hkey : (.keyBuf, key) ∈ c.operands) (hread : ReadsAll c s rs)
    (hexec : ∀ v, exec c.command v = .next (runData st true body v))
    (hbody : ∀ v u rk, Issued c s v → AfterPrefix st v rk u → Yields (conclude (body u) u) rs (f rk)) :
    CallReturns c s := by
  refine callReturns_of_yields hs hfit hread fun v hv => ⟨_, hexec v, ?_⟩
  obtain ⟨-, htab, -⟩ := hs
  rw [hx]
  exact yields_withKey (hv.tablesSound htab) (hv.operand _ hkey) fun u rk => hbody v u rk hv

/-- A call that is given subkeys (R207). -/
theorem callReturns_withSubkeys (hs : CallReady s) (hx : c.expected s = withSubkeys s f)
    (hfit : ∀ p ∈ c.operands, Fits s.cfg p.1 p.2) (hread : ReadsAll c s rs)
    (hexec : ∀ v, exec c.command v = .next (runData st false body v))
    (hbody : ∀ v u rk, Issued c s v → AfterPrefix st v rk u → Yields (conclude (body u) u) rs (f rk)) :
    CallReturns c s := by
  refine callReturns_of_yields hs hfit hread fun v hv => ⟨_, hexec v, ?_⟩
  obtain ⟨-, htab, -⟩ := hs
  rw [hx, ← hv.withSubkeys]
  exact yields_withSubkeys (hv.tablesSound htab) fun u rk => hbody v u rk hv

end

/-! ## The commands of the calls -/

theorem exec_deriveSubkeys (tables : Bool) (key : List Byte) (v : State) :
    exec (Call.deriveSubkeys tables key).command v =
      .next (runData (if tables then .table else .direct) true (fun _ => .ok ⟨[], none⟩) v) := by
  cases tables <;> exact exec_of_ne_tblgen (fun h => by cases h) v

theorem exec_blockCommand (dir : Direction) (st : Strategy) (kx : Bool) (v : State) :
    exec (blockCommand dir st kx) v = .next (runData st kx (blockBody st dir) v) := by
  cases dir <;> cases st <;> rfl

/-- The body of the message command of a direction. -/
def messageBody (dir : Direction) (st : Strategy) (p : Padding) : State → Except Err Result :=
  match dir with
  | .enc => encBody st p
  | .dec => decBody st p

theorem exec_messageCommand (dir : Direction) (st : Strategy) (p : Padding) (kx : Bool) (v : State) :
    exec (messageCommand dir st p kx) v = .next (runData st kx (messageBody dir st p) v) := by
  cases dir <;> cases st <;> rfl

theorem exec_gcmCommand_enc (st : Strategy) (kx : Bool) (v : State) :
    exec (gcmCommand .enc st kx) v = .next (runData st kx (gcmencBody st) v) := by
  cases st <;> rfl

theorem exec_gcmCommand_dec (st : Strategy) (kx : Bool) (v : State) :
    exec (gcmCommand .dec st kx) v = .next (runData st kx (gcmdecBody st) v) := by
  cases st <;> rfl

theorem AfterPrefix.messageBody {st : Strategy} {v u : State} {rk : Vector Word 32} {m : List Byte}
    (h : AfterPrefix st v rk u) (hc : v.cfg.wellFormed = true) (dir : Direction) (p : Padding)
    (hm : v.operand .inBuf = m) (hb : m.length ≤ v.cfg.inCap) :
    messageBody dir st p u = bytesResult (messageResult dir p rk m) := by
  cases dir with
  | enc => exact h.encBody hc p hm hb
  | dec => exact h.decBody hc p hm hb

/-! ## What the result steps of each call read (R70) -/

/-- The calls on blocks read a fixed number of bytes. -/
theorem collects_outBuf {c : Call} {n : Nat} (hl : ∀ status, c.lengthSteps status = [])
    (hr : ∀ status k, c.resultSteps status k = rb .outBuf 0 n) (t : State) : Collects c t n [] :=
  ⟨[], hl _, by simp [hr]⟩

theorem collects_deriveSubkeys (tables : Bool) (key : List Byte) (t : State) :
    Collects (.deriveSubkeys tables key) t 0 ((List.finRange 32).map .rk) :=
  ⟨[], rfl, by simp [Call.resultSteps, flatMap_rr_map, rb]⟩

theorem collects_message (dir : Direction) (st : Strategy) (p : Padding) (key m : List Byte) (t : State) :
    Collects (.message dir st p key m) t t.outLen.toNat [] :=
  ⟨[.outLen], by simp [Call.lengthSteps], by simp [Call.resultSteps, State.regValue]⟩

theorem collects_gcmEncrypt (st : Strategy) (key nonce m aad : List Byte) (t : State) :
    Collects (.gcmEncrypt st key nonce m aad) t t.outLen.toNat ((List.finRange 4).map .tagOut) :=
  ⟨[.outLen], by simp [Call.lengthSteps], by simp [Call.resultSteps, State.regValue, flatMap_rr_map]⟩

/-- A failed `gcm_decrypt` reads no output, and there is none (R181). -/
theorem collects_gcmDecrypt (st : Strategy) (key nonce c : List Byte) (tag : Block) (aad : List Byte) {t : State}
    (h : t.err ≠ .noError → t.outLen = 0) : Collects (.gcmDecrypt st key nonce c tag aad) t t.outLen.toNat [] := by
  by_cases he : t.err = .noError
  · have h0 : statusErr t.status = 0 := (statusErr_status t).trans (Err.code_eq_zero.2 he)
    exact ⟨[.outLen], by simp [Call.lengthSteps, h0], by simp [Call.resultSteps, State.regValue, h0]⟩
  · have h0 : statusErr t.status ≠ 0 := fun hc => he (Err.code_eq_zero.1 ((statusErr_status t).symm.trans hc))
    exact ⟨[], by simp only [Call.lengthSteps, if_neg h0, List.flatMap_nil],
      by simp only [Call.resultSteps, if_neg h0, h he]; rfl⟩

/-! ## What each command yields -/

/-- The subkeys a `KEYEXP` leaves are what its call reads. -/
theorem map_regValue_rk {t : State} (h : t.rkValid = true) :
    ((List.finRange 32).map Reg.rk).map t.regValue = t.rk.toList := by
  apply List.ext_getElem (by simp)
  intro i _ _
  simp [State.regValue, h, Vector.get_eq_getElem]

/-- The tag a `GCMENC` has written is what its call reads. -/
theorem map_regValue_tagOut {t : State} (h : t.tagOutWritten = true) :
    ((List.finRange 4).map Reg.tagOut).map t.regValue = t.tagOut.toList := by
  apply List.ext_getElem (by simp)
  intro i _ _
  simp [State.regValue, h, Vector.get_eq_getElem]

section
variable {c : Call} {s v u : State} {st : Strategy} {rk : Vector Word 32}

theorem Issued.wellFormed (hv : Issued c s v) (hs : CallReady s) : v.cfg.wellFormed = true := by
  obtain ⟨hc, -⟩ := hs
  rwa [hv.cfg]

theorem Issued.yields_block (hv : Issued c s v) (hs : CallReady s) (hu : AfterPrefix st v rk u) (dir : Direction)
    {bs : List Block} (hop : (.inBuf, bytesOf bs) ∈ c.operands) (hfit : Fits s.cfg .inBuf (bytesOf bs))
    (hst : st = .batch ∨ bs.length = 1) :
    Yields (conclude (blockBody st dir u) u) [] (.ok ⟨bytesOf (bs.map (crypt transT rk dir)), []⟩) := by
  have hc := hv.wellFormed hs
  have hb : (bytesOf bs).length ≤ v.cfg.inCap := by
    rw [hv.cfg]
    exact hfit.1
  rw [hu.blockBody hc dir (hv.operand _ hop) hb hst]
  refine yields_bytesResult (x := .ok ⟨bytesOf (bs.map (crypt transT rk dir)), []⟩) (by rwa [hu.cfg]) ⟨rfl, ?_⟩
  rw [bytesOf_length] at hb
  rw [hu.cfg, bytesOf_length, List.length_map]
  omega

theorem Issued.yields_message (hv : Issued c s v) (hs : CallReady s) (hu : AfterPrefix st v rk u) (dir : Direction)
    (p : Padding) {m : List Byte} (hop : (.inBuf, m) ∈ c.operands) (hfit : Fits s.cfg .inBuf m) :
    Yields (conclude (messageBody dir st p u) u) [] (messageResult dir p rk m) := by
  have hc := hv.wellFormed hs
  have hb : m.length ≤ v.cfg.inCap := by
    rw [hv.cfg]
    exact hfit.1
  rw [hu.messageBody hc dir p (hv.operand _ hop) hb]
  exact yields_bytesResult (by rwa [hu.cfg]) (messageResult_plain dir p rk (by rwa [hu.cfg]))

/-- The operands of a GCM call are those of its command. -/
theorem Issued.gcmOperands (hv : Issued c s v) (hfit : ∀ p ∈ c.operands, Fits s.cfg p.1 p.2) {iv aad m : List Byte}
    (hiv : (.ivBuf, iv) ∈ c.operands) (haad : (.aadBuf, aad) ∈ c.operands) (hm : (.inBuf, m) ∈ c.operands) :
    GcmOperands v iv aad m where
  ivBuf := hv.operand _ hiv
  aadBuf := hv.operand _ haad
  inBuf := hv.operand _ hm
  ivFits := hv.cfg ▸ (hfit _ hiv).1
  aadFits := hv.cfg ▸ (hfit _ haad).1
  inFits := hv.cfg ▸ (hfit _ hm).1

end

/-! ## The calls -/

/-- Capacities for one block (R7). -/
theorem block_fits_of_wellFormed {c : Config} (hc : c.wellFormed = true) :
    16 ≤ c.inCap ∧ c.inCap + 16 ≤ c.outCap := by
  simp only [Config.wellFormed, Bool.and_eq_true, decide_eq_true_eq] at hc
  omega

section
variable {s : State} (hs : CallReady s)
include hs

theorem fits_block (b : Block) : Fits s.cfg .inBuf (bytes128 b) := by
  obtain ⟨hin, -⟩ := block_fits_of_wellFormed hs.1
  rw [Fits, bytes128_length]
  exact ⟨hin, by decide⟩

theorem callReturns_deriveSubkeys (tables : Bool) {key : List Byte} (hkey : Fits s.cfg .keyBuf key) :
    CallReturns (.deriveSubkeys tables key) s := by
  refine callReturns_withKey (key := key) hs (by rw [Call.expected]) (by simpa [Call.operands])
    (by simp [Call.operands]) (readsAll_fixed (collects_deriveSubkeys tables key) (Nat.zero_le _) fun o ho => ?_)
    (exec_deriveSubkeys tables key) fun v u rk hv hu => ?_
  · simp only [Call.expected, withKey] at ho
    split at ho <;> cases ho
    rfl
  · have hc := hv.wellFormed hs
    refine yields_commit (r := ⟨[], none⟩) (by rwa [hu.cfg]) (Nat.zero_le _) ?_
    rw [map_regValue_rk (by simpa using hu.rkValid), commit_rk, hu.rk]

theorem callReturns_block (dir : Direction) (st : Strategy) (b : Block) : CallReturns (.block dir st b) s := by
  have hfit := fits_block hs b
  obtain ⟨hin, hout⟩ := block_fits_of_wellFormed hs.1
  refine callReturns_withSubkeys hs (by rw [Call.expected]) (by simpa [Call.operands])
    (readsAll_fixed (collects_outBuf (n := 16) (fun _ => rfl) fun _ _ => rfl) (by omega) fun o ho => ?_)
    (exec_blockCommand dir st false) fun v u rk hv hu => ?_
  · simp only [Call.expected, withSubkeys] at ho
    split at ho <;> cases ho
    simp
  · simpa using hv.yields_block hs hu dir (bs := [b]) (by simp [Call.operands]) (by simpa using hfit) (.inr rfl)

theorem callReturns_keyedBlock (dir : Direction) (st : Strategy) {key : List Byte} (b : Block)
    (hkey : Fits s.cfg .keyBuf key) : CallReturns (.keyedBlock dir st key b) s := by
  have hfit := fits_block hs b
  obtain ⟨hin, hout⟩ := block_fits_of_wellFormed hs.1
  refine callReturns_withKey (key := key) hs (by rw [Call.expected]) (by simp [Call.operands, hkey, hfit])
    (by simp [Call.operands])
    (readsAll_fixed (collects_outBuf (n := 16) (fun _ => rfl) fun _ _ => rfl) (by omega) fun o ho => ?_)
    (exec_blockCommand dir st true) fun v u rk hv hu => ?_
  · simp only [Call.expected, withKey] at ho
    split at ho <;> cases ho
    simp
  · simpa using hv.yields_block hs hu dir (bs := [b]) (by simp [Call.operands]) (by simpa using hfit) (.inr rfl)

theorem callReturns_batch (dir : Direction) {bs : List Block} (hfit : Fits s.cfg .inBuf (bytesOf bs)) :
    CallReturns (.batch dir bs) s := by
  obtain ⟨hin, hout⟩ := block_fits_of_wellFormed hs.1
  have hlen : 16 * bs.length ≤ s.cfg.inCap := by
    rw [← bytesOf_length]
    exact hfit.1
  refine callReturns_withSubkeys hs (by rw [Call.expected]) (by simpa [Call.operands] using hfit)
    (readsAll_fixed (collects_outBuf (n := 16 * bs.length) (fun _ => rfl) fun _ _ => rfl) (by omega) fun o ho => ?_)
    (exec_blockCommand dir .batch false) fun v u rk hv hu => ?_
  · simp only [Call.expected, withSubkeys] at ho
    split at ho <;> cases ho
    simp
  · exact hv.yields_block hs hu dir (by simp [Call.operands]) hfit (.inl rfl)

theorem callReturns_message (dir : Direction) (st : Strategy) (p : Padding) {key m : List Byte}
    (hkey : Fits s.cfg .keyBuf key) (hm : Fits s.cfg .inBuf m) : CallReturns (.message dir st p key m) s :=
  callReturns_withKey (key := key) hs (by rw [Call.expected]) (by simp [Call.operands, hkey, hm])
    (by simp [Call.operands]) (readsAll_outLen fun t _ => collects_message dir st p key m t)
    (exec_messageCommand dir st p true) fun _ _ _ hv hu => hv.yields_message hs hu dir p (by simp [Call.operands]) hm

theorem callReturns_gcmEncrypt (st : Strategy) {key nonce m aad : List Byte} (hkey : Fits s.cfg .keyBuf key)
    (hn : Fits s.cfg .ivBuf nonce) (haad : Fits s.cfg .aadBuf aad) (hm : Fits s.cfg .inBuf m) :
    CallReturns (.gcmEncrypt st key nonce m aad) s := by
  have hfit : ∀ p ∈ (Call.gcmEncrypt st key nonce m aad).operands, Fits s.cfg p.1 p.2 := by
    simp [Call.operands, hkey, hn, haad, hm]
  refine callReturns_withKey (key := key) hs (by rw [Call.expected]) hfit (by simp [Call.operands])
    (readsAll_outLen fun t _ => collects_gcmEncrypt st key nonce m aad t) (exec_gcmCommand_enc st true)
    fun v u rk hv hu => ?_
  have hc := hv.wellFormed hs
  have hops : GcmOperands v nonce aad m := hv.gcmOperands hfit (by simp [Call.operands]) (by simp [Call.operands])
    (by simp [Call.operands])
  rw [hu.gcmencBody hc hops]
  refine yields_commit (by rwa [hu.cfg]) ?_ ?_
  · rw [gcmStream_length, hu.cfg]
    exact hops.inFits.trans (Nat.le_add_right _ _)
  · rw [map_regValue_tagOut rfl]
    rfl

theorem callReturns_gcmDecrypt (st : Strategy) {key nonce c aad : List Byte} (tag : Block)
    (hkey : Fits s.cfg .keyBuf key) (hn : Fits s.cfg .ivBuf nonce) (haad : Fits s.cfg .aadBuf aad)
    (hm : Fits s.cfg .inBuf c) : CallReturns (.gcmDecrypt st key nonce c tag aad) s := by
  have hfit : ∀ p ∈ (Call.gcmDecrypt st key nonce c tag aad).operands, Fits s.cfg p.1 p.2 := by
    simp [Call.operands, hkey, hn, haad, hm]
  refine callReturns_withKey (key := key) hs (by rw [Call.expected]) hfit (by simp [Call.operands])
    (readsAll_outLen fun t => collects_gcmDecrypt st key nonce c tag aad) (exec_gcmCommand_dec st true)
    fun v u rk hv hu => ?_
  have hc := hv.wellFormed hs
  have hops : GcmOperands v nonce aad c := hv.gcmOperands hfit (by simp [Call.operands]) (by simp [Call.operands])
    (by simp [Call.operands])
  rw [hu.gcmdecBody hc hops, hv.tag tag rfl]
  refine yields_bytesResult (by rwa [hu.cfg]) ?_
  split
  · refine ⟨rfl, ?_⟩
    rw [gcmStream_length, hu.cfg]
    exact hops.inFits.trans (Nat.le_add_right _ _)
  · exact nofun

end

/-- Settles O59, call by call. -/
theorem blockCallsReturnWhatTheSourceDefines : Obligations.BlockCallsReturnWhatTheSourceDefines := by
  intro tables dir st key b bs s hs hkey hbs
  exact ⟨callReturns_deriveSubkeys hs tables hkey, callReturns_block hs dir st b,
    callReturns_keyedBlock hs dir st b hkey, callReturns_batch hs dir hbs⟩

/-- Settles O60, call by call. -/
theorem messageCallsReturnWhatTheSourceDefines : Obligations.MessageCallsReturnWhatTheSourceDefines := by
  intro dir st p key nonce m aad tag s hs hkey hn haad hm
  exact ⟨callReturns_message hs dir st p hkey hm, callReturns_gcmEncrypt hs st hkey hn haad hm,
    callReturns_gcmDecrypt hs st tag hkey hn haad hm⟩

end Sys2Proof.Machine

/-!
# Proofs about the round function (`40_round_function.md`)

The laws of the two linear transforms stand with the table forms that rest on them (`linL_xor`, `linL_rotl32`,
`linLk_xor`, `linLk_rotl32`). The S-box is a table of constants, so its injectivity is shown by the inverse table: one
lookup per byte, where comparing the 256 entries pairwise would cost 2 ^ 15 comparisons.
-/

namespace Sys2Proof.Machine

/-- The inverse of the table of R80, laid out as `sboxRows` is. -/
def invSboxRows : Vector (BitVec 128) 16 :=
  #v[0x716c7ab8160f1e4135ebd02ae4ac625a, 0xcdc8db1a0a8e0846f04b96c132a060cc,
    0xf76d69aa61681b760ca914100ed8a3b7, 0x9bd29a28955f79b286fef46b4a06fb3e,
    0x84cb212b19b37240ff1ce35b78f6ae4e, 0x22bf77ad29975d736549cebeca9263fa,
    0xa78d2f6455e8a51150e1ba51bdbcedaf, 0x5c54bb45d93c13e66ef827d66af2e7c7,
    0x3852a448ef4d1d6fd3e082579dc0b63d, 0x0124c3993a37e5e2261f1294205e7f74,
    0x7c8f678893d43f424f3318ab2e9891c2, 0xdf9e5331de870907dce947c4c6d71581,
    0xa8d10b177decee857e34a6fd04d58b2d, 0xda66837570b000fccfc956b1f5c5b439,
    0x9005a29f30dd4c7b36028059f32cf925, 0xf1ea8a44239ca189588c3b0d43b503b9]

/-- The inverse S-box, by the same indexing as `sbox`. -/
def invSbox (c : Byte) : Byte :=
  (invSboxRows.get (c.extractLsb' 4 4).toFin).extractLsb' (120 - 8 * (c.extractLsb' 0 4).toNat) 8

/-- The inverse S-box undoes the S-box, checked byte by byte. -/
theorem invSbox_sbox : ∀ b : Byte, invSbox (sbox b) = b := by decide +kernel

/-- Settles O22: the S-box has a left inverse. -/
theorem sboxIsAPermutation : Obligations.SboxIsAPermutation := by
  intro a b hab
  exact Function.LeftInverse.injective invSbox_sbox hab

/-- Settles O23, from the laws of each transform. -/
theorem transformsAreLinearAndCommuteWithRotation : Obligations.TransformsAreLinearAndCommuteWithRotation := by
  constructor
  · exact fun a b => ⟨linL_xor a b, linLk_xor a b⟩
  · exact fun a _ hn => ⟨linL_rotl32 a hn, linLk_rotl32 a hn⟩

end Sys2Proof.Machine

/-!
# Proofs about the key schedule (`41_key_schedule.md`)

The sliding register of R107 runs over an unbounded sequence of registers (`registerAt`); the words of R102 are the
oldest words of these. A command whose `KeyPrefix` succeeds and whose body answers completes (`completes_of_keyPrefix`),
and `KEYEXP` is such a command. With a wrong key length a command that runs the key schedule only aborts
(`exec_of_wrong_keyLen`).
-/

namespace Sys2Proof.Machine

/-! ## The recurrence (R101, R102, R107) -/

/-- The sliding register before round `i`, without a bound on `i`: from `q`, with transform `t` and round words `rk`. -/
def registerAt (t : Word → Word) (rk : Nat → Word) (q : Quad) : Nat → Quad
  | 0 => q
  | i + 1 => shiftIn (registerAt t rk q i) (roundF t (registerAt t rk q i) (rk i))

/-- A word that enters the register is its oldest word three rounds later. -/
theorem roundF_registerAt (t : Word → Word) (rk : Nat → Word) (q : Quad) (i : Nat) :
    roundF t (registerAt t rk q i) (rk i) = (registerAt t rk q (i + 4)).w0 := rfl

/-- In terms of the oldest words alone, a round is the source's recurrence. -/
theorem registerAt_w0_add_four (t : Word → Word) (rk : Nat → Word) (q : Quad) (i : Nat) :
    (registerAt t rk q (i + 4)).w0 = (registerAt t rk q i).w0 ^^^
      t ((registerAt t rk q (i + 1)).w0 ^^^ (registerAt t rk q (i + 2)).w0 ^^^ (registerAt t rk q (i + 3)).w0 ^^^
        rk i) := rfl

theorem getElem_keyRounds (tk : Word → Word) (q : Quad) {n i j : Nat}
    (h : j < (keyRounds tk n i (registerAt tk ck q i)).length) :
    (keyRounds tk n i (registerAt tk ck q i))[j] = (registerAt tk ck q (i + j + 4)).w0 := by
  induction n generalizing i j with
  | zero => exact absurd h (Nat.not_lt_zero j)
  | succ n ih =>
    cases j with
    | zero => exact roundF_registerAt tk ck q i
    | succ j =>
      have hrest := ih (i := i + 1) (j := j) (Nat.lt_of_succ_lt_succ h)
      rwa [Nat.add_right_comm i 1 j] at hrest

theorem keySchedule_get (tk : Word → Word) (key : Block) (i : Fin 32) :
    (keySchedule tk key).get i = (registerAt tk ck (keyInit key) (i.val + 4)).w0 := by
  have hlen : i.val < (keyRounds tk 32 0 (registerAt tk ck (keyInit key) 0)).length := by
    rw [keyRounds_length]
    exact i.isLt
  have hword := getElem_keyRounds tk (keyInit key) hlen
  rwa [Nat.zero_add] at hword

/-- Settles O25: the sequence is that of the register's oldest words. -/
theorem keyScheduleIsTheUnboundedRecurrence : Obligations.KeyScheduleIsTheUnboundedRecurrence := by
  intro key
  refine ⟨fun i => (registerAt transTk ck (keyInit key) i).w0, rfl, rfl, rfl, rfl, fun i => ⟨?_, ?_⟩⟩
  · exact registerAt_w0_add_four transTk ck (keyInit key) i
  · exact keySchedule_get transTk key i

/-! ## A command that completes (R103, R105, R128) -/

/-- The lazy build is the only table build of a command other than `TBLGEN`. -/
theorem tablesAfter_lazyTables {i : Instr} (hop : i.op ≠ .tblgen) (s : State) :
    TablesAfter i s (lazyTables i.strategy s) := by
  have hb : buildsTables i s = (i.strategy == .table && !s.tblValid) := by simp [buildsTables, hop]
  rw [TablesAfter, hb]
  cases i.strategy with
  | direct => exact ⟨rfl, rfl, rfl⟩
  | batch => exact ⟨rfl, rfl, rfl⟩
  | table => cases hv : s.tblValid <;> simp [lazyTables, hv, SameTables]

/-- Steps 2 and 3 of R209, when they succeed, leave the tables and the subkeys that the command ends with. -/
theorem keyPrefix_persistent {i : Instr} {s u : State} (hop : i.op ≠ .tblgen)
    (hs : i.strategy = .table → s.tablesSound)
    (hu : keyPrefix i.strategy (i.kx || i.op == .keyexp) (lazyTables i.strategy s) = .ok u) :
    u.rk = subkeysAfter i s ∧ u.rkValid = (loadsKey i s || s.rkValid) ∧ TablesAfter i s u := by
  have hkeyT : (lazyTables i.strategy s).keyT i.strategy = transTk := by
    cases hst : i.strategy with
    | direct => rfl
    | batch => rfl
    | table => exact lazyTables_keyT (hs hst) .table
  rcases keyPrefix_ok hu with ⟨hrun, hk, rfl⟩ | ⟨hrun, hv, rfl⟩
  · have hload : loadsKey i s = true := by simpa [loadsKey, hrun] using hk
    rw [subkeysAfter, if_pos hload, hload, hkeyT, lazyTables_keyBlock]
    exact ⟨rfl, rfl, tablesAfter_lazyTables hop s⟩
  · have hload : loadsKey i s = false := by simp only [loadsKey, hrun, Bool.false_and]
    rw [subkeysAfter, hload]
    exact ⟨lazyTables_rk _ s, lazyTables_rkValid _ s, tablesAfter_lazyTables hop s⟩

/-- `KEYEXP` and the data commands prepare their state alike (R100, R105). -/
theorem Prepared.of_keyPrefix {i : Instr} {s u : State}
    (hu : keyPrefix i.strategy (i.kx || i.op == .keyexp) (lazyTables i.strategy s) = .ok u) : Prepared i s u := by
  rcases keyPrefix_ok hu with ⟨hrun, -, rfl⟩ | ⟨-, -, rfl⟩
  · rw [lazyTables_keyBlock]
    exact .key (by simpa using hrun)
  · exact .lazy

theorem Prepared.byteAt_out {i : Instr} {s u : State} (hp : Prepared i s u) (a : Nat) :
    u.byteAt .outBuf a = s.byteAt .outBuf a := by
  cases hp <;> simp

theorem tagOutAfter_commit (r : Result) {s u : State} (h : SameTagOut s u) : TagOutAfter s (commit r u) r.tag := by
  obtain ⟨out, _ | tag⟩ := r
  · exact h
  · exact ⟨rfl, rfl⟩

/-- A command completes when `KeyPrefix` succeeds and the body answers from the state that leaves. -/
theorem completes_of_keyPrefix {i : Instr} {s u : State} {r : Result} (hop : i.op ≠ .tblgen)
    (hs : i.strategy = .table → s.tablesSound)
    (hu : keyPrefix i.strategy (i.kx || i.op == .keyexp) (lazyTables i.strategy s) = .ok u)
    (hr : bodyOf i u = .ok r) : Completes i s r.out r.tag := by
  have hexec : exec i s = .next (commit r u) := by
    rw [exec_of_ne_tblgen hop, runData_of_prefix_ok _ hu, hr, conclude]
  have hp : Prepared i s u := .of_keyPrefix hu
  obtain ⟨hrk, hrkv, htab⟩ := keyPrefix_persistent hop hs hu
  have hended : Ended i s (commit r u) .noError r.out.length :=
    ⟨commit_busy r u, commit_done r u, commit_err r u, commit_outLen r u, commit_cmdw r u, commit_work r u,
      commit_delay r u, (commit_rk r u).trans hrk, (commit_rkValid r u).trans hrkv,
      by simpa [TablesAfter, SameTables] using htab, hp.sameInputs.trans (sameInputs_commit r u)⟩
  refine ⟨commit r u, hexec, hended, fun a => ?_, tagOutAfter_commit r hp.sameTagOut⟩
  rw [commit_byteAt_out, hp.byteAt_out]

/-- Settles O37: with `KEY_LEN = 16` the key schedule runs, and the body of `KEYEXP` has no output. -/
theorem keyexpLoadsTheKeySchedule : Obligations.KeyexpLoadsTheKeySchedule := by
  intro s hk
  have hlen : ∀ st, (lazyTables st s).keyLen = 16 := fun st => by rwa [lazyTables_keyLen]
  constructor
  · exact completes_of_keyPrefix (i := .keyexpD) nofun nofun (loadKey_ok .direct (hlen .direct)) rfl
  · intro hs
    exact completes_of_keyPrefix (i := .keyexpT) nofun (fun _ => hs) (loadKey_ok .table (hlen .table)) rfl

/-! ## A wrong key length (R104, R202) -/

/-- A command that runs the key schedule does nothing beyond the lazy table build when the key length is wrong. -/
theorem exec_of_wrong_keyLen {i : Instr} {s : State} (hrun : i.kx = true ∨ i.op = .keyexp) (hk : s.keyLen ≠ 16) :
    exec i s = .next ((lazyTables i.strategy s).abort .invalidKeyLength) := by
  rcases exec_cases i s with ⟨-, -, he⟩ | ⟨hop, hkx, -⟩ | ⟨hop, -, he⟩
  · obtain ⟨hk16, -⟩ | ⟨-, habort⟩ := keyexp_cases i.strategy s
    · exact absurd hk16 hk
    · rw [he, habort]
  · simp [hop, hkx] at hrun
  · rw [he, hrun.resolve_right hop, runData_keyLength _ hk]

/-- Settles O47: the abort and the table build leave the loaded key, the output and the inputs alone. -/
theorem wrongKeyLengthKeepsTheLoadedKey : Obligations.WrongKeyLengthKeepsTheLoadedKey := by
  intro i s hrun hk
  have he := exec_of_wrong_keyLen hrun hk
  refine ⟨_, he, rfl, lazyTables_rk _ s, lazyTables_rkValid _ s, rfl, fun a => lazyTables_byteAt _ s .outBuf a, ?_,
    commandsWriteNoInput i s _ he⟩
  exact ⟨lazyTables_tagOut _ s, lazyTables_tagOutWritten _ s⟩

end Sys2Proof.Machine

/-!
# Proofs about the block cipher (`42_cipher_core.md`)

The words of R110 are the oldest words of the registers of the unbounded sequence (`cryptRegister`). A round of the
register in reverse order undoes the round (`cryptRound_reverseWords`), so the same subkeys in reverse order undo a
block. What `KeyPrefix` leaves is the same under every strategy up to the tables (`keyPrefix_lazyTables`), and a body
that computes with `T` answers alike under every strategy (`opBody_eq_direct`).
-/

namespace Sys2Proof.Machine

/-! ## The recurrence (R110, R112) -/

/-- The rounds with the first `n` subkeys end in register `n` of the unbounded sequence. -/
theorem foldl_take_cryptRound (t : Word → Word) (ks : List Word) (q : Quad) {n : Nat} (hn : n ≤ ks.length) :
    (ks.take n).foldl (cryptRound t) q = registerAt t (fun i => ks.getD i 0) q n := by
  induction n with
  | zero => rfl
  | succ n ih =>
    rw [List.take_succ_eq_append_getElem hn, List.foldl_append, ih (Nat.le_of_succ_le hn), registerAt,
      List.getD_eq_getElem _ _ hn]
    rfl

theorem subkeys_length (rk : Vector Word 32) (dir : Direction) : (subkeys rk dir).length = 32 := by
  cases dir <;> simp [subkeys]

/-- Encryption uses subkey `i` in round `i`, decryption subkey `31 - i` (R112). -/
theorem subkeys_getD (rk : Vector Word 32) (dir : Direction) (i : Fin 32) :
    (subkeys rk dir).getD i.val 0 = if dir = .enc then rk.get i else rk.get i.rev := by
  have hi : i.val < (subkeys rk dir).length := by rw [subkeys_length]; exact i.isLt
  rw [List.getD_eq_getElem _ _ hi]
  cases dir with
  | enc => simp [subkeys, Vector.get_eq_getElem]
  | dec =>
    have hrev : 32 - 1 - i.val = i.rev.val := by rw [Fin.val_rev]; omega
    simp only [subkeys, List.getElem_reverse, Vector.length_toList, Vector.getElem_toList, hrev, Vector.get_eq_getElem]
    rfl

/-- The register of `Crypt` before round `i`, in the unbounded sequence. -/
def cryptRegister (rk : Vector Word 32) (dir : Direction) (b : Block) : Nat → Quad :=
  registerAt transT (fun i => (subkeys rk dir).getD i 0) (wordsOfBlock b)

theorem crypt_eq_outputBlock (rk : Vector Word 32) (dir : Direction) (b : Block) :
    crypt transT rk dir b = outputBlock (cryptRegister rk dir b 32) := by
  have hlast := foldl_take_cryptRound transT (subkeys rk dir) (wordsOfBlock b) (subkeys_length rk dir).ge
  rw [List.take_of_length_le (subkeys_length rk dir).le] at hlast
  rw [crypt, hlast, cryptRegister]

/-- Settles O26: the sequence is that of the register's oldest words, and the last register holds its last four. -/
theorem cryptIsTheRoundRecurrence : Obligations.CryptIsTheRoundRecurrence := by
  intro rk dir b
  refine ⟨fun i => (cryptRegister rk dir b i).w0, rfl, rfl, rfl, rfl, fun i => ?_, crypt_eq_outputBlock rk dir b⟩
  rw [← subkeys_getD]
  exact registerAt_w0_add_four transT _ (wordsOfBlock b) i

/-! ## Each direction inverts the other (R117) -/

/-- The register with its words in reverse order (R113). -/
def reverseWords (x : Quad) : Quad :=
  ⟨x.w3, x.w2, x.w1, x.w0⟩

theorem wordsOfBlock_blockOfWords (q : Quad) : wordsOfBlock (blockOfWords q) = q := by
  obtain ⟨a, b, c, d⟩ := q
  rw [wordsOfBlock, blockOfWords, Quad.mk.injEq]
  refine ⟨?_, ?_, ?_, ?_⟩
  · rw [BitVec.extractLsb'_append_eq_of_le (by decide), BitVec.extractLsb'_append_eq_of_le (by decide)]
    exact BitVec.extractLsb'_append_eq_left
  · rw [BitVec.extractLsb'_append_eq_of_le (by decide), BitVec.extractLsb'_append_eq_of_le (by decide)]
    exact BitVec.extractLsb'_append_eq_right
  · rw [BitVec.extractLsb'_append_eq_of_le (by decide)]
    exact BitVec.extractLsb'_append_eq_right
  · exact BitVec.extractLsb'_append_eq_right

theorem wordsOfBlock_outputBlock (x : Quad) : wordsOfBlock (outputBlock x) = reverseWords x :=
  wordsOfBlock_blockOfWords _

/-- The register words of a tag are the words of a block (R41, R42). -/
theorem outputBlock_reverseWords_wordsOfBlock (b : Block) : outputBlock (reverseWords (wordsOfBlock b)) = b :=
  tagOfWords_tagWords b

/-- On the reversed register, a round takes the round's new word out again: both XOR the same `T` into it. -/
theorem cryptRound_reverseWords (t : Word → Word) (x : Quad) (k : Word) :
    cryptRound t (reverseWords (cryptRound t x k)) k = reverseWords x := by
  have hcomm : x.w3 ^^^ x.w2 ^^^ x.w1 ^^^ k = x.w1 ^^^ x.w2 ^^^ x.w3 ^^^ k := by ac_rfl
  have hcancel : x.w0 ^^^ t (x.w1 ^^^ x.w2 ^^^ x.w3 ^^^ k) ^^^ t (x.w3 ^^^ x.w2 ^^^ x.w1 ^^^ k) = x.w0 := by
    rw [hcomm, BitVec.xor_assoc, BitVec.xor_self, BitVec.xor_zero]
  exact congrArg (Quad.mk x.w3 x.w2 x.w1) hcancel

/-- The same subkeys in reverse order undo the rounds, the last round first. -/
theorem foldl_reverse_cryptRound_reverseWords (t : Word → Word) (ks : List Word) (x : Quad) :
    ks.reverse.foldl (cryptRound t) (reverseWords (ks.foldl (cryptRound t) x)) = reverseWords x := by
  induction ks generalizing x with
  | nil => rfl
  | cons k ks ih =>
    rw [List.foldl_cons, List.reverse_cons, List.foldl_append, ih]
    exact cryptRound_reverseWords t x k

/-- A direction that takes the subkeys in the reverse order of another inverts it, whatever the transform. -/
theorem crypt_crypt_of_reverse (t : Word → Word) {rk : Vector Word 32} {dir dir' : Direction}
    (h : subkeys rk dir' = (subkeys rk dir).reverse) (b : Block) : crypt t rk dir' (crypt t rk dir b) = b := by
  rw [crypt, crypt, wordsOfBlock_outputBlock, h, foldl_reverse_cryptRound_reverseWords,
    outputBlock_reverseWords_wordsOfBlock]

/-- Settles O27: each direction takes the subkeys in the reverse order of the other. -/
theorem eachDirectionInvertsTheOther : Obligations.EachDirectionInvertsTheOther := by
  intro rk b
  constructor
  · exact crypt_crypt_of_reverse transT (dir := .enc) (dir' := .dec) rfl b
  · exact crypt_crypt_of_reverse transT (dir := .dec) (dir' := .enc) (List.reverse_reverse _).symm b

/-! ## `KeyPrefix` under every strategy (R105, R128) -/

/-- The subkeys that `KeyPrefix` puts in force, or its failure: neither depends on the strategy. -/
def keyInForce (kx : Bool) (s : State) : Except Err (Vector Word 32) :=
  if kx then if s.keyLen = 16 then .ok (keySchedule transTk s.keyBlock) else .error .invalidKeyLength
  else if s.rkValid then .ok s.rk else .error .keyNotLoaded

/-- A state whose subkeys are valid holds them already. -/
theorem loadRk_rk {s : State} (h : s.rkValid = true) : s.loadRk s.rk = s := by
  rw [State.loadRk, ← h]

section
variable {s : State} {st : Strategy} (hs : st = .table → s.tablesSound)
include hs

/-- After the lazy build a strategy's transforms are `T` and `Tk`; only TABLE takes them from the tables. -/
theorem lazyTables_transforms : (lazyTables st s).roundT st = transT ∧ (lazyTables st s).keyT st = transTk := by
  cases st with
  | direct => exact ⟨rfl, rfl⟩
  | table => exact ⟨lazyTables_roundT (hs rfl) .table, lazyTables_keyT (hs rfl) .table⟩
  | batch => exact ⟨rfl, rfl⟩

/-- After the lazy build `KeyPrefix` loads the subkeys in force, or fails, under every strategy alike. -/
theorem keyPrefix_lazyTables (kx : Bool) :
    keyPrefix st kx (lazyTables st s) = (keyInForce kx s).map (lazyTables st s).loadRk := by
  cases kx with
  | true =>
    rw [keyPrefix_true]
    by_cases hk : s.keyLen = 16
    · rw [loadKey_ok st (by simpa using hk), (lazyTables_transforms hs).2, lazyTables_keyBlock]
      simp [keyInForce, hk, Except.map]
    · rw [loadKey_error st (by simpa using hk)]
      simp only [keyInForce, if_true, if_neg hk]
      rfl
  | false =>
    rw [keyPrefix_false, lazyTables_rkValid]
    cases hv : s.rkValid with
    | true =>
      have hload : (lazyTables st s).loadRk s.rk = lazyTables st s := by
        simpa using loadRk_rk (s := lazyTables st s) (by simpa using hv)
      simp [keyInForce, hv, Except.map, hload]
    | false => simp [keyInForce, hv, Except.map]

/-- What the checks and the computation of a command find once `KeyPrefix` has loaded subkeys. -/
theorem afterPrefix_loadRk (rk : Vector Word 32) : AfterPrefix st s rk ((lazyTables st s).loadRk rk) := by
  constructor <;> simp [State.tagInBlock, loadRk_roundT, (lazyTables_transforms hs).1]

end

/-- With a key in force a data command goes on with the subkeys that it ends with. -/
theorem keyInForce_of_keyReady {i : Instr} {s : State} (hop : i.op ≠ .keyexp) (h : keyReady i.kx s) :
    keyInForce i.kx s = .ok (subkeysAfter i s) := by
  cases hkx : i.kx with
  | true =>
    have hk : s.keyLen = 16 := by simpa [keyReady, hkx] using h
    simp [keyInForce, subkeysAfter, loadsKey, hkx, hk]
  | false =>
    have hv : s.rkValid = true := by simpa [keyReady, hkx] using h
    simp [keyInForce, subkeysAfter, loadsKey, hkx, hv, hop]

/-- A data command with a key in force completes when its body answers with the subkeys it ends with. -/
theorem completes_of_keyReady {i : Instr} {s : State} {r : Result} (hdata : isData i = true)
    (hs : i.strategy = .table → s.tablesSound) (hkey : keyReady i.kx s)
    (hbody : ∀ u, AfterPrefix i.strategy s (subkeysAfter i s) u → bodyOf i u = .ok r) :
    Completes i s r.out r.tag := by
  obtain ⟨hexp, hgen⟩ : i.op ≠ .keyexp ∧ i.op ≠ .tblgen := by simpa [isData] using hdata
  have hprefix : keyPrefix i.strategy (i.kx || i.op == .keyexp) (lazyTables i.strategy s) =
      .ok ((lazyTables i.strategy s).loadRk (subkeysAfter i s)) := by
    rw [beq_false_of_ne hexp, Bool.or_false, keyPrefix_lazyTables hs, keyInForce_of_keyReady hexp hkey]
    rfl
  exact completes_of_keyPrefix hgen hs hprefix (hbody _ (afterPrefix_loadRk hs _))

/-! ## The block commands on one block (R114, R115) -/

/-- The operand of one block is the bytes of that block (R41). -/
theorem operand_inBuf_of_inLen {s : State} (h : s.inLen = 16) :
    s.operand .inBuf = bytesOf [be128 (s.readBytes .inBuf 16)] := by
  have hlen : (s.lengthReg .inBuf).toNat = 16 := congrArg BitVec.toNat h
  rw [State.operand, hlen, bytesOf_cons, bytesOf_nil, List.append_nil, bytes128_be128 _ (State.readBytes_length _ _ _)]

/-- After `KeyPrefix` the body of a block command answers one block of input with one block of output. -/
theorem AfterPrefix.blockBody_one {st : Strategy} {s u : State} {rk : Vector Word 32} (h : AfterPrefix st s rk u)
    (hc : s.cfg.wellFormed = true) (dir : Direction) (hlen : s.inLen = 16) :
    Machine.blockBody st dir u = .ok ⟨bytes128 (crypt transT rk dir (be128 (s.readBytes .inBuf 16))), none⟩ := by
  rw [h.blockBody hc dir (operand_inBuf_of_inLen hlen) (by simpa using (block_fits_of_wellFormed hc).1) (.inr rfl)]
  simp

/-- Settles O39: with a key in force both commands complete with what their body answers. -/
theorem scalarBlockCommandsOutputTheBlock : Obligations.ScalarBlockCommandsOutputTheBlock := by
  intro kx s hc hkey hlen
  constructor
  · exact completes_of_keyReady (i := .encblkD kx) rfl nofun hkey fun u hu => hu.blockBody_one hc .enc hlen
  · exact completes_of_keyReady (i := .decblkD kx) rfl nofun hkey fun u hu => hu.blockBody_one hc .dec hlen

/-! ## A body under every strategy (R118, R133, R146) -/

/-- The block commands under BATCH take one block as the others do, and more besides (R116, R142). -/
theorem blockLengthOk_eq_direct {st : Strategy} {u : State} (h : st = .batch → u.inLen = 16) :
    blockLengthOk st u = blockLengthOk .direct u := by
  cases st with
  | direct => rfl
  | table => rfl
  | batch => simp [blockLengthOk, h rfl]

/-- A body that computes with `T` answers what it answers under DIRECT. -/
theorem opBody_eq_direct {st : Strategy} {u : State} (h : u.roundT st = transT) (p : Padding) {op : Op}
    (hb : op = .encblk ∨ op = .decblk → st = .batch → u.inLen = 16) : opBody st p op u = opBody .direct p op u := by
  have hcrypt : u.cryptBlocks st = u.cryptBlocks .direct := by
    funext dir bs
    rw [cryptBlocks_eq_map h, cryptBlocks_eq_map rfl]
  have hgctr : u.gctr st = u.gctr .direct := by
    funext d
    rw [gctr_eq_gcmStream h, gctr_eq_gcmStream rfl]
  have htag : u.gcmTag st = u.gcmTag .direct := by
    funext ct
    rw [gcmTag_eq_gcmTagOf h, gcmTag_eq_gcmTagOf rfl]
  cases op with
  | keyexp => rfl
  | tblgen => rfl
  | encblk => simp only [opBody, blockBody, hcrypt, blockLengthOk_eq_direct (hb (.inl rfl))]
  | decblk => simp only [opBody, blockBody, hcrypt, blockLengthOk_eq_direct (hb (.inr rfl))]
  | enc => simp only [opBody, encBody, hcrypt]
  | dec => simp only [opBody, decBody, hcrypt]
  | gcmenc => simp only [opBody, gcmencBody, hgctr, htag]
  | gcmdec => simp only [opBody, gcmdecBody, hgctr, htag]

/-- A body under DIRECT does not read the tables, so the lazy build makes no difference to it. -/
theorem opBody_direct_lazyTables (st : Strategy) (s : State) (rk : Vector Word 32) (p : Padding) (op : Op) :
    opBody .direct p op ((lazyTables st s).loadRk rk) = opBody .direct p op (s.loadRk rk) := by
  rcases lazyTables_cases st s with h | ⟨-, -, h⟩ <;> rw [h]
  cases op <;> rfl

/-! ## The results of two strategies (R118, R133, R146) -/

theorem sameResults_lazyTables_loadRk (st : Strategy) (s : State) (rk : Vector Word 32) :
    SameResults ((lazyTables st s).loadRk rk) (s.loadRk rk) := by
  simp [SameResults, SameTagOut]

theorem sameResults_lazyTables_abort (st : Strategy) (s : State) (e : Err) :
    SameResults ((lazyTables st s).abort e) (s.abort e) := by
  simp [SameResults, SameTagOut]

/-- Equal answers of the body lead from states with the same results to states with the same results. -/
theorem SameResults.conclude {u u' : State} (h : SameResults u u') (x : Except Err Result) :
    SameResults (conclude x u) (conclude x u') := by
  obtain ⟨-, -, hout, htag, hrk, hrkv⟩ := h
  cases x with
  | error e => exact ⟨rfl, rfl, hout, htag, hrk, hrkv⟩
  | ok r =>
    change SameResults (commit r u) (commit r u')
    refine ⟨by simp, by simp, fun a => ?_, ?_, by simpa using hrk, by simpa using hrkv⟩
    · rw [commit_byteAt_out, commit_byteAt_out, hout]
    · obtain ⟨out, _ | tag⟩ := r
      · exact htag
      · exact ⟨rfl, rfl⟩

/-- `KeyPrefix` and a body give the results of their direct form. -/
theorem sameResults_runData {s : State} (hs : s.tablesSound) {st : Strategy} (kx : Bool) (p : Padding) {op : Op}
    (hb : op = .encblk ∨ op = .decblk → st = .batch → s.inLen = 16) :
    SameResults (runData st kx (opBody st p op) s) (runData .direct kx (opBody .direct p op) s) := by
  have hst := keyPrefix_lazyTables (st := st) (fun _ => hs) kx
  have hdirect := keyPrefix_lazyTables (s := s) (st := .direct) nofun kx
  cases hkey : keyInForce kx s with
  | error e =>
    rw [hkey] at hst hdirect
    rw [runData_of_prefix_error _ hst, runData_of_prefix_error _ hdirect]
    exact sameResults_lazyTables_abort st s e
  | ok rk =>
    rw [hkey] at hst hdirect
    have hround : ((lazyTables st s).loadRk rk).roundT st = transT := by rw [loadRk_roundT, lazyTables_roundT hs]
    rw [runData_of_prefix_ok _ hst, runData_of_prefix_ok _ hdirect, opBody_eq_direct hround p (by simpa using hb),
      opBody_direct_lazyTables, lazyTables_direct]
    exact (sameResults_lazyTables_loadRk st s rk).conclude _

section
variable {s : State} (hs : s.tablesSound)
include hs

theorem sameEffect_keyexp : SameEffect .keyexpT .keyexpD s :=
  ⟨_, _, exec_of_ne_tblgen (i := .keyexpT) nofun s, exec_of_ne_tblgen (i := .keyexpD) nofun s,
    sameResults_runData hs true .none (op := .keyexp) nofun⟩

theorem sameEffect_blockCommand (dir : Direction) {st : Strategy} (kx : Bool) (hb : st = .batch → s.inLen = 16) :
    SameEffect (blockCommand dir st kx) (blockCommand dir .direct kx) s := by
  refine ⟨_, _, exec_blockCommand dir st kx s, exec_blockCommand dir .direct kx s, ?_⟩
  cases dir with
  | enc => exact sameResults_runData hs kx .none (op := .encblk) fun _ => hb
  | dec => exact sameResults_runData hs kx .none (op := .decblk) fun _ => hb

theorem sameEffect_messageCommand (dir : Direction) (st : Strategy) (p : Padding) (kx : Bool) :
    SameEffect (messageCommand dir st p kx) (messageCommand dir .direct p kx) s := by
  refine ⟨_, _, exec_messageCommand dir st p kx s, exec_messageCommand dir .direct p kx s, ?_⟩
  cases dir with
  | enc => exact sameResults_runData hs kx p (op := .enc) nofun
  | dec => exact sameResults_runData hs kx p (op := .dec) nofun

theorem sameEffect_gcmCommand (dir : Direction) (st : Strategy) (kx : Bool) :
    SameEffect (gcmCommand dir st kx) (gcmCommand dir .direct kx) s := by
  cases dir with
  | enc =>
    exact ⟨_, _, exec_gcmCommand_enc st kx s, exec_gcmCommand_enc .direct kx s,
      sameResults_runData hs kx .none (op := .gcmenc) nofun⟩
  | dec =>
    exact ⟨_, _, exec_gcmCommand_dec st kx s, exec_gcmCommand_dec .direct kx s,
      sameResults_runData hs kx .none (op := .gcmdec) nofun⟩

end

/-- Settles O54, operation by operation. -/
theorem strategiesGiveTheSameResults : Obligations.StrategiesGiveTheSameResults := by
  intro p kx s hs
  have hblock : ∀ dir, SameEffect (blockCommand dir .table kx) (blockCommand dir .direct kx) s := fun dir =>
    sameEffect_blockCommand hs dir kx nofun
  have hbatch : s.inLen = 16 → ∀ dir, SameEffect (blockCommand dir .batch kx) (blockCommand dir .direct kx) s :=
    fun hlen dir => sameEffect_blockCommand hs dir kx fun _ => hlen
  have hmessage := fun dir st => sameEffect_messageCommand hs dir st p kx
  have hgcm := fun dir st => sameEffect_gcmCommand hs dir st kx
  exact ⟨sameEffect_keyexp hs, hblock .enc, hblock .dec, fun hlen => ⟨hbatch hlen .enc, hbatch hlen .dec⟩,
    hmessage .enc .table, hmessage .enc .batch, hmessage .dec .table, hmessage .dec .batch,
    hgcm .enc .table, hgcm .enc .batch, hgcm .dec .table, hgcm .dec .batch⟩

end Sys2Proof.Machine

/-!
# Proofs about the tables (`43_table_accel.md`)

The tables of R125 and R126 give `T` and `Tk` word by word (`tabLookup_tableD`, `tabLookup_tableK`), and equal
transforms make the same cipher. A TABLE command with a key in force therefore completes as its direct form does.
-/

namespace Sys2Proof.Machine

/-! ## The table form of the cipher (R131, R136) -/

/-- Settles O24, table by table. -/
theorem tableLookupEqualsTheDirectTransforms : Obligations.TableLookupEqualsTheDirectTransforms :=
  fun a => ⟨tabLookup_tableD a, tabLookup_tableK a⟩

/-- Equal transforms make the same cipher. -/
theorem sameCipher_of_eq {t tk t' tk' : Word → Word} (ht : t = t') (htk : tk = tk') : SameCipher t tk t' tk' := by
  subst ht htk
  exact ⟨fun _ => ⟨rfl, rfl⟩, fun _ _ _ => rfl, fun _ => rfl⟩

/-- The lazy build leaves a state alone whose tables, if the strategy takes them, are built (R128). -/
theorem lazyTables_of_valid {st : Strategy} {s : State} (h : st = .table → s.tblValid = true) :
    lazyTables st s = s := by
  rcases lazyTables_cases st s with he | ⟨hst, hv, -⟩
  · exact he
  · simp [h hst] at hv

/-- Settles O58: with the tables built, the transforms are those that the lazy build leaves. -/
theorem everyStrategyComputesTheSameCipher : Obligations.EveryStrategyComputesTheSameCipher := by
  constructor
  · exact sameCipher_of_eq (funext tabLookup_tableD) (funext tabLookup_tableK)
  · intro s st hs hv
    obtain ⟨hround, hkey⟩ := lazyTables_transforms (st := st) fun _ => hs
    rw [lazyTables_of_valid hv] at hround hkey
    exact sameCipher_of_eq hround hkey

/-! ## The commands (R127, R128, R132) -/

/-- Settles O38: `TBLGEN` has no prefix and no output, and loads no key. -/
theorem tblgenBuildsTheTables : Obligations.TblgenBuildsTheTables := by
  intro s
  have hexec : exec .tblgen s = .next (s.buildTables.settle .noError 0) := exec_of_tblgen rfl s
  have htables : TablesAfter .tblgen s (s.buildTables.settle .noError 0) := ⟨rfl, rfl, rfl⟩
  have hended : Ended .tblgen s (s.buildTables.settle .noError 0) .noError 0 :=
    ⟨rfl, rfl, rfl, rfl, rfl, rfl, rfl, rfl, rfl, htables, commandsWriteNoInput .tblgen s _ hexec⟩
  exact ⟨_, hexec, hended, fun _ => rfl, rfl, rfl⟩

/-- Settles O40: after the lazy build the tables give `T` and `Tk`, and with a key in force both commands complete with
what their body answers. -/
theorem tableBlockCommandsOutputTheBlock : Obligations.TableBlockCommandsOutputTheBlock := by
  intro kx s hc hs hkey hlen
  constructor
  · exact completes_of_keyReady (i := .encblkT kx) rfl (fun _ => hs) hkey fun u hu => hu.blockBody_one hc .enc hlen
  · exact completes_of_keyReady (i := .decblkT kx) rfl (fun _ => hs) hkey fun u hu => hu.blockBody_one hc .dec hlen

end Sys2Proof.Machine

/-!
# Proofs about the batched interface (`44_batched.md`)

Lanes in lock-step do not interact, so a batch on any number of lanes is the scalar cipher place by place
(`cryptBatch_eq_map`). An aligned operand is a list of blocks, and a BATCH command with a key in force outputs each of
them through the cipher.
-/

namespace Sys2Proof.Machine

/-- Settles O28: groups of lanes, each lane the scalar cipher, join up to the whole list. -/
theorem batchEqualsScalarForEveryLaneCount : Obligations.BatchEqualsScalarForEveryLaneCount :=
  cryptBatch_eq_map transT

/-- After `KeyPrefix` the body of a BATCH block command answers an aligned input, the empty one included, with every
block through the cipher (R142, R145). -/
theorem AfterPrefix.blockBody_batch {s u : State} {rk : Vector Word 32} (h : AfterPrefix .batch s rk u)
    (hc : s.cfg.wellFormed = true) (dir : Direction) (hcap : s.inLen.toNat ≤ s.cfg.inCap)
    (hal : s.inLen.toNat % 16 = 0) :
    Machine.blockBody .batch dir u = .ok ⟨ecbBytes rk dir (s.operand .inBuf), none⟩ := by
  have hlen : (s.operand .inBuf).length = s.inLen.toNat := State.operand_length s .inBuf
  have hblocks : bytesOf (blocksOf ((s.operand .inBuf).length / 16) (s.operand .inBuf)) = s.operand .inBuf :=
    bytesOf_blocksOf _ _ (by omega)
  exact h.blockBody hc dir hblocks.symm (by rwa [hblocks, hlen]) (.inl rfl)

/-- Settles O41: with a key in force both commands complete with what their body answers. -/
theorem batchBlockCommandsOutputEveryBlock : Obligations.BatchBlockCommandsOutputEveryBlock := by
  intro kx s hc hkey hcap hal
  constructor
  · exact completes_of_keyReady (i := .encblkB kx) rfl nofun hkey fun u hu => hu.blockBody_batch hc .enc hcap hal
  · exact completes_of_keyReady (i := .decblkB kx) rfl nofun hkey fun u hu => hu.blockBody_batch hc .dec hcap hal

end Sys2Proof.Machine

/-!
# Proofs about padding and chunking (`45_padding_chunking.md`)

A string ends in a pad in exactly one way, since its last byte counts the pad (`unpad_eq_some_iff`). A message command
with a key in force completes with what `encrypt` or `decrypt` answers (`completes_message`), and an `ENC` that
reports no error has output the answer of `encrypt` (`output_of_enc_noError`). The round trip of the commands is
thereby that of `encrypt` and `decrypt` (`messageResult_dec_of_enc`).
-/

namespace Sys2Proof.Machine

/-! ## Padding (R151, R152) -/

theorem pad_length_eq (m : List Byte) : (pad m).length = 16 * (m.length / 16 + 1) := by
  rw [pad_length]
  omega

/-- A string that ends in a pad unpads to what stands before it. -/
theorem unpad_append_replicate (m : List Byte) {lp : Nat} (h1 : 1 ≤ lp) (h16 : lp ≤ 16) :
    unpad (m ++ List.replicate lp (BitVec.ofNat 8 lp)) = some m := by
  have hlast : (m ++ List.replicate lp (BitVec.ofNat 8 lp)).getLast? = some (BitVec.ofNat 8 lp) := by
    rw [List.getLast?_append, List.getLast?_replicate, if_neg (by omega), Option.some_or]
  have hval : (BitVec.ofNat 8 lp).toNat = lp := by
    rw [BitVec.toNat_ofNat]
    omega
  have hrange : ¬(lp = 0 ∨ 16 < lp) := by omega
  simp [unpad, hlast, hval, hrange]

/-- Unpadding strips a well-formed pad and nothing else (R152). -/
theorem unpad_eq_some_iff {p m : List Byte} :
    unpad p = some m ↔ ∃ lp, 1 ≤ lp ∧ lp ≤ 16 ∧ p = m ++ List.replicate lp (BitVec.ofNat 8 lp) := by
  constructor
  · intro h
    unfold unpad at h
    split at h
    next => cases h
    next last _ =>
      dsimp only at h
      split at h
      next => cases h
      next hrange =>
        split at h
        next hpad =>
          cases h
          refine ⟨last.toNat, by omega, by omega, ?_⟩
          rw [BitVec.ofNat_toNat, BitVec.setWidth_eq, ← hpad, List.take_append_drop]
        next => cases h
  · rintro ⟨lp, h1, h16, rfl⟩
    exact unpad_append_replicate m h1 h16

theorem unpad_pad (m : List Byte) : unpad (pad m) = some m :=
  unpad_append_replicate m (by omega) (by omega)

/-- Settles O29: the pad is well-formed. -/
theorem unpadInvertsPad : Obligations.UnpadInvertsPad :=
  fun m => ⟨pad_length_eq m, unpad_pad m⟩

/-- Settles O30: the last byte of a string determines its pad. -/
theorem unpadAcceptsExactlyWellFormedPads : Obligations.UnpadAcceptsExactlyWellFormedPads :=
  fun _ _ => unpad_eq_some_iff

/-! ## The message commands (R150, R153, R154) -/

theorem messageCommand_strategy (dir : Direction) (st : Strategy) (p : Padding) (kx : Bool) :
    (messageCommand dir st p kx).strategy = st := by
  cases dir <;> cases st <;> rfl

theorem messageCommand_kx (dir : Direction) (st : Strategy) (p : Padding) (kx : Bool) :
    (messageCommand dir st p kx).kx = kx := by
  cases dir <;> cases st <;> rfl

theorem messageCommand_isData (dir : Direction) (st : Strategy) (p : Padding) (kx : Bool) :
    isData (messageCommand dir st p kx) = true := by
  cases dir <;> cases st <;> rfl

theorem bodyOf_messageCommand (dir : Direction) (st : Strategy) (p : Padding) (kx : Bool) :
    bodyOf (messageCommand dir st p kx) = messageBody dir st p := by
  cases dir <;> cases st <;> rfl

/-- With a key in force a data command ends with the schedule of the new key, or with the subkeys it found (R105). -/
theorem subkeysAfter_of_keyReady {i : Instr} {s : State} (hdata : isData i = true) (h : keyReady i.kx s) :
    subkeysAfter i s = if i.kx = true then keySchedule transTk s.keyBlock else s.rk := by
  obtain ⟨hexp, -⟩ : i.op ≠ .keyexp ∧ i.op ≠ .tblgen := by simpa [isData] using hdata
  cases hkx : i.kx with
  | true =>
    have hk : s.keyLen = 16 := by simpa [keyReady, hkx] using h
    simp [subkeysAfter, loadsKey, hkx, hk]
  | false => simp [subkeysAfter, loadsKey, hkx, hexp]

/-- A message command with a key in force completes with what `encrypt` or `decrypt` answers. -/
theorem completes_message (dir : Direction) {st : Strategy} (p : Padding) (kx : Bool) {s : State} {o : CallOutput}
    (hc : s.cfg.wellFormed = true) (hs : st = .table → s.tablesSound) (hkey : keyReady kx s)
    (hcap : s.inLen.toNat ≤ s.cfg.inCap)
    (ho : messageResult dir p (subkeysAfter (messageCommand dir st p kx) s) (s.operand .inBuf) = .ok o) :
    Completes (messageCommand dir st p kx) s o.bytes none := by
  have hlen : (s.operand .inBuf).length ≤ s.cfg.inCap := by rwa [State.operand_length]
  refine completes_of_keyReady (r := ⟨o.bytes, none⟩) (messageCommand_isData dir st p kx) ?_ ?_ fun u hu => ?_
  · rwa [messageCommand_strategy]
  · rwa [messageCommand_kx]
  · rw [messageCommand_strategy] at hu
    rw [bodyOf_messageCommand, hu.messageBody hc dir p rfl hlen, ho]
    rfl

/-- Settles O42: `encrypt` answers an aligned message and any padded one, and the command under each strategy
completes with the answer. -/
theorem encOutputsTheEncryptedMessage : Obligations.EncOutputsTheEncryptedMessage := by
  intro p kx s m hc hkey hcap hal hm
  have henc : ∀ rk, messageResult .enc p rk (s.operand .inBuf) = .ok ⟨ecbBytes rk .enc m, []⟩ := by
    intro rk
    cases p with
    | none =>
      have ha : (s.operand .inBuf).length % 16 = 0 := by
        rw [State.operand_length]
        exact hal rfl
      rw [messageResult, if_pos ha, hm]
      rfl
    | pkcs7 => rw [messageResult, hm, if_pos rfl]
  refine ⟨?_, fun hs => ?_, ?_⟩
  · exact completes_message .enc (st := .direct) p kx hc nofun hkey hcap (henc _)
  · exact completes_message .enc (st := .table) p kx hc (fun _ => hs) hkey hcap (henc _)
  · exact completes_message .enc (st := .batch) p kx hc nofun hkey hcap (henc _)

/-- Settles O43: `decrypt` answers an aligned ciphertext with a well-formed pad, and the command under each strategy
completes with the answer. -/
theorem decOutputsTheDecryptedMessage : Obligations.DecOutputsTheDecryptedMessage := by
  intro p kx s m v hc hkey hcap hal hm hv
  have ha : (s.operand .inBuf).length % 16 = 0 := by rwa [State.operand_length]
  have hdec : ∀ st, messageResult .dec p (subkeysAfter (messageCommand .dec st p kx) s) (s.operand .inBuf) =
      .ok ⟨v, []⟩ := by
    intro st
    have hkx := messageCommand_kx .dec st p kx
    rw [subkeysAfter_of_keyReady (messageCommand_isData .dec st p kx) (by rwa [hkx]), hkx]
    cases p with
    | none =>
      have hvm : v = m := hv
      rw [messageResult, if_pos ha, hvm, hm]
    | pkcs7 =>
      have hunpad : unpad m = some v := hv
      rw [messageResult, if_pos ha, ← hm, hunpad]
  refine ⟨?_, fun hs => ?_, ?_⟩
  · exact completes_message .dec (st := .direct) p kx hc nofun hkey hcap (hdec .direct)
  · exact completes_message .dec (st := .table) p kx hc (fun _ => hs) hkey hcap (hdec .table)
  · exact completes_message .dec (st := .batch) p kx hc nofun hkey hcap (hdec .batch)

/-! ## The round trip (R158) -/

theorem ecbBytes_bytesOf (rk : Vector Word 32) (dir : Direction) (bs : List Block) :
    ecbBytes rk dir (bytesOf bs) = bytesOf (bs.map (crypt transT rk dir)) := by
  have hn : (bytesOf bs).length / 16 = bs.length := by
    rw [bytesOf_length]
    omega
  rw [ecbBytes, hn, blocksOf_bytesOf]

/-- Block by block, decryption undoes encryption (R117, R150). -/
theorem ecbBytes_dec_enc (rk : Vector Word 32) {m : List Byte} (h : m.length % 16 = 0) :
    ecbBytes rk .dec (ecbBytes rk .enc m) = m := by
  have hinv : crypt transT rk .dec ∘ crypt transT rk .enc = id :=
    funext fun b => (eachDirectionInvertsTheOther rk b).1
  have henc : ecbBytes rk .enc m = bytesOf ((blocksOf (m.length / 16) m).map (crypt transT rk .enc)) := rfl
  rw [henc, ecbBytes_bytesOf, List.map_map, hinv, List.map_id, bytesOf_blocksOf _ _ (by omega)]

/-- `decrypt` answers what `encrypt` was given. -/
theorem messageResult_dec_of_enc {p : Padding} {rk : Vector Word 32} {m : List Byte} {o : CallOutput}
    (h : messageResult .enc p rk m = .ok o) : messageResult .dec p rk o.bytes = .ok ⟨m, []⟩ := by
  cases p with
  | none =>
    rw [messageResult] at h
    split at h
    next ha =>
      cases h
      rw [messageResult, if_pos (by rw [ecbBytes_length]; omega), ecbBytes_dec_enc rk ha]
    next => cases h
  | pkcs7 =>
    cases h
    have ha : (pad m).length % 16 = 0 := by
      rw [pad_length_eq]
      omega
    rw [messageResult, if_pos (by rw [ecbBytes_length]; omega), ecbBytes_dec_enc rk ha, unpad_pad]

theorem encMessage_error {p : Padding} {m : List Byte} {e : Err} (h : encMessage p m = .error e) :
    e = .lengthRange := by
  cases p with
  | none =>
    rw [encMessage] at h
    split at h
    next => cases h
    next =>
      cases h
      rfl
  | pkcs7 => cases h

theorem encBody_error {st : Strategy} {p : Padding} {u : State} {e : Err} (h : encBody st p u = .error e) :
    e = .lengthRange := by
  unfold encBody at h
  split at h
  next =>
    split at h
    next _ hm =>
      cases h
      exact encMessage_error hm
    next =>
      split at h
      next => cases h
      next =>
        cases h
        rfl
  next =>
    cases h
    rfl

theorem encBody_fits {st : Strategy} {p : Padding} {u : State} {r : Result} (h : encBody st p u = .ok r) :
    u.fits .inBuf = true := by
  by_contra hf
  rw [encBody, if_neg hf] at h
  cases h

theorem keyReady_of_keyPrefix {st : Strategy} {kx : Bool} {s u : State}
    (h : keyPrefix st kx (lazyTables st s) = .ok u) : keyReady kx s := by
  rcases keyPrefix_ok h with ⟨rfl, hk, -⟩ | ⟨rfl, hv, -⟩
  · simpa [keyReady] using hk
  · simpa [keyReady] using hv

/-- A data command that reports no error has committed what its body answered after `KeyPrefix` (R209). -/
theorem commit_of_noError {i : Instr} {s t : State} (hdata : isData i = true)
    (hs : i.strategy = .table → s.tablesSound) (hbody : ∀ u, bodyOf i u ≠ .error .noError)
    (hexec : exec i s = .next t) (herr : t.err = .noError) :
    ∃ u r, AfterPrefix i.strategy s (subkeysAfter i s) u ∧ bodyOf i u = .ok r ∧ t = commit r u := by
  obtain ⟨hexp, hgen⟩ : i.op ≠ .keyexp ∧ i.op ≠ .tblgen := by simpa [isData] using hdata
  rw [exec_of_ne_tblgen hgen, beq_false_of_ne hexp, Bool.or_false] at hexec
  cases hexec
  rcases runData_cases i.strategy i.kx (bodyOf i) s with ⟨e, hu, h⟩ | ⟨u, e, -, hb, h⟩ | ⟨u, r, hu, hb, h⟩
  · rw [h] at herr
    exact absurd herr (keyPrefix_error_ne hu)
  · rw [h] at herr
    have he : e = .noError := herr
    exact absurd (he ▸ hb) (hbody u)
  · have hkey := keyReady_of_keyPrefix hu
    rw [keyPrefix_lazyTables hs, keyInForce_of_keyReady hexp hkey] at hu
    cases hu
    exact ⟨_, r, afterPrefix_loadRk hs _, hb, h⟩

theorem messageResult_length_lt {c : Config} {dir : Direction} {p : Padding} {rk : Vector Word 32} {m : List Byte}
    {o : CallOutput} (hc : c.wellFormed = true) (hm : m.length ≤ c.inCap) (h : messageResult dir p rk m = .ok o) :
    o.bytes.length < 2 ^ 32 := by
  have hplain := messageResult_plain dir p rk hm
  rw [h] at hplain
  obtain ⟨-, hbytes⟩ := hplain
  exact (output_fits_of_wellFormed hc hbytes).2

/-- An `ENC` that reports no error has output what `encrypt` answers under the subkeys it leaves. -/
theorem output_of_enc_noError {st : Strategy} {p : Padding} {kx : Bool} {s t : State}
    (hc : s.cfg.wellFormed = true) (hs : s.tablesSound) (hexec : exec (messageCommand .enc st p kx) s = .next t)
    (herr : t.err = .noError) :
    ∃ o, messageResult .enc p t.rk (s.operand .inBuf) = .ok o ∧ t.readBytes .outBuf t.outLen.toNat = o.bytes := by
  have hne : ∀ u, bodyOf (messageCommand .enc st p kx) u ≠ .error .noError := by
    intro u h
    rw [bodyOf_messageCommand] at h
    exact absurd (encBody_error h) nofun
  obtain ⟨u, r, hu, hb, rfl⟩ := commit_of_noError (messageCommand_isData .enc st p kx) (fun _ => hs) hne hexec herr
  rw [messageCommand_strategy] at hu
  rw [bodyOf_messageCommand] at hb
  have hcap : (s.operand .inBuf).length ≤ s.cfg.inCap := by
    rw [← hu.inLen rfl, ← hu.cfg]
    exact (fits_iff u .inBuf).1 (encBody_fits hb)
  rw [hu.messageBody hc .enc p rfl hcap, ← hu.rk] at hb
  cases ho : messageResult .enc p u.rk (s.operand .inBuf) with
  | error e =>
    rw [ho] at hb
    cases hb
  | ok o =>
    rw [ho] at hb
    cases hb
    refine ⟨o, by rw [commit_rk, ho], ?_⟩
    rw [commit_outLen, BitVec.toNat_ofNat, Nat.mod_eq_of_lt (messageResult_length_lt hc hcap ho)]
    exact commit_readBytes_out ⟨o.bytes, none⟩ u

/-- Settles O57: `ENC` has output the answer of `encrypt`, and `DEC` completes with the answer of `decrypt` to it. -/
theorem messageDecryptionRecoversTheMessage : Obligations.MessageDecryptionRecoversTheMessage := by
  intro st st' p kx s t u hc hs hexec herr hcap hcfg hsu hrk hrkv hlen hin
  obtain ⟨o, henc, hout⟩ := output_of_enc_noError hc hs hexec herr
  have hmsg : u.operand .inBuf = o.bytes := by
    have hin' : u.readBytes .inBuf t.outLen.toNat = t.readBytes .outBuf t.outLen.toNat := State.readBytes_congr hin
    rw [← hout, ← hin', ← hlen]
    rfl
  have hkey : keyReady (messageCommand .dec st' p false).kx u := by rwa [messageCommand_kx]
  have hkeys : subkeysAfter (messageCommand .dec st' p false) u = t.rk := by
    rw [subkeysAfter_of_keyReady (messageCommand_isData .dec st' p false) hkey, messageCommand_kx]
    exact hrk
  have hdec : messageResult .dec p (subkeysAfter (messageCommand .dec st' p false) u) (u.operand .inBuf) =
      .ok ⟨s.operand .inBuf, []⟩ := by
    rw [hkeys, hmsg, messageResult_dec_of_enc henc]
  obtain ⟨v, hv, hended, hvOut, -⟩ := completes_message .dec p false (by rwa [hcfg]) (fun _ => hsu) hrkv
    (by rwa [hlen, hcfg]) hdec
  obtain ⟨-, -, hvErr, hvLen, -⟩ := hended
  refine ⟨v, hv, hvErr, ?_, fun a ha => ?_⟩
  · rw [hvLen, State.operand_length]
    exact BitVec.ofNat_toNat ..
  · have hal : a < (s.operand .inBuf).length := by rwa [State.operand_length]
    rw [hvOut a, List.getD_eq_getElem _ _ hal]
    exact State.readBytes_getElem ..

end Sys2Proof.Machine

/-!
# Proofs about GCM (`46_gcm.md`)

Multiplication in the field is a polynomial in the linear map `mulX`, taken at the second factor; linear maps that
commute with `mulX` commute with it (`gfLoop_map`), and with the identity as second factor it gives the first back
(`gfMul_one`). The laws of the field follow from these two. The counter blocks are iterates of the increment, and the
keystream depends on the key and the nonce alone, so the stream is its own inverse. A GCM command with a key in force
completes with stream and tag, and the supplied tag enters `GCMDEC` in the one comparison.
-/

namespace Sys2Proof.Machine

/-! ## The multiplier (R165, R166) -/

/-- The reduction constant is added exactly when a coefficient leaves the block. -/
theorem mulX_eq (v : Block) : mulX v = (v >>> 1) ^^^ (if v.getLsbD 0 then reduction else 0) := by
  rw [mulX]
  split
  · rfl
  · exact BitVec.xor_zero.symm

theorem carry_xor : ∀ a b : Bool, (if (a ^^ b) = true then reduction else 0) =
    (if a = true then reduction else 0) ^^^ (if b = true then reduction else 0) := by
  decide

theorem mulX_xor (a b : Block) : mulX (a ^^^ b) = mulX a ^^^ mulX b := by
  rw [mulX_eq, mulX_eq, mulX_eq, BitVec.getLsbD_xor, BitVec.ushiftRight_xor_distrib, carry_xor]
  ac_rfl

/-- A linear map that commutes with multiplication by x commutes with the loop of R166. -/
theorem gfLoop_map {f : Block → Block} (hadd : ∀ a b, f (a ^^^ b) = f a ^^^ f b)
    (hmul : ∀ v, f (mulX v) = mulX (f v)) (n : Nat) (x v z : Block) : f (gfLoop n x v z) = gfLoop n x (f v) (f z) := by
  induction n generalizing v z with
  | zero => rfl
  | succ n ih => rw [gfLoop, gfLoop, ih, hmul, apply_ite f, hadd]

theorem gfLoop_xor (n : Nat) (x v v' z z' : Block) :
    gfLoop n x (v ^^^ v') (z ^^^ z') = gfLoop n x v z ^^^ gfLoop n x v' z' := by
  induction n generalizing v v' z z' with
  | zero => rfl
  | succ n ih =>
    rw [gfLoop, gfLoop, gfLoop, mulX_xor, ← ih]
    congr 1
    split
    · ac_rfl
    · rfl

theorem gfMul_xor (x y z : Block) : gfMul x (y ^^^ z) = gfMul x y ^^^ gfMul x z := by
  have h := gfLoop_xor 128 x y z 0 0
  rwa [BitVec.xor_self] at h

theorem gfMul_mulX (x y : Block) : gfMul x (mulX y) = mulX (gfMul x y) :=
  (gfLoop_map mulX_xor (fun _ => rfl) 128 x y 0).symm

theorem gfMul_zero (x : Block) : gfMul x 0 = 0 := by
  simpa using gfMul_xor x 0 0

/-- Two multiplications commute: one is a linear map that the loop of the other carries through. -/
theorem gfMul_left_comm (x y z : Block) : gfMul x (gfMul y z) = gfMul y (gfMul x z) := by
  have h := gfLoop_map (gfMul_xor x) (gfMul_mulX x) 128 y z 0
  rwa [gfMul_zero] at h

/-- The identity of the field: only the coefficient of x^0 is set, which is bit 127 (R166). -/
def gfOne : Block :=
  0x80000000000000000000000000000000

/-- While no coefficient leaves the block, multiplication by x moves it down one bit. -/
theorem mulX_twoPow_succ {n : Nat} (hn : n < 127) : mulX (BitVec.twoPow 128 (n + 1)) = BitVec.twoPow 128 n := by
  have h0 : (BitVec.twoPow 128 (n + 1)).getLsbD 0 = false := by simp
  rw [mulX, h0, if_neg Bool.false_ne_true]
  apply BitVec.eq_of_getLsbD_eq
  intro i hi
  simp only [BitVec.getLsbD_ushiftRight, BitVec.getLsbD_twoPow]
  grind

/-- One iteration on a single coefficient copies that coefficient of `x`. -/
theorem addMonomial_getLsbD {n : Nat} (hn : n < 128) (x z : Block) (i : Nat) :
    (if x.getLsbD n then z ^^^ BitVec.twoPow 128 n else z).getLsbD i =
      (z.getLsbD i ^^ (decide (i = n) && x.getLsbD i)) := by
  by_cases hi : i = n
  · subst hi
    cases x.getLsbD i <;> simp [hn]
  · cases x.getLsbD n <;> simp [BitVec.getLsbD_twoPow, hi, Ne.symm hi]

/-- From the coefficient of bit `n` on, the loop copies the bits `n .. 0` of `x`. -/
theorem gfLoop_twoPow_getLsbD {n : Nat} (hn : n < 128) (x z : Block) (i : Nat) :
    (gfLoop (n + 1) x (BitVec.twoPow 128 n) z).getLsbD i = (z.getLsbD i ^^ (decide (i ≤ n) && x.getLsbD i)) := by
  induction n generalizing z with
  | zero =>
    rw [gfLoop, gfLoop, addMonomial_getLsbD hn]
    simp
  | succ n ih =>
    have hle : decide (i ≤ n + 1) = (decide (i = n + 1) ^^ decide (i ≤ n)) := by grind
    rw [gfLoop, mulX_twoPow_succ (by omega), ih (by omega), addMonomial_getLsbD hn, hle, Bool.and_xor_distrib_right,
      Bool.xor_assoc]

theorem gfMul_one (x : Block) : gfMul x gfOne = x := by
  apply BitVec.eq_of_getLsbD_eq
  intro i hi
  have hone : gfOne = BitVec.twoPow 128 127 := by decide
  rw [gfMul, hone, gfLoop_twoPow_getLsbD (by decide)]
  simp [Nat.le_of_lt_succ hi]

theorem gfMul_comm (x y : Block) : gfMul x y = gfMul y x :=
  calc gfMul x y = gfMul x (gfMul y gfOne) := by rw [gfMul_one]
    _ = gfMul y (gfMul x gfOne) := gfMul_left_comm ..
    _ = gfMul y x := by rw [gfMul_one]

theorem gfMul_assoc (x y z : Block) : gfMul (gfMul x y) z = gfMul x (gfMul y z) :=
  calc gfMul (gfMul x y) z = gfMul z (gfMul x y) := gfMul_comm ..
    _ = gfMul x (gfMul z y) := gfMul_left_comm ..
    _ = gfMul x (gfMul y z) := by rw [gfMul_comm z y]

theorem xor_gfMul (x y z : Block) : gfMul (x ^^^ y) z = gfMul x z ^^^ gfMul y z := by
  rw [gfMul_comm, gfMul_xor, gfMul_comm z x, gfMul_comm z y]

/-- Settles O31: each `gfMul x` is linear and commutes with multiplication by x, so any two of them commute. -/
theorem gfMulIsCommutativeAssociativeDistributive : Obligations.GfMulIsCommutativeAssociativeDistributive :=
  fun x y z => ⟨gfMul_comm x y, gfMul_assoc x y z, xor_gfMul x y z, gfMul_zero x, gfMul_one x⟩

/-! ## GHASH (R167) -/

theorem ghash_bytesOf (h : Block) (bs : List Block) :
    ghash h (bytesOf bs) = bs.foldl (fun y b => gfMul (y ^^^ b) h) 0 := by
  have hn : (bytesOf bs).length / 16 = bs.length := by
    rw [bytesOf_length]
    omega
  rw [ghash, hn, blocksOf_bytesOf]

theorem ghash_nil (h : Block) : ghash h [] = 0 := rfl

/-- One more block after an aligned string is one more step of the accumulator. -/
theorem ghash_append_block (h b : Block) {s : List Byte} (hs : s.length % 16 = 0) :
    ghash h (s ++ bytes128 b) = gfMul (ghash h s ^^^ b) h := by
  have hbytes : s = bytesOf (blocksOf (s.length / 16) s) := (bytesOf_blocksOf _ _ (by omega)).symm
  have happ : s ++ bytes128 b = bytesOf (blocksOf (s.length / 16) s ++ [b]) := by
    rw [bytesOf_append, ← hbytes, bytesOf_cons, bytesOf_nil, List.append_nil]
  rw [happ, ghash_bytesOf, List.foldl_append, ghash]
  rfl

/-- Settles O32: the blocks of an aligned string and one more are those of the string and then the one. -/
theorem ghashIsTheBlockRecurrence : Obligations.GhashIsTheBlockRecurrence :=
  fun h b _ => ⟨ghash_nil h, ghash_append_block h b⟩

/-! ## The counter (R173, R174, R186) -/

theorem lowMask_getLsbD (i : Nat) : (0xFFFFFFFF#128).getLsbD i = decide (i < 32) := by
  have h : (0xFFFFFFFF#128).toNat = 2 ^ 32 - 1 := rfl
  rw [← BitVec.testBit_toNat, h, Nat.testBit_two_pow_sub_one]

/-- The increment counts in the low word and takes the other 96 bits over. -/
theorem inc32_eq_append (cb : Block) : inc32 cb = cb.extractLsb' 32 96 ++ (cb.extractLsb' 0 32 + 1) := by
  have hlow : cb.extractLsb' 0 32 + 1 = (cb + 1).extractLsb' 0 32 := by
    rw [← BitVec.setWidth_eq_extractLsb' (by decide), ← BitVec.setWidth_eq_extractLsb' (by decide),
      BitVec.setWidth_add cb 1 (by decide)]
    rfl
  apply BitVec.eq_of_getLsbD_eq
  intro i hi
  have happ := BitVec.getLsbD_append (x := cb.extractLsb' 32 96) (y := (cb + 1).extractLsb' 0 32) (i := i)
  rw [hlow, happ]
  simp only [inc32, BitVec.getLsbD_or, BitVec.getLsbD_and, BitVec.getLsbD_not, lowMask_getLsbD,
    BitVec.getLsbD_extractLsb']
  by_cases h32 : i < 32
  · simp [h32]
  · have h96 : i - 32 < 96 := by omega
    have hsum : 32 + (i - 32) = i := by omega
    simp [h32, hi, h96, hsum]

theorem inc32_high (cb : Block) : (inc32 cb).extractLsb' 32 96 = cb.extractLsb' 32 96 := by
  rw [inc32_eq_append]
  exact BitVec.extractLsb'_append_eq_left

theorem inc32_low (cb : Block) : (inc32 cb).extractLsb' 0 32 = cb.extractLsb' 0 32 + 1 := by
  rw [inc32_eq_append]
  exact BitVec.extractLsb'_append_eq_right

/-- Settles O33, part by part of the block. -/
theorem incrementTouchesOnlyTheLowWord : Obligations.IncrementTouchesOnlyTheLowWord :=
  fun cb => ⟨inc32_high cb, inc32_low cb⟩

theorem inc32_iterate_low (cb : Block) (i : Nat) :
    (inc32^[i] cb).extractLsb' 0 32 = cb.extractLsb' 0 32 + BitVec.ofNat 32 i := by
  induction i with
  | zero => simp
  | succ i ih =>
    rw [Function.iterate_succ_apply', inc32_low, ih, BitVec.ofNat_add, BitVec.add_assoc]
    rfl

/-- Fewer than 2^32 increments do not wrap around. -/
theorem inc32_iterate_inj {cb : Block} {i j : Nat} (hi : i < 2 ^ 32) (hj : j < 2 ^ 32)
    (h : inc32^[i] cb = inc32^[j] cb) : i = j := by
  have hlow := congrArg (BitVec.extractLsb' 0 32) h
  rw [inc32_iterate_low, inc32_iterate_low, BitVec.add_right_inj] at hlow
  have hnat := congrArg BitVec.toNat hlow
  rwa [BitVec.toNat_ofNat, BitVec.toNat_ofNat, Nat.mod_eq_of_lt hi, Nat.mod_eq_of_lt hj] at hnat

theorem counterBlocks_eq_map (n : Nat) (cb : Block) :
    counterBlocks n cb = (List.range n).map fun i => inc32^[i + 1] cb := by
  induction n generalizing cb with
  | zero => rfl
  | succ n ih =>
    rw [counterBlocks, ih, List.range_succ_eq_map, List.map_cons, List.map_map]
    rfl

theorem cons_counterBlocks (n : Nat) (cb : Block) :
    cb :: counterBlocks n cb = (List.range (n + 1)).map fun i => inc32^[i] cb := by
  rw [counterBlocks_eq_map, List.range_succ_eq_map, List.map_cons, List.map_map]
  rfl

/-- Settles O34: the blocks are the iterates of the increment, and their low words are different. -/
theorem counterBlocksOfAMessageAreDistinct : Obligations.CounterBlocksOfAMessageAreDistinct := by
  constructor
  · intro c hc
    simp only [Config.wellFormed, Bool.and_eq_true, decide_eq_true_eq] at hc
    omega
  · intro j0 n hn
    rw [cons_counterBlocks]
    refine List.nodup_range.map_on fun i hi j hj => ?_
    rw [List.mem_range] at hi hj
    exact inc32_iterate_inj (by omega) (by omega)

/-! ## The stream (R175, R176) -/

/-- Byte `k` of a list of blocks is byte `k mod 16` of block `k / 16` (R150). -/
theorem getElem_bytesOf {bs : List Block} {k : Nat} (h : k < (bytesOf bs).length) :
    (bytesOf bs)[k] = (bytes128 (bs[k / 16]'(by rw [bytesOf_length] at h; omega))).getD (k % 16) 0 := by
  induction bs generalizing k with
  | nil => simp at h
  | cons b bs ih =>
    simp only [bytesOf_cons]
    by_cases hk : k < 16
    · rw [List.getElem_append_left (by simpa)]
      simp [Nat.div_eq_of_lt hk, Nat.mod_eq_of_lt hk, hk]
    · obtain ⟨j, rfl⟩ : ∃ j, k = j + 16 := ⟨k - 16, by omega⟩
      have hj : j < (bytesOf bs).length := by
        rw [bytesOf_length, List.length_cons] at h
        rw [bytesOf_length]
        omega
      rw [List.getElem_append_right (by simp)]
      simp [ih hj]

/-- Byte `k` of the keystream of a nonce, however long the data (R174, R175). -/
def keystreamByte (rk : Vector Word 32) (iv : List Byte) (k : Nat) : Byte :=
  (bytes128 (encE rk (inc32^[k / 16 + 1] (gcmJ0 rk iv)))).getD (k % 16) 0

theorem gcmStream_getElem (rk : Vector Word 32) (iv : List Byte) {d : List Byte} {k : Nat}
    (h : k < (gcmStream rk iv d).length) :
    (gcmStream rk iv d)[k] = d[k]'(by rwa [gcmStream_length] at h) ^^^ keystreamByte rk iv k := by
  simp only [gcmStream, List.getElem_zipWith, getElem_bytesOf, List.getElem_map, counterBlocks_eq_map,
    List.getElem_range, keystreamByte]

theorem gcmStream_gcmStream (rk : Vector Word 32) (iv d : List Byte) : gcmStream rk iv (gcmStream rk iv d) = d := by
  apply List.ext_getElem (by rw [gcmStream_length, gcmStream_length])
  intro k _ _
  rw [gcmStream_getElem, gcmStream_getElem, BitVec.xor_assoc, BitVec.xor_self, BitVec.xor_zero]

/-- Settles O35: the keystream does not depend on the data, so the second XOR undoes the first. -/
theorem streamIsBytewiseXorWithTheKeystream : Obligations.StreamIsBytewiseXorWithTheKeystream := by
  intro rk iv d
  refine ⟨gcmStream_length rk iv d, gcmStream_gcmStream rk iv d, fun k hk => ?_⟩
  rw [List.getD_eq_getElem _ _ (by rwa [gcmStream_length]), List.getD_eq_getElem _ _ hk, gcmStream_getElem]
  rfl

/-! ## The initial counter block (R171, R172, R187) -/

/-- The padded empty nonce with its length is one block of zeros. -/
theorem initialCounter_nil (h : Block) : initialCounter h [] = 0 := by
  have hzero : zpad [] ++ zeros 8 ++ bitLength 0 = [] ++ bytes128 0 := by decide
  rw [initialCounter, if_neg (by decide), List.length_nil, hzero, ghash_append_block h 0 rfl, ghash_nil,
    BitVec.xor_self, gfMul_comm]
  exact gfMul_zero h

/-- Settles O36: a 12-byte nonce is taken as it is, and the empty nonce hashes one block of zeros. -/
theorem initialCounterOfTwelveByteAndEmptyNonces : Obligations.InitialCounterOfTwelveByteAndEmptyNonces := by
  constructor
  · intro h iv hiv
    rw [initialCounter, if_pos hiv, bytes128_be128 _ (by simp [hiv])]
  · exact initialCounter_nil

/-! ## The commands under every strategy (R170 to R180) -/

section
variable (dir : Direction) (st : Strategy) (kx : Bool)

theorem gcmCommand_strategy : (gcmCommand dir st kx).strategy = st := by
  cases dir <;> cases st <;> rfl

theorem gcmCommand_kx : (gcmCommand dir st kx).kx = kx := by
  cases dir <;> cases st <;> rfl

theorem gcmCommand_isData : isData (gcmCommand dir st kx) = true := by
  cases dir <;> cases st <;> rfl

theorem bodyOf_gcmCommand_enc : bodyOf (gcmCommand .enc st kx) = gcmencBody st := by
  cases st <;> rfl

theorem bodyOf_gcmCommand_dec : bodyOf (gcmCommand .dec st kx) = gcmdecBody st := by
  cases st <;> rfl

end

/-- The length registers of the operands within their capacities (R208). -/
theorem gcmOperands_of_le {s : State} (hiv : s.ivLen.toNat ≤ s.cfg.ivCap) (haad : s.aadLen.toNat ≤ s.cfg.aadCap)
    (hin : s.inLen.toNat ≤ s.cfg.inCap) :
    GcmOperands s (s.operand .ivBuf) (s.operand .aadBuf) (s.operand .inBuf) where
  ivBuf := rfl
  aadBuf := rfl
  inBuf := rfl
  ivFits := by rwa [State.operand_length]
  aadFits := by rwa [State.operand_length]
  inFits := by rwa [State.operand_length]

section
variable {s : State} {st : Strategy} {kx : Bool} {rk : Vector Word 32}
  (hs : st = .table → s.tablesSound) (hkey : keyReady kx s)
  (hrk : rk = if kx = true then keySchedule transTk s.keyBlock else s.rk)
include hs hkey hrk

/-- A GCM command with a key in force completes when its body answers with the subkeys in force. -/
theorem completes_gcmCommand (dir : Direction) {r : Result}
    (hbody : ∀ u, AfterPrefix st s rk u → bodyOf (gcmCommand dir st kx) u = .ok r) :
    Completes (gcmCommand dir st kx) s r.out r.tag := by
  have hready : keyReady (gcmCommand dir st kx).kx s := by rwa [gcmCommand_kx]
  refine completes_of_keyReady (gcmCommand_isData dir st kx) (by rwa [gcmCommand_strategy]) hready fun u hu => ?_
  rw [subkeysAfter_of_keyReady (gcmCommand_isData dir st kx) hready, gcmCommand_kx, gcmCommand_strategy, ← hrk] at hu
  exact hbody u hu

variable {iv aad m : List Byte} (hc : s.cfg.wellFormed = true) (hops : GcmOperands s iv aad m)
include hc hops

/-- `GCMENC` with a key in force outputs the stream and its tag (R179). -/
theorem completes_gcmenc :
    Completes (gcmCommand .enc st kx) s (gcmStream rk iv m) (some (gcmTagOf rk iv aad (gcmStream rk iv m))) := by
  refine completes_gcmCommand (r := ⟨gcmStream rk iv m, some _⟩) hs hkey hrk .enc fun u hu => ?_
  rw [bodyOf_gcmCommand_enc, hu.gcmencBody hc hops]

/-- `GCMDEC` with a key in force and the expected tag outputs the stream (R180). -/
theorem completes_gcmdec (htag : s.tagInBlock = gcmTagOf rk iv aad m) :
    Completes (gcmCommand .dec st kx) s (gcmStream rk iv m) none := by
  refine completes_gcmCommand (r := ⟨gcmStream rk iv m, none⟩) hs hkey hrk .dec fun u hu => ?_
  rw [bodyOf_gcmCommand_dec, hu.gcmdecBody hc hops, if_pos htag.symm]
  rfl

end

/-- Settles O44, strategy by strategy. -/
theorem gcmencOutputsCiphertextAndTag : Obligations.GcmencOutputsCiphertextAndTag := by
  rintro kx s rk iv aad c hc hkey hiv haad hin hrk rfl rfl rfl
  have hops := gcmOperands_of_le hiv haad hin
  refine ⟨?_, fun hs => ?_, ?_⟩
  · exact completes_gcmenc (st := .direct) nofun hkey hrk hc hops
  · exact completes_gcmenc (st := .table) (fun _ => hs) hkey hrk hc hops
  · exact completes_gcmenc (st := .batch) nofun hkey hrk hc hops

/-- Settles O45, strategy by strategy. -/
theorem gcmdecOutputsThePlaintext : Obligations.GcmdecOutputsThePlaintext := by
  rintro kx s rk iv aad c hc hkey hiv haad hin hrk rfl rfl rfl htag
  have hops := gcmOperands_of_le hiv haad hin
  refine ⟨?_, fun hs => ?_, ?_⟩
  · exact completes_gcmdec (st := .direct) nofun hkey hrk hc hops htag
  · exact completes_gcmdec (st := .table) (fun _ => hs) hkey hrk hc hops htag
  · exact completes_gcmdec (st := .batch) nofun hkey hrk hc hops htag

/-! ## Verification before release (R181, R182, R188) -/

/-- A tag determines its four words (R42). -/
theorem tagOfWords_injective : Function.Injective tagOfWords := by
  intro v w h
  have hblocks : blockOfWords ⟨v[0], v[1], v[2], v[3]⟩ = blockOfWords ⟨w[0], w[1], w[2], w[3]⟩ := h
  have hquads := Function.LeftInverse.injective wordsOfBlock_blockOfWords hblocks
  obtain ⟨h0, h1, h2, h3⟩ := Quad.mk.inj hquads
  ext1 i hi
  interval_cases i <;> assumption

/-- The state with another supplied tag. -/
def State.supplyTag (s : State) (v : Vector Word 4) : State :=
  { s with tagIn := v }

/-- The table build neither reads nor writes the supplied tag. -/
theorem lazyTables_supplyTag (st : Strategy) (s : State) (v : Vector Word 4) :
    lazyTables st (s.supplyTag v) = (lazyTables st s).supplyTag v := by
  cases st with
  | direct => rfl
  | table => exact (apply_ite (State.supplyTag · v) (s.tblValid = true) s s.buildTables).symm
  | batch => rfl

/-- `KeyPrefix` neither reads nor writes the supplied tag. -/
theorem keyPrefix_supplyTag {st : Strategy} {kx : Bool} {s u : State} (h : keyPrefix st kx s = .ok u)
    (v : Vector Word 4) : keyPrefix st kx (s.supplyTag v) = .ok (u.supplyTag v) ∧ u.tagIn = s.tagIn := by
  have hkeyT : (s.supplyTag v).keyT st = s.keyT st := by cases st <;> rfl
  rcases keyPrefix_ok h with ⟨rfl, hk, rfl⟩ | ⟨rfl, hv, rfl⟩
  · rw [keyPrefix_true, loadKey_ok st (s := s.supplyTag v) hk, hkeyT]
    exact ⟨rfl, rfl⟩
  · exact ⟨if_pos hv, rfl⟩

theorem gcmTag_supplyTag (st : Strategy) (s : State) (v : Vector Word 4) (ct : List Byte) :
    (s.supplyTag v).gcmTag st ct = s.gcmTag st ct := by
  cases st <;> rfl

/-- `GCMDEC` answers with data only after the tag has been found equal (R182). -/
theorem gcmdecBody_ok_tag {st : Strategy} {u : State} {r : Result} (h : gcmdecBody st u = .ok r) :
    gcmLengthsOk u = true ∧ u.gcmTag st (u.operand .inBuf) = u.tagInBlock := by
  unfold gcmdecBody at h
  split at h
  next hlen =>
    split at h
    next htag => exact ⟨hlen, htag⟩
    next => cases h
  next => cases h

theorem gcmdecBody_error {st : Strategy} {u : State} {e : Err} (h : gcmdecBody st u = .error e) : e ≠ .noError := by
  unfold gcmdecBody at h
  split at h
  next =>
    split at h
    next => cases h
    next =>
      cases h
      exact nofun
  next =>
    cases h
    exact nofun

/-- Where `GCMDEC` accepts a tag, it refuses every other. -/
theorem gcmdecBody_supplyTag {st : Strategy} {u : State} {r : Result} (h : gcmdecBody st u = .ok r)
    {v : Vector Word 4} (hv : v ≠ u.tagIn) : gcmdecBody st (u.supplyTag v) = .error .authenticationFailed := by
  obtain ⟨hlen, htag⟩ := gcmdecBody_ok_tag h
  have hlen' : gcmLengthsOk (u.supplyTag v) = true := hlen
  have hne : (u.supplyTag v).gcmTag st ((u.supplyTag v).operand .inBuf) ≠ (u.supplyTag v).tagInBlock := by
    rw [gcmTag_supplyTag]
    exact fun he => hv (tagOfWords_injective (he.symm.trans htag))
  rw [gcmdecBody, if_pos hlen', if_neg hne]

theorem exec_of_gcmdec {i : Instr} (h : i.op = .gcmdec) (s : State) :
    exec i s = .next (runData i.strategy i.kx (gcmdecBody i.strategy) s) := by
  have hexp : i.op ≠ .keyexp := by simp [h]
  have hgen : i.op ≠ .tblgen := by simp [h]
  rw [exec_of_ne_tblgen hgen, beq_false_of_ne hexp, Bool.or_false, bodyOf_eq_opBody, h]
  rfl

/-- A failed command has ended in an abort, which writes no output (R181, R210). -/
theorem no_output_of_err {i : Instr} {s t : State} (hexec : exec i s = .next t) (herr : t.err ≠ .noError) :
    t.outLen = 0 ∧ ∀ a, t.byteAt .outBuf a = s.byteAt .outBuf a := by
  obtain ⟨u, hu, ⟨e, rfl⟩ | ⟨r, -, rfl⟩⟩ := exec_ends hexec
  · exact ⟨rfl, hu.byteAt_out⟩
  · exact absurd (commit_err r u) herr

/-- A `GCMDEC` that accepts a tag refuses every other. -/
theorem gcmdec_other_tag {st : Strategy} {kx : Bool} {s : State} (h : (runData st kx (gcmdecBody st) s).err = .noError)
    {v : Vector Word 4} (hv : v ≠ s.tagIn) :
    (runData st kx (gcmdecBody st) (s.supplyTag v)).err = .authenticationFailed := by
  rcases runData_cases st kx (gcmdecBody st) s with ⟨e, hu, hr⟩ | ⟨u, e, -, hb, hr⟩ | ⟨u, r, hu, hb, -⟩
  · rw [hr] at h
    exact absurd h (keyPrefix_error_ne hu)
  · rw [hr] at h
    exact absurd h (gcmdecBody_error hb)
  · obtain ⟨hprefix, htagIn⟩ := keyPrefix_supplyTag hu v
    rw [lazyTables_tagIn] at htagIn
    rw [← lazyTables_supplyTag] at hprefix
    rw [runData_of_prefix_ok _ hprefix, gcmdecBody_supplyTag hb (by rwa [htagIn])]
    rfl

/-- Settles O50: an error writes no output, and an accepted tag is the one the rest of the state determines. -/
theorem gcmdecVerifiesBeforeRelease : Obligations.GcmdecVerifiesBeforeRelease := by
  intro i s t hop hexec
  refine ⟨fun herr => no_output_of_err hexec (by rw [herr]; exact nofun), fun herr v hv => ?_⟩
  cases (exec_of_gcmdec hop s).symm.trans hexec
  exact ⟨_, exec_of_gcmdec hop _, gcmdec_other_tag herr hv⟩

/-! ## The round trip (R188) -/

/-- A length register and the bytes below it determine an operand. -/
theorem operand_eq_of_byteAt {s t : State} {b c : Buffer} (hl : t.lengthReg b = s.lengthReg c)
    (hb : ∀ a < (s.lengthReg c).toNat, t.byteAt b a = s.byteAt c a) : t.operand b = s.operand c := by
  rw [State.operand, State.operand, hl]
  exact State.readBytes_congr hb

/-- What `OUT_LEN` counts after a commit is the output. -/
theorem commit_operand_out (r : Result) (u : State) (h : r.out.length < 2 ^ 32) :
    (commit r u).operand .outBuf = r.out := by
  have hlen : ((commit r u).lengthReg .outBuf).toNat = r.out.length := by
    rw [State.lengthReg, commit_outLen, BitVec.toNat_ofNat, Nat.mod_eq_of_lt h]
  rw [State.operand, hlen, commit_readBytes_out]

/-- The conditions of R208 on a GCM command are those of its operands. -/
theorem gcmOperands_of_lengthsOk {st : Strategy} {s u : State} {rk : Vector Word 32} (hu : AfterPrefix st s rk u)
    (h : gcmLengthsOk u = true) : GcmOperands s (s.operand .ivBuf) (s.operand .aadBuf) (s.operand .inBuf) := by
  have hfit : ∀ {b}, u.fits b = true → (s.operand b).length ≤ capacity s.cfg b := by
    intro b hb
    rwa [← hu.operand, State.operand_length, ← hu.cfg, ← fits_iff]
  simp only [gcmLengthsOk, Bool.and_eq_true] at h
  obtain ⟨⟨⟨hiv, haad⟩, hin⟩, -⟩ := h
  exact ⟨rfl, rfl, rfl, hfit hiv, hfit haad, hfit hin⟩

theorem gcmencBody_lengthsOk {st : Strategy} {u : State} {r : Result} (h : gcmencBody st u = .ok r) :
    gcmLengthsOk u = true := by
  by_contra hlen
  rw [gcmencBody, if_neg hlen] at h
  cases h

/-- A `GCMENC` that reports no error has output the ciphertext and the tag under the subkeys it leaves. -/
theorem output_of_gcmenc_noError {st : Strategy} {kx : Bool} {s t : State}
    (hc : s.cfg.wellFormed = true) (hs : s.tablesSound) (hexec : exec (gcmCommand .enc st kx) s = .next t)
    (herr : t.err = .noError) :
    ∃ iv aad m, GcmOperands s iv aad m ∧ t.operand .outBuf = gcmStream t.rk iv m ∧
      t.tagOut = tagWords (gcmTagOf t.rk iv aad (gcmStream t.rk iv m)) := by
  have hne : ∀ u, bodyOf (gcmCommand .enc st kx) u ≠ .error .noError := by
    intro u h
    rw [bodyOf_gcmCommand_enc] at h
    exact absurd (gcmencBody_error h) nofun
  obtain ⟨u, r, hu, hb, rfl⟩ := commit_of_noError (gcmCommand_isData .enc st kx) (fun _ => hs) hne hexec herr
  rw [gcmCommand_strategy] at hu
  rw [bodyOf_gcmCommand_enc] at hb
  have hops := gcmOperands_of_lengthsOk hu (gcmencBody_lengthsOk hb)
  rw [hu.gcmencBody hc hops, ← hu.rk] at hb
  cases hb
  refine ⟨_, _, _, hops, ?_, ?_⟩
  · rw [commit_rk]
    refine commit_operand_out _ u ?_
    rw [gcmStream_length]
    exact (output_fits_of_wellFormed hc (hops.inFits.trans (Nat.le_add_right _ _))).2
  · rw [commit_rk]
    rfl

/-- A command that outputs an operand of a state leaves its length in `OUT_LEN` and its bytes in `OUTBUF`. -/
theorem Completes.returns_operand {i : Instr} {s u : State} {b : Buffer} {tag : Option Block}
    (h : Completes i u (s.operand b) tag) :
    ∃ v, exec i u = .next v ∧ v.err = .noError ∧ v.outLen = s.lengthReg b ∧
      ∀ a < (s.lengthReg b).toNat, v.byteAt .outBuf a = s.byteAt b a := by
  obtain ⟨v, hv, ⟨-, -, hvErr, hvLen, -⟩, hvOut, -⟩ := h
  refine ⟨v, hv, hvErr, ?_, fun a ha => ?_⟩
  · rw [hvLen, State.operand_length]
    exact BitVec.ofNat_toNat ..
  · have hlt : a < (s.operand b).length := by rwa [State.operand_length]
    rw [hvOut, List.getD_eq_getElem _ _ hlt]
    exact State.readBytes_getElem ..

/-- Settles O56: `GCMENC` has output the stream and its tag, and `GCMDEC` streams the stream back. -/
theorem gcmDecryptionRecoversThePlaintext : Obligations.GcmDecryptionRecoversThePlaintext := by
  intro st st' kx s t u hc hs hexec herr hcfg hsu hrk hrkv hivLen hiv haadLen haad hinLen hin htag
  obtain ⟨iv, aad, m, hops, hout, htagOut⟩ := output_of_gcmenc_noError hc hs hexec herr
  have huops : GcmOperands u iv aad (gcmStream t.rk iv m) :=
    { ivBuf := (operand_eq_of_byteAt (s := s) (b := .ivBuf) (c := .ivBuf) hivLen hiv).trans hops.ivBuf
      aadBuf := (operand_eq_of_byteAt (s := s) (b := .aadBuf) (c := .aadBuf) haadLen haad).trans hops.aadBuf
      inBuf := (operand_eq_of_byteAt (s := t) (b := .inBuf) (c := .outBuf) hinLen hin).trans hout
      ivFits := hcfg ▸ hops.ivFits
      aadFits := hcfg ▸ hops.aadFits
      inFits := by
        rw [gcmStream_length, hcfg]
        exact hops.inFits }
  have hdec := completes_gcmdec (st := st') (kx := false) (fun _ => hsu) hrkv hrk.symm (by rwa [hcfg]) huops
    (tagInBlock_of_tagIn (htag.trans htagOut))
  rw [gcmStream_gcmStream, ← hops.inBuf] at hdec
  exact hdec.returns_operand

end Sys2Proof.Machine

/-!
# Proofs about the exceptions (`60_exceptions.md`)

Every command ends in an abort or in a commit (`exec_ends`), so it ends idle and done, and a failed one has aborted.
Which check fails first is read off in the order of R209: first `KeyPrefix`, whose failure does not depend on the
strategy (`keyInForce`), then the checks of the body on the operands (`operandErr`). Each body makes the checks of R208
that the conditions of its operation state (`lengthOutOfRange`), and in range it answers what the source defines.
-/

namespace Sys2Proof.Machine

/-! ## Every command ends (R200) -/

/-- No command answers anything but a next state. -/
theorem exec_answers (i : Instr) (s : State) : ∃ t, exec i s = .next t := by
  rcases exec_cases i s with ⟨-, -, he⟩ | ⟨-, -, he⟩ | ⟨-, -, he⟩ <;> exact ⟨_, he⟩

/-- Settles O51: an abort and a commit both end idle and done. -/
theorem everyCommandEndsIdleAndDone : Obligations.EveryCommandEndsIdleAndDone := by
  intro i s
  obtain ⟨t, he⟩ := exec_answers i s
  refine ⟨t, he, ?_⟩
  obtain ⟨u, -, ⟨e, rfl⟩ | ⟨r, -, rfl⟩⟩ := exec_ends he
  · exact ⟨rfl, rfl⟩
  · exact ⟨commit_busy r u, commit_done r u⟩

/-! ## What a failed command leaves (R200, R210, R237) -/

/-- Settles O49: a failed command has aborted, and neither the preparation nor the abort writes any output. -/
theorem failedCommandsLeaveNoOutput : Obligations.FailedCommandsLeaveNoOutput := by
  intro i s t hexec herr
  have hinputs := commandsWriteNoInput i s t hexec
  obtain ⟨u, hp, ⟨e, rfl⟩ | ⟨r, -, rfl⟩⟩ := exec_ends hexec
  · exact ⟨rfl, rfl, rfl, rfl, hp.byteAt_out, hp.sameTagOut, hinputs⟩
  · exact absurd (commit_err r u) herr

/-- An abort from a prepared state is the abort procedure when tables and subkeys are those the command ends with. -/
theorem Prepared.aborts {i : Instr} {s u : State} {e : Err} (hp : Prepared i s u)
    (hexec : exec i s = .next (u.abort e)) (hrk : u.rk = subkeysAfter i s)
    (hrkv : u.rkValid = (loadsKey i s || s.rkValid)) (htab : TablesAfter i s u) : Aborts i s e :=
  ⟨u.abort e, hexec,
    ⟨rfl, rfl, rfl, rfl, rfl, rfl, rfl, hrk, hrkv, htab, hp.sameInputs.trans (sameInputs_abort u e)⟩,
    hp.byteAt_out, hp.sameTagOut⟩

/-- A command fails by the abort procedure when `KeyPrefix` fails. -/
theorem aborts_of_keyPrefix_error {i : Instr} {s : State} {e : Err} (hop : i.op ≠ .tblgen)
    (hu : keyPrefix i.strategy (i.kx || i.op == .keyexp) (lazyTables i.strategy s) = .error e) : Aborts i s e := by
  have hexec : exec i s = .next ((lazyTables i.strategy s).abort e) := by
    rw [exec_of_ne_tblgen hop, runData_of_prefix_error _ hu]
  have hload : loadsKey i s = false := by
    rcases keyPrefix_error hu with ⟨-, hk, -⟩ | ⟨hrun, -, -⟩
    · rw [lazyTables_keyLen] at hk
      rw [loadsKey, beq_false_of_ne hk, Bool.and_false]
    · rw [loadsKey, hrun, Bool.false_and]
  refine Prepared.lazy.aborts hexec ?_ ?_ (tablesAfter_lazyTables hop s)
  · simp [subkeysAfter, hload]
  · simp [hload]

/-- A command fails by the abort procedure when `KeyPrefix` succeeds and a check of the body fails. -/
theorem aborts_of_body_error {i : Instr} {s u : State} {e : Err} (hop : i.op ≠ .tblgen)
    (hs : i.strategy = .table → s.tablesSound)
    (hu : keyPrefix i.strategy (i.kx || i.op == .keyexp) (lazyTables i.strategy s) = .ok u)
    (hb : bodyOf i u = .error e) : Aborts i s e := by
  have hexec : exec i s = .next (u.abort e) := by
    rw [exec_of_ne_tblgen hop, runData_of_prefix_ok _ hu, hb, conclude]
  obtain ⟨hrk, hrkv, htab⟩ := keyPrefix_persistent hop hs hu
  exact (Prepared.of_keyPrefix hu).aborts hexec hrk hrkv htab

/-- Settles O48: without a key to expand, `KeyPrefix` asks for loaded subkeys. -/
theorem dataCommandsNeedALoadedKey : Obligations.DataCommandsNeedALoadedKey := by
  intro i s hdata hkx hv
  obtain ⟨hexp, hgen⟩ : i.op ≠ .keyexp ∧ i.op ≠ .tblgen := by simpa [isData] using hdata
  refine aborts_of_keyPrefix_error hgen ?_
  rw [hkx, beq_false_of_ne hexp, Bool.or_false, keyPrefix_false, lazyTables_rkValid, hv]
  rfl

/-! ## The checks on the key (R202, R207, R209) -/

/-- The first failing check of steps 4 to 6 of R209: the rest of `expectedErr` once the checks on the key have
passed. -/
def operandErr (i : Instr) (s : State) : Err :=
  if lengthOutOfRange i s then .lengthRange
  else if i.op == .dec && s.inLen.toNat % 16 != 0 then .invalidCiphertextLength
  else if i.op == .dec && i.pad == .pkcs7 &&
      (unpad (ecbBytes (subkeysAfter i s) .dec (s.operand .inBuf))).isNone then .invalidPadding
  else if i.op == .gcmdec &&
      gcmTagOf (subkeysAfter i s) (s.operand .ivBuf) (s.operand .aadBuf) (s.operand .inBuf) != s.tagInBlock then
    .authenticationFailed
  else .noError

/-- The failure of `KeyPrefix` is the first failing check. -/
theorem expectedErr_of_keyPrefix_error {i : Instr} {s : State} {e : Err} (hop : i.op ≠ .tblgen)
    (hu : keyPrefix i.strategy (i.kx || i.op == .keyexp) (lazyTables i.strategy s) = .error e) :
    expectedErr i s = e := by
  rcases keyPrefix_error hu with ⟨hrun, hk, rfl⟩ | ⟨hrun, hv, rfl⟩
  · rw [lazyTables_keyLen] at hk
    rw [expectedErr, hrun, Bool.true_and, if_pos (bne_iff_ne.2 hk)]
  · rw [lazyTables_rkValid] at hv
    obtain ⟨hkx, hexp⟩ : i.kx = false ∧ i.op ≠ .keyexp := by simpa using hrun
    have hdata : isData i = true := by simp [isData, hexp, hop]
    rw [expectedErr, hrun, hdata, hkx, hv]
    rfl

/-- Once `KeyPrefix` has succeeded the checks on the operands decide. -/
theorem expectedErr_of_keyPrefix_ok {i : Instr} {s u : State}
    (hu : keyPrefix i.strategy (i.kx || i.op == .keyexp) (lazyTables i.strategy s) = .ok u) :
    expectedErr i s = operandErr i s := by
  have hlen : ((i.kx || i.op == .keyexp) && s.keyLen != 16) = false := by
    rcases keyPrefix_ok hu with ⟨-, hk, -⟩ | ⟨hrun, -, -⟩
    · rw [lazyTables_keyLen] at hk
      rw [hk, bne_self_eq_false, Bool.and_false]
    · rw [hrun, Bool.false_and]
  have hloaded : (isData i && !i.kx && !s.rkValid) = false := by
    rcases keyPrefix_ok hu with ⟨hrun, -, -⟩ | ⟨-, hv, -⟩
    · cases hkx : i.kx with
      | true => simp
      | false =>
        have hexp : i.op = .keyexp := by simpa [hkx] using hrun
        simp [isData, hexp]
    · rw [lazyTables_rkValid] at hv
      simp [hv]
  rw [expectedErr, hlen, hloaded]
  rfl

/-- The body of a command finds the subkeys that the command ends with. -/
theorem afterPrefix_of_keyPrefix {i : Instr} {s u : State} (hop : i.op ≠ .tblgen)
    (hs : i.strategy = .table → s.tablesSound)
    (hu : keyPrefix i.strategy (i.kx || i.op == .keyexp) (lazyTables i.strategy s) = .ok u) :
    AfterPrefix i.strategy s (subkeysAfter i s) u := by
  obtain ⟨hrk, -, -⟩ := keyPrefix_persistent hop hs hu
  rw [keyPrefix_lazyTables hs] at hu
  cases hkey : keyInForce (i.kx || i.op == .keyexp) s with
  | error e =>
    rw [hkey] at hu
    cases hu
  | ok rk =>
    rw [hkey] at hu
    cases hu
    rw [← hrk]
    exact afterPrefix_loadRk hs rk

/-! ## The checks on the operands (R208, R209) -/

/-- The error that an answer reports. -/
def errOf {α : Type} : Except Err α → Err
  | .error e => e
  | .ok _ => .noError

theorem errOf_bytesResult (x : Except Err CallOutput) : errOf (bytesResult x) = errOf x := by
  cases x <;> rfl

/-- `ENCBLK`, `DECBLK`, `ENC` and `GCMENC` have no check beyond R208. -/
theorem operandErr_of_length {i : Instr} (hdec : i.op ≠ .dec) (hgcm : i.op ≠ .gcmdec) (s : State) :
    operandErr i s = if lengthOutOfRange i s then .lengthRange else .noError := by
  simp only [operandErr, beq_false_of_ne hdec, beq_false_of_ne hgcm, Bool.false_and, Bool.false_eq_true, if_false]

/-! ### The conditions of R208, operation by operation -/

section
variable {i : Instr} (s : State)

theorem lengthOutOfRange_block (hop : i.op = .encblk ∨ i.op = .decblk) :
    lengthOutOfRange i s = false ↔ s.inLen.toNat ≤ s.cfg.inCap ∧
      if i.strategy = .batch then s.inLen.toNat % 16 = 0 else s.inLen.toNat = 16 := by
  rcases hop with hop | hop <;> by_cases hst : i.strategy = .batch <;> simp [lengthOutOfRange, isData, hop, hst]

theorem lengthOutOfRange_enc (hop : i.op = .enc) :
    lengthOutOfRange i s = false ↔ s.inLen.toNat ≤ s.cfg.inCap ∧ (i.pad = .none → s.inLen.toNat % 16 = 0) := by
  simp [lengthOutOfRange, isData, hop]

theorem lengthOutOfRange_dec (hop : i.op = .dec) :
    lengthOutOfRange i s = false ↔ s.inLen.toNat ≤ s.cfg.inCap := by
  simp [lengthOutOfRange, isData, hop]

theorem lengthOutOfRange_gcm (hop : i.op = .gcmenc ∨ i.op = .gcmdec) :
    lengthOutOfRange i s = false ↔
      s.inLen.toNat ≤ s.cfg.inCap ∧ s.ivLen.toNat ≤ s.cfg.ivCap ∧ s.aadLen.toNat ≤ s.cfg.aadCap := by
  rcases hop with hop | hop <;> simp [lengthOutOfRange, isData, hop]

end

section
variable {i : Instr} {s u : State} (hu : AfterPrefix i.strategy s (subkeysAfter i s) u)
  (hc : s.cfg.wellFormed = true)
include hu

theorem AfterPrefix.inLen_toNat : u.inLen.toNat = s.inLen.toNat := by
  rw [hu.inLen rfl, State.operand_length]
  rfl

/-- Steps 2 and 3 of R209 change no operand's length and no capacity. -/
theorem AfterPrefix.fits_iff (b : Buffer) : u.fits b = true ↔ (s.lengthReg b).toNat ≤ capacity s.cfg b := by
  rw [Machine.fits_iff, ← State.operand_length, hu.operand, State.operand_length, hu.cfg]

include hc

/-- An input within its capacity leaves room for an output of its length (R7, R54). -/
theorem AfterPrefix.inBuf_fits_iff :
    (u.fits .inBuf && u.outFits u.inLen.toNat) = true ↔ s.inLen.toNat ≤ s.cfg.inCap := by
  rw [Bool.and_eq_true, hu.fits_iff, hu.inLen_toNat]
  exact ⟨And.left, fun hin => ⟨hin, hu.outFits hc (hin.trans (Nat.le_add_right _ _))⟩⟩

/-- The length check of the block commands is (a), (c) and (d) of R208. -/
theorem AfterPrefix.blockLengthOk_iff (hop : i.op = .encblk ∨ i.op = .decblk) :
    blockLengthOk i.strategy u = true ↔ lengthOutOfRange i s = false := by
  have hone : u.inLen = 16 ↔ s.inLen.toNat = 16 := by
    rw [← hu.inLen_toNat]
    exact (BitVec.toNat_inj (y := 16)).symm
  rw [lengthOutOfRange_block s hop, ← hu.inBuf_fits_iff hc, ← hone, ← hu.inLen_toNat]
  cases i.strategy <;> simp [blockLengthOk]

/-- The capacity checks of the GCM commands are (a) and (b) of R208. -/
theorem AfterPrefix.gcmLengthsOk_iff (hop : i.op = .gcmenc ∨ i.op = .gcmdec) :
    Machine.gcmLengthsOk u = true ↔ lengthOutOfRange i s = false := by
  rw [lengthOutOfRange_gcm s hop]
  constructor
  · intro h
    obtain ⟨-, -, -, hiv, haad, hin⟩ := gcmOperands_of_lengthsOk hu h
    rw [State.operand_length] at hiv haad hin
    exact ⟨hin, hiv, haad⟩
  · rintro ⟨hin, hiv, haad⟩
    exact hu.gcmLengthsOk hc (gcmOperands_of_le hiv haad hin)

theorem AfterPrefix.errOf_blockBody (hop : i.op = .encblk ∨ i.op = .decblk) (dir : Direction) :
    errOf (Machine.blockBody i.strategy dir u) = operandErr i s := by
  obtain ⟨hdec, hgcm⟩ : i.op ≠ .dec ∧ i.op ≠ .gcmdec := by rcases hop with hop | hop <;> simp [hop]
  simp only [operandErr_of_length hdec hgcm, Machine.blockBody, hu.blockLengthOk_iff hc hop]
  cases lengthOutOfRange i s <;> rfl

theorem AfterPrefix.errOf_gcmencBody (hop : i.op = .gcmenc) :
    errOf (Machine.gcmencBody i.strategy u) = operandErr i s := by
  obtain ⟨hdec, hgcm⟩ : i.op ≠ .dec ∧ i.op ≠ .gcmdec := by simp [hop]
  simp only [operandErr_of_length hdec hgcm, Machine.gcmencBody, hu.gcmLengthsOk_iff hc (.inl hop)]
  cases lengthOutOfRange i s <;> rfl

theorem AfterPrefix.errOf_encBody (hop : i.op = .enc) :
    errOf (Machine.encBody i.strategy i.pad u) = operandErr i s := by
  obtain ⟨hdec, hgcm⟩ : i.op ≠ .dec ∧ i.op ≠ .gcmdec := by simp [hop]
  rw [operandErr_of_length hdec hgcm]
  have hrange := lengthOutOfRange_enc s hop
  by_cases hin : s.inLen.toNat ≤ s.cfg.inCap
  · have hlen : (s.operand .inBuf).length = s.inLen.toNat := State.operand_length s .inBuf
    rw [hu.encBody hc i.pad rfl (by rwa [hlen]), errOf_bytesResult]
    cases hp : i.pad with
    | none =>
      have hal : lengthOutOfRange i s = false ↔ s.inLen.toNat % 16 = 0 := by simpa [hin, hp] using hrange
      simp only [messageResult, hlen, ← hal]
      cases lengthOutOfRange i s <;> rfl
    | pkcs7 =>
      rw [hrange.2 ⟨hin, by rw [hp]; exact nofun⟩]
      rfl
  · have hfits : ¬u.fits .inBuf = true := fun h => hin ((hu.fits_iff .inBuf).1 h)
    have hout : lengthOutOfRange i s = true := by simpa [hin] using hrange
    rw [Machine.encBody, if_neg hfits, hout]
    rfl

/-- `DEC` checks its capacity, then the alignment, then the pad (R154, R155). -/
theorem AfterPrefix.errOf_decBody (hop : i.op = .dec) :
    errOf (Machine.decBody i.strategy i.pad u) = operandErr i s := by
  have hrange := lengthOutOfRange_dec s hop
  by_cases hin : s.inLen.toNat ≤ s.cfg.inCap
  · have hlen : (s.operand .inBuf).length = s.inLen.toNat := State.operand_length s .inBuf
    rw [hu.decBody hc i.pad rfl (by rwa [hlen]), errOf_bytesResult, operandErr, hrange.2 hin, hop]
    by_cases ha : s.inLen.toNat % 16 = 0
    · cases i.pad with
      | none => simp [messageResult, hlen, ha, errOf]
      | pkcs7 => cases hpad : unpad (ecbBytes (subkeysAfter i s) .dec (s.operand .inBuf)) <;>
          simp [messageResult, hlen, ha, hpad, errOf]
    · cases i.pad <;> simp [messageResult, hlen, ha, errOf]
  · have hfits : ¬(u.fits .inBuf && u.outFits u.inLen.toNat) = true := fun h => hin ((hu.inBuf_fits_iff hc).1 h)
    have hout : lengthOutOfRange i s = true := by simpa [hin] using hrange
    rw [Machine.decBody, if_neg hfits, operandErr, hout]
    rfl

/-- `GCMDEC` checks its capacities, then the tag (R180). -/
theorem AfterPrefix.errOf_gcmdecBody (hop : i.op = .gcmdec) :
    errOf (Machine.gcmdecBody i.strategy u) = operandErr i s := by
  have hok := hu.gcmLengthsOk_iff hc (.inr hop)
  cases hrange : lengthOutOfRange i s with
  | false =>
    rw [hu.gcmdecBody hc (gcmOperands_of_lengthsOk hu (hok.2 hrange)), errOf_bytesResult, operandErr, hrange,
      hop]
    by_cases htag : gcmTagOf (subkeysAfter i s) (s.operand .ivBuf) (s.operand .aadBuf) (s.operand .inBuf) =
        s.tagInBlock <;> simp [htag, errOf]
  | true =>
    rw [Machine.gcmdecBody, if_neg (by simp [hok, hrange]), operandErr, hrange]
    rfl

/-- The body of a command reports the first failing check on the operands. -/
theorem AfterPrefix.errOf_bodyOf : errOf (Machine.bodyOf i u) = operandErr i s := by
  rw [bodyOf_eq_opBody]
  cases hop : i.op with
  | keyexp | tblgen => simp [opBody, errOf, operandErr, lengthOutOfRange, isData, hop]
  | encblk => exact hu.errOf_blockBody hc (.inl hop) .enc
  | decblk => exact hu.errOf_blockBody hc (.inr hop) .dec
  | enc => exact hu.errOf_encBody hc hop
  | dec => exact hu.errOf_decBody hc hop
  | gcmenc => exact hu.errOf_gcmencBody hc hop
  | gcmdec => exact hu.errOf_gcmdecBody hc hop

end

/-! ## The first failing check (R209) -/

theorem eq_tblgen_of_op {i : Instr} (h : i.op = .tblgen) : i = .tblgen := by
  cases i <;> cases h
  rfl

/-- A command completes when no check fails, and else it aborts with the first failing check. -/
theorem completes_or_aborts {i : Instr} {s : State} (hc : s.cfg.wellFormed = true)
    (hs : i.strategy = .table → s.tablesSound) :
    (expectedErr i s = .noError ∧ ∃ out tag, Completes i s out tag) ∨ Aborts i s (expectedErr i s) := by
  by_cases hop : i.op = .tblgen
  · cases eq_tblgen_of_op hop
    exact .inl ⟨rfl, [], none, tblgenBuildsTheTables s⟩
  · cases hu : keyPrefix i.strategy (i.kx || i.op == .keyexp) (lazyTables i.strategy s) with
    | error e =>
      rw [expectedErr_of_keyPrefix_error hop hu]
      exact .inr (aborts_of_keyPrefix_error hop hu)
    | ok u =>
      rw [expectedErr_of_keyPrefix_ok hu, ← (afterPrefix_of_keyPrefix hop hs hu).errOf_bodyOf hc]
      cases hb : bodyOf i u with
      | error e => exact .inr (aborts_of_body_error hop hs hu hb)
      | ok r => exact .inl ⟨rfl, r.out, r.tag, completes_of_keyPrefix hop hs hu hb⟩

/-- Settles O46: a command that completes reports no error, and one that aborts reports the check that failed. -/
theorem commandsReportTheFirstFailingCheck : Obligations.CommandsReportTheFirstFailingCheck := by
  intro i s hc hs
  rcases completes_or_aborts hc hs with ⟨hno, -, -, t, hexec, ⟨-, -, herr, -⟩, -⟩ | haborts
  · exact ⟨⟨t, hexec, herr.trans hno.symm⟩, fun hne => absurd hno hne⟩
  · refine ⟨?_, fun _ => haborts⟩
    obtain ⟨t, hexec, ⟨-, -, herr, -⟩, -⟩ := haborts
    exact ⟨t, hexec, herr⟩

end Sys2Proof.Machine

/-!
# Proofs about reset and hazards (`70_reset_and_hazards.md`)

When the engine may complete, its step ends the running command (`step_completes`). Until then, with defined accesses
and no reset to come, the step is an access that leaves the command running and uses up one host step of the busy
window (`step_uses_up_busyWindow`). So every running command completes, by induction on the length of the window. A
reset input is always the host's turn, and no field of the state it leaves depends on what was running.
-/

namespace Sys2Proof.Machine

/-! ## The engine's step (R243) -/

/-- When the engine may complete, its step ends the command, be its word legal or not. -/
theorem step_completes {s : State} (hm : MayComplete s) : ∃ t, step s = .next t ∧ t.busy = false ∧ t.done = true := by
  rw [step_eq_engineComplete hm]
  rcases engineComplete_cases s with ⟨i, -, he⟩ | ⟨e, -, he⟩
  · rw [he]
    exact everyCommandEndsIdleAndDone i s
  · exact ⟨s.abort .illegalCommand, he, rfl, rfl⟩

/-- When the engine may complete and the latched word decodes, the step is `exec` of its command. -/
theorem step_eq_exec {s : State} {i : Instr} (hm : MayComplete s) (hd : decode s.cmdw = .ok i) :
    step s = exec i s := by
  rw [step_eq_engineComplete hm, engineComplete, hd]

/-- A placed word finds the engine ready: its busy window is empty. -/
theorem mayComplete_withFetchWord (s : State) (nbits w : Nat) : MayComplete (s.withFetchWord nbits w) :=
  ⟨rfl, .inr (.inl rfl)⟩

/-- A placed word is the latched word that `decodeTableWord` reads. -/
theorem decode_withFetchWord {nbits w : Nat} {i : Instr} (h : decodeTableWord nbits w = some i) (s : State) :
    decode (s.withFetchWord nbits w).cmdw = .ok i := by
  change decode (BitVec.ofNat 32 (w % 2 ^ nbits)) = .ok i
  unfold decodeTableWord at h
  split at h
  · cases h
    assumption
  · cases h

/-- Settles O7: the engine decodes the latched word, and a placed word is latched with the engine ready. -/
theorem stepRunsTheDecodedCommand : Obligations.StepRunsTheDecodedCommand :=
  ⟨fun _ _ => step_eq_exec,
    fun s w _ h => step_eq_exec (mayComplete_withFetchWord s 32 w) (decode_withFetchWord h s)⟩

/-! ## The busy window (R234, R240) -/

/-- Neither a reset nor an undefined access is among the inputs. -/
def OrderlyInputs (s : State) : Prop :=
  ∀ x ∈ s.inputs, x ≠ .reset ∧ ∀ a, x = .access a → accessDefined s.cfg a = true

/-- A running command that may not complete yet has a host step of its busy window before it: a defined access. -/
theorem pending_access {s : State} (hb : s.busy = true) (ho : OrderlyInputs s) (hm : ¬MayComplete s) :
    s.delay ≠ 0 ∧ ∃ a rest, s.inputs = .access a :: rest ∧ accessDefined s.cfg a = true := by
  refine ⟨fun hd => hm ⟨hb, .inr (.inl hd)⟩, ?_⟩
  cases hi : s.inputs with
  | nil => exact absurd ⟨hb, .inl hi⟩ hm
  | cons x rest =>
    obtain ⟨hreset, hdef⟩ := ho x (by simp [hi])
    cases x with
    | access a => exact ⟨a, rest, rfl, hdef a rfl⟩
    | wait => exact absurd ⟨hb, .inr (.inr ⟨rest, hi⟩)⟩ hm
    | reset => exact absurd rfl hreset

/-- A defined access in the busy window leaves the command running and the window as it is (R26). -/
theorem hostAccess_busy {s : State} {a : Access} (hb : s.busy = true) (ha : accessDefined s.cfg a = true) :
    ∃ t, hostAccess a s = .next t ∧ t.busy = true ∧ t.cfg = s.cfg ∧ t.inputs = s.inputs ∧ t.delay = s.delay := by
  obtain ⟨t, ht, ⟨-, -, -, ⟨hcfg, -⟩, hbusy, -⟩, hwrite, -⟩ := busyWindowAccessesArePowerless s a hb ha
  have hwindow : t.inputs = s.inputs ∧ t.delay = s.delay := by
    cases hw : isWrite a with
    | true => simp [hwrite hw]
    | false => exact (hostReadsHaveNoSideEffect s t a hw ht).2
  exact ⟨t, ht, hbusy.trans hb, hcfg, hwindow⟩

/-- Until the engine may complete, a step leaves the command running and uses up one host step of its window. -/
theorem step_uses_up_busyWindow {s : State} (hb : s.busy = true) (ho : OrderlyInputs s) (hm : ¬MayComplete s) :
    ∃ t, step s = .next t ∧ t.busy = true ∧ OrderlyInputs t ∧ t.delay + 1 = s.delay := by
  obtain ⟨hd, a, rest, hi, ha⟩ := pending_access hb ho hm
  obtain ⟨t, ht, hbusy, hcfg, hinputs, hdelay⟩ :=
    hostAccess_busy (s := { s with inputs := rest, delay := s.delay - 1 }) hb ha
  refine ⟨t, ?_, hbusy, fun x hx => ?_, ?_⟩
  · rw [step_eq_hostTurn hm, hostTurn_access hi, ht]
  · rw [hinputs] at hx
    rw [hcfg]
    exact ho x (hi ▸ List.mem_cons_of_mem _ hx)
  · rw [hdelay]
    exact Nat.sub_add_cancel (Nat.pos_of_ne_zero hd)

/-- Settles O19, by induction on the host steps left in the busy window. -/
theorem everyAcceptedCommandCompletes : Obligations.EveryAcceptedCommandCompletes := by
  intro s hb ho
  induction hn : s.delay using Nat.strong_induction_on generalizing s with
  | _ n ih =>
    by_cases hm : MayComplete s
    · obtain ⟨t, ht, hend⟩ := step_completes hm
      exact ⟨1, t, Nat.le_add_left 1 n, run_one ht, hend⟩
    · obtain ⟨u, hu, hbu, hou, hdelay⟩ := step_uses_up_busyWindow hb ho hm
      obtain ⟨k, t, hk, ht, hend⟩ := ih u.delay (by omega) u hbu hou rfl
      exact ⟨1 + k, t, by omega, run_trans (run_one hu) ht, hend⟩

/-! ## Reset (R231, R232) -/

/-- The reset values make a reset state, whatever the configuration, the host port and the count of resets. -/
theorem isResetState_reset_with (c : Config) (inputs : List Input) (responses : List PortData) (fresh epoch : Nat) :
    IsResetState { State.reset with
      cfg := c, inputs := inputs, responses := responses, fresh := fresh, epoch := epoch } := by
  have hstatus : State.reset.status = 0 := by decide
  have htag : ∀ j, State.reset.tagIn.get j = 0 := by decide
  exact ⟨hstatus, rfl, rfl, rfl, rfl, rfl, rfl, htag, rfl, fun b _ => by cases b <;> rfl, fun _ => rfl, fun _ => rfl⟩

/-- With a reset input next, an idle engine, or one with host steps left in its busy window, may not complete. -/
theorem not_mayComplete_of_reset {s : State} {rest : List Input} (hi : s.inputs = .reset :: rest)
    (h : s.busy = false ∨ s.delay ≠ 0) : ¬MayComplete s := by
  rintro ⟨hb, hn | hd | ⟨_, hw⟩⟩
  · simp [hi] at hn
  · simp [hb, hd] at h
  · simp [hi] at hw

theorem hostTurn_reset {s : State} {rest : List Input} (h : s.inputs = .reset :: rest) :
    hostTurn s = .next (State.resetInput { s with inputs := rest }) := by
  simp [hostTurn, h]

/-- Settles O10: the reset input is the host's turn, and leaves the reset values as `State.reset` has them. -/
theorem resetLeavesTheResetState : Obligations.ResetLeavesTheResetState := by
  refine ⟨isResetState_reset_with _ _ _ _ _, fun s rest hi h => ?_⟩
  exact ⟨_, (step_eq_hostTurn (not_mayComplete_of_reset hi h)).trans (hostTurn_reset hi),
    isResetState_reset_with _ _ _ _ _, rfl, rfl, rfl⟩

end Sys2Proof.Machine
